-- ==== Sys2Proof/Word.lean ====
section
/-! DEFINITION. The engine's plain value types: bus words, bus bytes, and the two kinds of register number. -/

namespace Sys2Proof

/-- A 32-bit bus word or control register (R12, R30 (c)). -/
abbrev Word := BitVec 32

/-- One byte lane of a bus word (R75 (c)). -/
abbrev Byte := BitVec 8

/-- The index of a general register X0 to X15: a 4-bit field of the command word (R31, R101). -/
abbrev XReg := Fin 16

/-- The index of a key register K0 to K6 (R32). -/
abbrev KReg := Fin 7

end Sys2Proof
end

