-- ==== Sys2Proof/Config.lean ====
section
/-! DEFINITION. What is fixed for one machine and its platform (the parameters the spec leaves OPEN), and the
values the spec leaves free. The parameters are data, held in `State.cfg`, so that every claim quantifies over them. -/

namespace Sys2Proof

/-- The parameters of 92_eei_decisions.md "Parameters left OPEN". No step changes them. -/
structure Params where
  /-- NMAX, the largest key bit length (R8); CAP reads it (R37). -/
  nmax : Nat
  /-- BASE, the host address of aperture offset 0 (R71). -/
  base : Nat
  /-- IRQ_LINE, the host's interrupt input that `irq` drives (R186). -/
  irqLine : Nat
  /-- What a bus error does to the host (R78, U8): true, the host takes a fault; false, the response is ignored. -/
  busErrorFaultsHost : Bool
  /-- What a host access gets while reset is asserted (R200, U9): true, a bus error; false, it is held off. -/
  resetAccessBusError : Bool
  deriving DecidableEq, Repr

/-- The parameters of `State.reset`: the reference build NMAX = 4096 (R8), and DESIGN CHOICE values for the
platform's own (unsafe where a claim rests on them: log 1 to 5). The last two are the conservative readings of U8, U9. -/
def referenceParams : Params where
  nmax := 4096
  base := 0
  irqLine := 0
  busErrorFaultsHost := true
  resetAccessBusError := false

/-- The entropy source's answers once the queue `State.entropy` is spent: a free value under no law (R152, R190,
U3), applied to the counter `State.freeIndex`; the draw is this value reduced to BITLEN bits. Safe (log 9). -/
opaque Config.entropyAnswer : Nat → Nat

/-- What a host read of an in-flight destination returns: a fresh unspecified 32-bit value per read (R49, U1),
applied to the counter `State.freeIndex`. Safe (log 10). -/
opaque Config.unspecifiedRead : Nat → Word

end Sys2Proof
end

