-- ==== Sys2Proof/Syntax.lean ====
section
/-! DEFINITION. The command set: one constructor per row of the opcode table, its opcode, its format, and the raw
field record of a command word. -/

namespace Sys2Proof

/-- The eight commands of R104 with their operand fields named as in the source's contracts (R103). -/
inductive Instr where
  /-- NOP (R119). -/
  | nop
  /-- CRTEXP (R125): X[rd] <- crtExp(base, expP, expQ, pInvQ, p, q). -/
  | crtexp (rd base expP expQ pInvQ p q : XReg)
  /-- LFUNC (R163): X[rd] <- L(X[u]). -/
  | lfunc (rd u : XReg)
  /-- KEYDERIVE (R141): K0 to K6 <- the key derived from X[p], X[q]. -/
  | keyderive (p q : XReg)
  /-- ENCRYPT (R155): X[rd] <- an encryption of X[m]. -/
  | encrypt (rd m : XReg)
  /-- DECRYPT (R165): X[rd] <- the decryption of X[c]. -/
  | decrypt (rd c : XReg)
  /-- HADD (R171): X[rd] <- X[c1] · X[c2] mod N². -/
  | hadd (rd c1 c2 : XReg)
  /-- HMUL (R173): X[rd] <- X[c1] ^ X[k] mod N². -/
  | hmul (rd c1 k : XReg)
  deriving DecidableEq, Repr

/-- The defined opcodes, one per command (R104). -/
inductive Opcode where
  | nop | crtexp | lfunc | keyderive | encrypt | decrypt | hadd | hmul
  deriving DecidableEq, Repr

/-- The command formats (R102). -/
inductive Format where
  /-- no field used -/
  | z
  /-- all seven fields used -/
  | c7
  /-- RD, RS1 used -/
  | r1
  /-- RD, RS1, RS2 used -/
  | r2
  /-- RS1, RS2 used -/
  | p2
  deriving DecidableEq, Repr

/-- The eight 4-bit fields of a command word, as numbers (R101). -/
structure Fields where
  op : Fin 16
  rd : Fin 16
  rs1 : Fin 16
  rs2 : Fin 16
  rs3 : Fin 16
  rs4 : Fin 16
  rs5 : Fin 16
  rs6 : Fin 16
  deriving DecidableEq, Repr

/-- Why a command word is illegal, or a byte stream no command (R105). -/
inductive Illegal where
  /-- OP is 0x8 to 0xF: reserved for later revisions. -/
  | reservedOpcode (op : Fin 16)
  /-- A must-be-zero field of the opcode's format is not zero. -/
  | mustBeZero (o : Opcode)
  /-- Fewer than the four bytes of a command word. -/
  | truncated
  deriving DecidableEq, Repr

end Sys2Proof
end

