-- ==== Sys2Proof/WellFormed.lean ====
section
/-! DEFINITION. What is well formed. A register number carries its own bound (`Fin 16`), so an `Instr` cannot be ill
formed in a field; what can be ill formed is a raw field record (a must-be-zero field that is not zero) and a set of
parameters outside the spec's bounds. -/

namespace Sys2Proof

/-- The fields format `fmt` does not use are zero (R102, R104). -/
def Format.mustBeZeroClear (fmt : Format) (f : Fields) : Bool :=
  match fmt with
  | .z => f.rd == 0 && f.rs1 == 0 && f.rs2 == 0 && f.rs3 == 0 && f.rs4 == 0 && f.rs5 == 0 && f.rs6 == 0
  | .c7 => true
  | .r1 => f.rs2 == 0 && f.rs3 == 0 && f.rs4 == 0 && f.rs5 == 0 && f.rs6 == 0
  | .r2 => f.rs3 == 0 && f.rs4 == 0 && f.rs5 == 0 && f.rs6 == 0
  | .p2 => f.rd == 0 && f.rs3 == 0 && f.rs4 == 0 && f.rs5 == 0 && f.rs6 == 0

/-- The bounds on the parameters: 16 ≤ NMAX ≤ 16384 and NMAX a multiple of 16 (R8), BASE aligned to 0x40000 (R71). -/
def Params.wf (c : Params) : Bool :=
  decide (16 ≤ c.nmax) && decide (c.nmax ≤ 16384) && c.nmax % 16 == 0 && c.base % 0x40000 == 0

end Sys2Proof
end

