-- ==== Sys2Proof/Decode.lean ====
section
/-! DEFINITION. Decoding of a command word (total, rejecting by name), and the encoder written from the same tables.
The word is four little-endian bytes on the bus (R75 (c)) and is always issued whole (R100). -/

namespace Sys2Proof

/-- The opcode of a command. -/
def Instr.opcode : Instr → Opcode
  | .nop => .nop
  | .crtexp _ _ _ _ _ _ _ => .crtexp
  | .lfunc _ _ => .lfunc
  | .keyderive _ _ => .keyderive
  | .encrypt _ _ => .encrypt
  | .decrypt _ _ => .decrypt
  | .hadd _ _ _ => .hadd
  | .hmul _ _ _ => .hmul

/-- The format of each command (R102). -/
def Opcode.format : Opcode → Format
  | .nop => .z
  | .crtexp => .c7
  | .lfunc | .encrypt | .decrypt => .r1
  | .hadd | .hmul => .r2
  | .keyderive => .p2

/-- The eight fields of a command word (R101). -/
def fieldsOf (w : Word) : Fields where
  op := (w.extractLsb' 28 4).toFin
  rd := (w.extractLsb' 24 4).toFin
  rs1 := (w.extractLsb' 20 4).toFin
  rs2 := (w.extractLsb' 16 4).toFin
  rs3 := (w.extractLsb' 12 4).toFin
  rs4 := (w.extractLsb' 8 4).toFin
  rs5 := (w.extractLsb' 4 4).toFin
  rs6 := (w.extractLsb' 0 4).toFin

/-- The command word {OP, RD, RS1, ..., RS6} (R101, R107). -/
def wordOf (f : Fields) : Word :=
  BitVec.ofFin (w := 4) f.op ++ BitVec.ofFin (w := 4) f.rd ++ BitVec.ofFin (w := 4) f.rs1 ++
    BitVec.ofFin (w := 4) f.rs2 ++ BitVec.ofFin (w := 4) f.rs3 ++ BitVec.ofFin (w := 4) f.rs4 ++
    BitVec.ofFin (w := 4) f.rs5 ++ BitVec.ofFin (w := 4) f.rs6

/-- The opcode map of R104; 0x8 to 0xF are reserved (R105). -/
def opcodeOf (op : Fin 16) : Option Opcode :=
  match op.val with
  | 0 => some .nop
  | 1 => some .crtexp
  | 2 => some .lfunc
  | 3 => some .keyderive
  | 4 => some .encrypt
  | 5 => some .decrypt
  | 6 => some .hadd
  | 7 => some .hmul
  | _ => none

/-- The opcode number of a command (R104). -/
def opcodeNumber : Opcode → Fin 16
  | .nop => 0
  | .crtexp => 1
  | .lfunc => 2
  | .keyderive => 3
  | .encrypt => 4
  | .decrypt => 5
  | .hadd => 6
  | .hmul => 7

/-- The operand bindings of R103, from fields whose opcode is `o`. -/
def bindOperands (o : Opcode) (f : Fields) : Instr :=
  match o with
  | .nop => .nop
  | .crtexp => .crtexp f.rd f.rs1 f.rs2 f.rs3 f.rs4 f.rs5 f.rs6
  | .lfunc => .lfunc f.rd f.rs1
  | .keyderive => .keyderive f.rs1 f.rs2
  | .encrypt => .encrypt f.rd f.rs1
  | .decrypt => .decrypt f.rd f.rs1
  | .hadd => .hadd f.rd f.rs1 f.rs2
  | .hmul => .hmul f.rd f.rs1 f.rs2

/-- Decoding on fields (R104 to R106): the opcode's row, then its must-be-zero fields. -/
def decodeFields (f : Fields) : Except Illegal Instr :=
  match opcodeOf f.op with
  | none => .error (.reservedOpcode f.op)
  | some o => if o.format.mustBeZeroClear f then .ok (bindOperands o f) else .error (.mustBeZero o)

/-- Decoding of a command word, a total function (R104, R106). -/
def decode (w : Word) : Except Illegal Instr := decodeFields (fieldsOf w)

/-- The word on four little-endian byte lanes, the lane at the lowest address first (R75 (c)). -/
def bytesOf (w : Word) : List Byte :=
  [w.extractLsb' 0 8, w.extractLsb' 8 8, w.extractLsb' 16 8, w.extractLsb' 24 8]

/-- Decoding of a byte stream: one word of four little-endian bytes, and the rest (R75 (c), R100). -/
def decodeBytes : List Byte → Except Illegal (Instr × List Byte)
  | b0 :: b1 :: b2 :: b3 :: rest =>
    match decode (b3 ++ b2 ++ b1 ++ b0) with
    | .ok i => .ok (i, rest)
    | .error e => .error e
  | _ => .error .truncated

/-- The word whose bits are `w`, of which `nbits` are given and every higher one is 0. -/
def tableWord (nbits w : Nat) : Word := BitVec.ofNat 32 (w % 2 ^ nbits)

/-- The instruction the decoder reads from a table word laid out as bytes; none where it refuses. -/
def decodeTableWord (nbits w : Nat) : Option Instr :=
  match decodeBytes (bytesOf (tableWord nbits w)) with
  | .ok (i, _) => some i
  | .error _ => none

/-- The fields of a command, unused ones 0 (R102, R103, R107). -/
def fieldsOfInstr (i : Instr) : Fields :=
  match i with
  | .nop => ⟨opcodeNumber .nop, 0, 0, 0, 0, 0, 0, 0⟩
  | .crtexp rd base expP expQ pInvQ p q => ⟨opcodeNumber .crtexp, rd, base, expP, expQ, pInvQ, p, q⟩
  | .lfunc rd u => ⟨opcodeNumber .lfunc, rd, u, 0, 0, 0, 0, 0⟩
  | .keyderive p q => ⟨opcodeNumber .keyderive, 0, p, q, 0, 0, 0, 0⟩
  | .encrypt rd m => ⟨opcodeNumber .encrypt, rd, m, 0, 0, 0, 0, 0⟩
  | .decrypt rd c => ⟨opcodeNumber .decrypt, rd, c, 0, 0, 0, 0, 0⟩
  | .hadd rd c1 c2 => ⟨opcodeNumber .hadd, rd, c1, c2, 0, 0, 0, 0⟩
  | .hmul rd c1 k => ⟨opcodeNumber .hmul, rd, c1, k, 0, 0, 0, 0⟩

/-- The assembled word of a command (R101, R107). -/
def encode (i : Instr) : Word := wordOf (fieldsOfInstr i)

/-- The match value of a row of the opcode table (R104). -/
def matchValue : Opcode → Word
  | .nop => 0x00000000#32
  | .crtexp => 0x10000000#32
  | .lfunc => 0x20000000#32
  | .keyderive => 0x30000000#32
  | .encrypt => 0x40000000#32
  | .decrypt => 0x50000000#32
  | .hadd => 0x60000000#32
  | .hmul => 0x70000000#32

/-- The mask of a row of the opcode table (R104). -/
def matchMask : Opcode → Word
  | .nop => 0xFFFFFFFF#32
  | .crtexp => 0xF0000000#32
  | .lfunc | .encrypt | .decrypt => 0xF00FFFFF#32
  | .keyderive => 0xFF00FFFF#32
  | .hadd | .hmul => 0xF000FFFF#32

end Sys2Proof
end

