-- ==== Sys2Proof/Machine/State.lean ====
section
/-! DEFINITION. The state of the machine as plain data: the engine's architectural state (R30), the parameters, and
the agents around it; the reasons a step can stop; and the state after reset. -/

namespace Sys2Proof.Machine

/-- The reasons the machine stops with a fault. -/
inductive Fault where
  /-- The host takes a fault on a bus-error response (R78, U8), on a platform whose parameter says it does.
  Raised by a host access of another size than 4, at a misaligned offset, or under an asserted reset on a platform that
  answers it with a bus error. Safe: the model stops where the platform's own fault handling would go on. -/
  | hostBusError
  deriving DecidableEq, Repr

/-- The reasons the model gives no meaning. -/
inductive Refusal where
  /-- An instruction without a meaning yet, by its mnemonic. Raised by `exec` alone. Safe. -/
  | notModelled (mnemonic : String)
  /-- A meaning was called while ENG = IDLE: only BUSY has a completion step (R117). Raised by every meaning; never
  reached through `step`. Safe (log 11). -/
  | noCommandInFlight
  /-- A host access outside the aperture: not decoded by the engine, and what it reaches is the platform's (R71).
  Raised by a host turn. Safe (log 12). -/
  | outsideAperture
  /-- Parameters outside R8 or R71. Raised by `step`. Safe (D3; log 13). -/
  | parametersOutsideSpec
  deriving DecidableEq, Repr

/-- The key bank K0 to K6, in the order of R32. -/
structure KeyBank where
  lambda : Nat
  mu : Nat
  p2 : Nat
  q2 : Nat
  p2invq2 : Nat
  nInv : Nat
  n : Nat
  deriving DecidableEq, Repr

/-- The stored bits of CTRL (R38); bits [31:2] have no storage. -/
structure Ctrl where
  /-- bit 0, interrupt enable -/
  ie : Bool
  /-- bit 1, strict-reject policy -/
  strict : Bool
  deriving DecidableEq, Repr

/-- The stored bits of STATUS (R39). BUSY is ENG = BUSY and has no storage of its own (R35). -/
structure Status where
  /-- bit 1 -/
  done : Bool
  /-- bit 2 -/
  ovr : Bool
  /-- bit 8 -/
  wPt : Bool
  /-- bit 9 -/
  wCt : Bool
  /-- bit 10 -/
  wK : Bool
  deriving DecidableEq, Repr

/-- The warnings a command collects (R117: the set `warns`). -/
structure Warns where
  wPt : Bool := false
  wCt : Bool := false
  wK : Bool := false
  deriving DecidableEq, Repr

/-- The error codes of R180; the reserved numbers 0x0C to 0xFF have no constructor, so none is ever written (U11). -/
inductive ErrCode where
  | ok | illegalCmd | bitlen | key | zeroModulus | resultRange | operand | range
  | noinvNinv | noinvP2q2 | noinvMu | zeroBlind
  deriving DecidableEq, Repr

/-- The snapshot S a command takes at issue (R35, R115). -/
structure Snapshot where
  cmd : Word
  x : Vector Nat 16
  k : KeyBank
  bitlen : Word
  strict : Bool
  deriving DecidableEq, Repr

/-- The engine state ENG (R35). -/
inductive Eng where
  | idle
  | busy (S : Snapshot)
  deriving DecidableEq, Repr

/-- What an aperture offset reaches (R72). -/
inductive Target where
  | id | cap | ctrl | status | cmd | errcode | bitlen | lastcmd
  /-- word `j` of the window of X[i] (R73) -/
  | xWord (i : XReg) (j : Nat)
  /-- word `j` of the window of key register k (R74) -/
  | kWord (k : KReg) (j : Nat)
  | reserved
  deriving DecidableEq, Repr

/-- One operation of the host. `addr` is a host address, BASE + offset for the aperture (R71). -/
inductive HostOp where
  /-- a read of `size` bytes -/
  | read (addr size : Nat)
  /-- a write of `size` bytes; only a 4-byte datum can reach a register, so the datum is a word (log 23) -/
  | write (addr size : Nat) (v : Word)
  /-- the pseudo-operation `wait`: read STATUS until BUSY reads 0 (R108) -/
  | wait
  /-- wait until the interrupt input `line` is high (R84, R203) -/
  | waitIrq (line : Nat)
  deriving DecidableEq, Repr

/-- What the bus answers. A read with a bus error carries 0 (R78). -/
inductive Response where
  | read (v : Word) (busError : Bool)
  | write (busError : Bool)
  deriving DecidableEq, Repr

/-- How the bus takes an access, before it has any effect. -/
inductive Admission where
  /-- not decoded by the engine (R71) -/
  | outside
  /-- held off while reset is asserted (R200) -/
  | held
  /-- answered with a bus error (R78, R200) -/
  | busError
  /-- an aligned 4-byte access at this aperture offset (R76, R77) -/
  | accepted (off : Nat)
  deriving DecidableEq, Repr

/-- Which agent moves at a step (R82: one total order of host accesses and completion steps). -/
inductive Turn where
  | host
  | engine
  | assertReset
  | releaseReset
  deriving DecidableEq, Repr

/-- The machine. The fields up to `eng` are the architectural state of R30; the rest are the agents around it. -/
structure State where
  /-- the parameters, changed by no step -/
  cfg : Params
  /-- X0 to X15, each in [0, 2^W) (R11, R31) -/
  x : Vector Nat 16
  /-- K0 to K6, each in [0, 2^W) (R32) -/
  k : KeyBank
  ctrl : Ctrl
  status : Status
  errcode : ErrCode
  bitlen : Word
  lastcmd : Word
  eng : Eng
  /-- the reset input is asserted (R200) -/
  inReset : Bool
  /-- the host's remaining operations, next first (log 7) -/
  host : List HostOp
  /-- who moves at the coming steps, next first (log 6) -/
  turns : List Turn
  /-- the bus responses so far, newest first (log 18) -/
  responses : List Response
  /-- the answers the entropy source will give, next first (log 9) -/
  entropy : List Nat
  /-- the counter the opaque free values of Config are applied to (log 9, 10) -/
  freeIndex : Nat
  deriving DecidableEq, Repr

/-- The key bank with every register 0 (R47). -/
def KeyBank.zero : KeyBank := ⟨0, 0, 0, 0, 0, 0, 0⟩

/-- The machine right after reset: R47 for every register of the spec; the model's own fields empty (log 24). -/
def State.reset : State where
  cfg := referenceParams
  x := Vector.replicate 16 0
  k := KeyBank.zero
  ctrl := ⟨false, false⟩
  status := ⟨false, false, false, false, false⟩
  errcode := .ok
  bitlen := 0#32
  lastcmd := 0#32
  eng := .idle
  inReset := false
  host := []
  turns := []
  responses := []
  entropy := []
  freeIndex := 0

end Sys2Proof.Machine
end

