-- ==== Sys2Proof/Machine/Arith.lean ====
section
/-! DEFINITION. The arithmetic primitives of 00_scope.md R9, R12, R15 to R20, on unbounded integers. `powmod` and `inv`
are written as the loops a kernel can run; Laws/Arith.lean proves they are R16's power and R18's inverse (log 20). -/

namespace Sys2Proof

/-- W = 2·NMAX, the width of a big register (R9). -/
def Params.width (c : Params) : Nat := 2 * c.nmax

/-- WORDS = W/32, the 32-bit words of a big register (R9). -/
def Params.words (c : Params) : Nat := c.width / 32

end Sys2Proof

namespace Sys2Proof.Machine

/-- `v[hi:lo]` (R12). -/
def bits (v hi lo : Nat) : Nat := v / 2 ^ lo % 2 ^ (hi - lo + 1)

/-- Word `j` of a big register (R73, R75 (a)). -/
def wordAt (v j : Nat) : Word := BitVec.ofNat 32 (bits v (32 * j + 31) (32 * j))

/-- A big register with word `j` replaced (R73). -/
def setWordAt (v j : Nat) (w : Word) : Nat :=
  v - bits v (32 * j + 31) (32 * j) * 2 ^ (32 * j) + w.toNat * 2 ^ (32 * j)

/-- `a mod m`, the floored non-negative remainder (R15). -/
def floorMod (a : Int) (m : Nat) : Nat := (a % (m : Int)).toNat

/-- Square and multiply over the bits of the exponent, low bit first. -/
def powLoop (m : Nat) : Nat → Nat → Nat → Nat → Nat
  | 0, _, acc, _ => acc
  | fuel + 1, b, acc, e =>
    powLoop m fuel (b * b % m) (if e % 2 = 1 then acc * b % m else acc) (e / 2)

/-- `powmod(b, e, m) = (b^e) mod m` with `b^0 = 1` (R16). -/
def powmod (b e m : Nat) : Nat := powLoop m (e.log2 + 1) (b % m) (1 % m) e

/-- `gcd(a, b)` with `gcd(a, 0) = a` (R17). -/
def gcdNat (a b : Nat) : Nat := Nat.gcd a b

/-- `lcm(a, b)`, 0 when an argument is 0 (R17). -/
def lcmNat (a b : Nat) : Nat := if a = 0 ∨ b = 0 then 0 else a * b / gcdNat a b

/-- Extended Euclid: the remainders and the coefficient of the second argument; answers the greatest common divisor
and its coefficient. -/
def euclidLoop : Nat → Nat → Nat → Int → Int → Nat × Int
  | 0, r0, _, t0, _ => (r0, t0)
  | fuel + 1, r0, r1, t0, t1 =>
    if r1 = 0 then (r0, t0) else euclidLoop fuel r1 (r0 % r1) t1 (t0 - ((r0 / r1 : Nat) : Int) * t1)

/-- `inv(a, m)`: the x in [0, m) with `a·x mod m = 1`, or NONE (R18). -/
def inv (a m : Nat) : Option Nat :=
  match euclidLoop (m + 1) m (a % m) 0 1 with
  | (g, t) => if g = 1 then some (floorMod t m) else none

/-- The L-function `((u − 1)·nInv) mod 2^b` (R19, R160, R162). -/
def lFunction (u nInv b : Nat) : Nat := floorMod (((u : Int) - 1) * (nInv : Int)) (2 ^ b)

/-- `crtExp(base, expP, expQ, pInvQ, p, q)` with Garner recombination (R20). The two `powmod` are the lanes (R126). -/
def crtExp (base expP expQ pInvQ p q : Nat) : Nat :=
  let yp := powmod (base % p) expP p
  let yq := powmod (base % q) expQ q
  floorMod ((yp : Int) + (p : Int) * (pInvQ : Int) * ((yq : Int) - (yp : Int))) (p * q)

end Sys2Proof.Machine
end

