-- ==== Sys2Proof/Machine/Flags.lean ====
section
/-! DEFINITION. Every flag the spec gives: the words STATUS, CTRL and ERRCODE read as, the warning conditions of R181,
the strict policy, OVR, write-1-to-clear, and the interrupt level. -/

namespace Sys2Proof.Machine

/-- ENG = BUSY (R35). -/
def Eng.isBusy : Eng → Bool
  | .idle => false
  | .busy _ => true

/-- The number of an error code (R180). -/
def errorNumber : ErrCode → BitVec 8
  | .ok => 0x00#8
  | .illegalCmd => 0x01#8
  | .bitlen => 0x02#8
  | .key => 0x03#8
  | .zeroModulus => 0x04#8
  | .resultRange => 0x05#8
  | .operand => 0x06#8
  | .range => 0x07#8
  | .noinvNinv => 0x08#8
  | .noinvP2q2 => 0x09#8
  | .noinvMu => 0x0A#8
  | .zeroBlind => 0x0B#8

/-- STATUS as read (R39): W_K, W_CT, W_PT at bits 10, 9, 8; OVR, DONE, BUSY at bits 2, 1, 0; the rest 0. -/
def statusWord (busy : Bool) (st : Status) : Word :=
  (0#21 ++ BitVec.ofBool st.wK ++ BitVec.ofBool st.wCt ++ BitVec.ofBool st.wPt ++ 0#5 ++ BitVec.ofBool st.ovr ++
    BitVec.ofBool st.done ++ BitVec.ofBool busy : BitVec 32)

/-- CTRL as read (R38): STRICT at bit 1, IE at bit 0, the rest 0. -/
def ctrlWord (c : Ctrl) : Word := (0#30 ++ BitVec.ofBool c.strict ++ BitVec.ofBool c.ie : BitVec 32)

/-- CTRL as written: bits [1:0] (R38, R77). -/
def ctrlOfWord (v : Word) : Ctrl := ⟨v.getLsbD 0, v.getLsbD 1⟩

/-- ERRCODE as read: the code at bits [7:0], the rest 0 (R42). -/
def errcodeWord (e : ErrCode) : Word := (0#24 ++ errorNumber e : BitVec 32)

/-- A host write of STATUS: bit 1 clears DONE, bit 2 clears OVR, nothing else has an effect (R39, R77). -/
def writeOneToClear (v : Word) (st : Status) : Status :=
  { st with done := st.done && !v.getLsbD 1, ovr := st.ovr && !v.getLsbD 2 }

/-- The host wrote a busy target: OVR is set (R48). -/
def setOverrun (st : Status) : Status := { st with ovr := true }

/-- What issue clears: DONE and the three warnings, not OVR (R115). -/
def clearForIssue (st : Status) : Status := ⟨false, st.ovr, false, false, false⟩

/-- What completion writes: DONE and the three warnings, not OVR (R117). -/
def setForCompletion (w : Warns) (st : Status) : Status := ⟨true, st.ovr, w.wPt, w.wCt, w.wK⟩

/-- No warning. -/
def Warns.none : Warns := ⟨false, false, false⟩

/-- Some warning of the set (R173: `warns ≠ {}`). -/
def Warns.any (w : Warns) : Bool := w.wPt || w.wCt || w.wK

/-- ENCRYPT's warnings: W_PT when the plaintext m ≥ N (R157, R181). -/
def encryptWarns (m n : Nat) : Warns := ⟨decide (n ≤ m), false, false⟩

/-- DECRYPT's warnings: W_CT when the ciphertext c ≥ N² (R166, R181). -/
def decryptWarns (c n : Nat) : Warns := ⟨false, decide (n * n ≤ c), false⟩

/-- HADD's warnings: W_CT when either ciphertext is ≥ N² (R171, R181). -/
def haddWarns (c1 c2 n : Nat) : Warns := ⟨false, decide (n * n ≤ c1 ∨ n * n ≤ c2), false⟩

/-- HMUL's warnings: W_CT when c1 ≥ N², W_K when the constant k ≥ N (R173, R174, R181). -/
def hmulWarns (c1 k n : Nat) : Warns := ⟨false, decide (n * n ≤ c1), decide (n ≤ k)⟩

/-- The strict policy rejects: STRICT = 1 in the snapshot and some warning (R182). -/
def strictRejects (S : Snapshot) (w : Warns) : Bool := S.strict && w.any

/-- The interrupt output `irq = CTRL.IE ∧ STATUS.DONE` (R46, R186). -/
def State.irq (s : State) : Bool := s.ctrl.ie && s.status.done

/-- The level of the host's interrupt input `line`, which `irq` drives when it is IRQ_LINE (R186). -/
def State.irqAt (s : State) (line : Nat) : Bool := decide (line = s.cfg.irqLine) && s.irq

end Sys2Proof.Machine
end

