-- ==== Sys2Proof/Machine/Operands.lean ====
section
/-! DEFINITION. Operands: what a command reads (R103: X registers named by fields, key registers and BITLEN implied),
which registers it writes, and the two key checks of R183. -/

namespace Sys2Proof.Machine

/-- Reading X[i] from the snapshot (R13: `S.X[i]`). -/
abbrev Snapshot.xReg (S : Snapshot) (i : XReg) : Nat := S.x[i]

/-- BITLEN from the snapshot, as the number b of the pseudocode. -/
abbrev Snapshot.b (S : Snapshot) : Nat := S.bitlen.toNat

/-- Reading key register k (R32). -/
def KeyBank.get (kb : KeyBank) (k : KReg) : Nat :=
  match k with
  | 0 => kb.lambda
  | 1 => kb.mu
  | 2 => kb.p2
  | 3 => kb.q2
  | 4 => kb.p2invq2
  | 5 => kb.nInv
  | 6 => kb.n

/-- Writing key register k (R32, R74). -/
def KeyBank.set (kb : KeyBank) (k : KReg) (v : Nat) : KeyBank :=
  match k with
  | 0 => { kb with lambda := v }
  | 1 => { kb with mu := v }
  | 2 => { kb with p2 := v }
  | 3 => { kb with q2 := v }
  | 4 => { kb with p2invq2 := v }
  | 5 => { kb with nInv := v }
  | 6 => { kb with n := v }

/-- BITLEN_OK (R183). -/
abbrev BitlenOk (c : Params) (b : Nat) : Prop := 2 ≤ b ∧ b ≤ c.nmax

/-- KEY_OK (R183), of a modulus n. -/
abbrev KeyOk (n b : Nat) : Prop := 1 ≤ n ∧ n < 2 ^ b

/-- The X register a command writes, if any (R31, R103). -/
def destX : Instr → Option XReg
  | .nop => none
  | .crtexp rd _ _ _ _ _ _ => some rd
  | .lfunc rd _ => some rd
  | .keyderive _ _ => none
  | .encrypt rd _ => some rd
  | .decrypt rd _ => some rd
  | .hadd rd _ _ => some rd
  | .hmul rd _ _ => some rd

/-- Whether a command writes the key bank (R32: KEYDERIVE alone). -/
def destKeys : Instr → Bool
  | .nop => false
  | .crtexp _ _ _ _ _ _ _ => false
  | .lfunc _ _ => false
  | .keyderive _ _ => true
  | .encrypt _ _ => false
  | .decrypt _ _ => false
  | .hadd _ _ _ => false
  | .hmul _ _ _ => false

/-- Whether an aperture word belongs to a destination register of a command (R49). Words j ≥ WORDS of a window belong
to no register (R73). -/
def isDestinationWord (c : Params) (i : Instr) (t : Target) : Bool :=
  match t with
  | .xWord r j => destX i == some r && decide (j < c.words)
  | .kWord _ j => destKeys i && decide (j < c.words)
  | .id => false
  | .cap => false
  | .ctrl => false
  | .status => false
  | .cmd => false
  | .errcode => false
  | .bitlen => false
  | .lastcmd => false
  | .reserved => false

end Sys2Proof.Machine
end

