-- ==== Sys2Proof/Machine/Ops.lean ====
section
/-! DEFINITION. The operations every meaning is written over: the snapshot and issue, the completion of a command
(success, and the error completion that is the engine's only trap), the entropy draw, and reset. -/

namespace Sys2Proof.Machine

/-- The snapshot of the live registers for the command word `v` (R35, R115). -/
def State.snapshot (s : State) (v : Word) : Snapshot where
  cmd := v
  x := s.x
  k := s.k
  bitlen := s.bitlen
  strict := s.ctrl.strict

/-- Issue of the command word `v` (R115). OVR is not changed, and issue never fails. -/
def State.issue (s : State) (v : Word) : State :=
  { s with
    lastcmd := v
    errcode := .ok
    status := clearForIssue s.status
    eng := .busy (s.snapshot v) }

/-- What every completion does: ERRCODE, the warnings and DONE are written, ENG becomes IDLE and the snapshot is
discarded (R117). -/
def State.finish (s : State) (e : ErrCode) (w : Warns) : State :=
  { s with errcode := e, status := setForCompletion w s.status, eng := .idle }

/-- THE ENGINE'S ONE TRAP: the error completion (R117, R185). The command word stands in LASTCMD since issue, the code
goes to ERRCODE, no X or K register is written, and control goes nowhere: the engine waits for the next issue. There
is no trap return (R187): the host clears DONE (`writeOneToClear`) and issues the next command (`State.issue`). -/
def State.errorCompletion (s : State) (e : ErrCode) (w : Warns) : State := s.finish e w

/-- Success without a destination (R119). -/
def State.completeNone (s : State) : State := s.finish .ok Warns.none

/-- Success with result `v` in X[rd] (R117); `v` is in [0, 2^W) by each command's checks (R123). -/
def State.completeX (s : State) (rd : XReg) (v : Nat) (w : Warns) : State :=
  { s.finish .ok w with x := s.x.set rd v }

/-- Success with the whole key bank as the destination (R141). -/
def State.completeKeys (s : State) (kb : KeyBank) : State :=
  { s.finish .ok Warns.none with k := kb }

/-- Run a command on the in-flight snapshot. ENG = IDLE has no completion step (R117): refused by name, and never
reached through `step` (log 11). -/
def State.inFlight (s : State) (run : Snapshot → State) : Host.Outcome State Fault Refusal :=
  match s.eng with
  | .idle => .refused .noCommandInFlight
  | .busy S => .next (run S)

/-- The value the entropy source answers, before it is cut to the draw's bits: the head of the queue, or beyond it an
opaque free value (R190; log 9). -/
def State.entropyAnswer (s : State) : Nat :=
  match s.entropy with
  | v :: _ => v
  | [] => Config.entropyAnswer s.freeIndex

/-- `draw(b)`: the source's answer, an integer in [0, 2^b) (R13, R152). -/
def State.draw (s : State) (b : Nat) : Nat := s.entropyAnswer % 2 ^ b

/-- The draw is taken: the source goes on to its next answer (R152). -/
def State.takeDraw (s : State) : State :=
  { s with entropy := s.entropy.tail, freeIndex := s.freeIndex + 1 }

/-- The reset input is asserted (R200). Until its release the engine takes no step (log 15). -/
def State.assertReset (s : State) : State := { s with inReset := true }

/-- Every piece of the engine's state at the value of R47 (R200). A command in flight is abandoned: nothing of it is
written and DONE is not set (R201). The agents around the engine and the parameters are not reset. -/
def State.resetEngine (s : State) : State :=
  { s with
    x := Vector.replicate 16 0
    k := KeyBank.zero
    ctrl := ⟨false, false⟩
    status := ⟨false, false, false, false, false⟩
    errcode := .ok
    bitlen := 0#32
    lastcmd := 0#32
    eng := .idle }

/-- The reset input is released: the reset values, and host accesses are accepted at once (R200). Releasing an input
that is not asserted does nothing. -/
def State.releaseReset (s : State) : State :=
  if s.inReset then { s.resetEngine with inReset := false } else s

end Sys2Proof.Machine
end

