-- ==== Sys2Proof/Machine/Control.lean ====
section
/-! DEFINITION. The command without arithmetic: NOP. -/

namespace Sys2Proof.Machine

/-- NOP: completes without a destination (R119). -/
def execNop (s : State) : Host.Outcome State Fault Refusal :=
  s.inFlight fun _ => s.completeNone

end Sys2Proof.Machine
end

