-- ==== Sys2Proof/Machine/Crt.lean ====
section
/-! DEFINITION. The CRT exponentiation command, CRTEXP. -/

namespace Sys2Proof.Machine

/-- CRTEXP (R125): no key register, BITLEN or STRICT is read; ZERO_MODULUS is checked first. -/
def execCrtexp (rd base expP expQ pInvQ p q : XReg) (s : State) : Host.Outcome State Fault Refusal :=
  s.inFlight fun S =>
    if S.xReg p = 0 ∨ S.xReg q = 0 then s.errorCompletion .zeroModulus Warns.none
    else if 2 ^ s.cfg.width < S.xReg p * S.xReg q then s.errorCompletion .resultRange Warns.none
    else
      s.completeX rd
        (crtExp (S.xReg base) (S.xReg expP) (S.xReg expQ) (S.xReg pInvQ) (S.xReg p) (S.xReg q))
        Warns.none

end Sys2Proof.Machine
end

