-- ==== Sys2Proof/Machine/Decrypt.lean ====
section
/-! DEFINITION. The L-function command LFUNC and Paillier decryption under the resident private key, DECRYPT. -/

namespace Sys2Proof.Machine

/-- LFUNC (R163): BITLEN is the only check; K.N and STRICT are not read. -/
def execLfunc (rd u : XReg) (s : State) : Host.Outcome State Fault Refusal :=
  s.inFlight fun S =>
    if ¬ BitlenOk s.cfg S.b then s.errorCompletion .bitlen Warns.none
    else s.completeX rd (lFunction (S.xReg u) S.k.nInv S.b) Warns.none

/-- The plaintext `L(crtExp(c, λ, λ, p2invq2, p2, q2))·mu mod n` (R164, R165). -/
def plain (c : Nat) (kb : KeyBank) (b : Nat) : Nat :=
  lFunction (crtExp c kb.lambda kb.lambda kb.p2invq2 kb.p2 kb.q2) kb.nInv b * kb.mu % kb.n

/-- DECRYPT (R165): BITLEN, KEY, ZERO_MODULUS, the strict policy, then the plaintext. -/
def execDecrypt (rd c : XReg) (s : State) : Host.Outcome State Fault Refusal :=
  s.inFlight fun S =>
    if ¬ BitlenOk s.cfg S.b then s.errorCompletion .bitlen Warns.none
    else if ¬ KeyOk S.k.n S.b then s.errorCompletion .key Warns.none
    else if S.k.p2 = 0 ∨ S.k.q2 = 0 then s.errorCompletion .zeroModulus Warns.none
    else if strictRejects S (decryptWarns (S.xReg c) S.k.n) then
      s.errorCompletion .range (decryptWarns (S.xReg c) S.k.n)
    else s.completeX rd (plain (S.xReg c) S.k S.b) (decryptWarns (S.xReg c) S.k.n)

end Sys2Proof.Machine
end

