-- ==== Sys2Proof/Machine/Encrypt.lean ====
section
/-! DEFINITION. Paillier encryption under the resident public key, ENCRYPT. -/

namespace Sys2Proof.Machine

/-- The ciphertext `(powmod(r, n, n²) · (1 + m·n)) mod n²`, for every m (R150, R151). -/
def cipher (r m n : Nat) : Nat := powmod r n (n * n) * (1 + m * n) % (n * n)

/-- ENCRYPT (R155): BITLEN, KEY, the strict policy, and only then the draw (R152); r = 0 fails with ZERO_BLIND, the
draw taken and W_PT kept (R153, R157). -/
def execEncrypt (rd m : XReg) (s : State) : Host.Outcome State Fault Refusal :=
  s.inFlight fun S =>
    if ¬ BitlenOk s.cfg S.b then s.errorCompletion .bitlen Warns.none
    else if ¬ KeyOk S.k.n S.b then s.errorCompletion .key Warns.none
    else if strictRejects S (encryptWarns (S.xReg m) S.k.n) then
      s.errorCompletion .range (encryptWarns (S.xReg m) S.k.n)
    else if s.draw S.b % S.k.n = 0 then
      s.takeDraw.errorCompletion .zeroBlind (encryptWarns (S.xReg m) S.k.n)
    else
      s.takeDraw.completeX rd (cipher (s.draw S.b % S.k.n) (S.xReg m) S.k.n) (encryptWarns (S.xReg m) S.k.n)

end Sys2Proof.Machine
end

