-- ==== Sys2Proof/Machine/Homomorphic.lean ====
section
/-! DEFINITION. The homomorphic operators HADD and HMUL: pure functions of the public key and X (R170). -/

namespace Sys2Proof.Machine

/-- HADD (R171): `c1·c2 mod N²`. -/
def execHadd (rd c1 c2 : XReg) (s : State) : Host.Outcome State Fault Refusal :=
  s.inFlight fun S =>
    if ¬ BitlenOk s.cfg S.b then s.errorCompletion .bitlen Warns.none
    else if ¬ KeyOk S.k.n S.b then s.errorCompletion .key Warns.none
    else if strictRejects S (haddWarns (S.xReg c1) (S.xReg c2) S.k.n) then
      s.errorCompletion .range (haddWarns (S.xReg c1) (S.xReg c2) S.k.n)
    else
      s.completeX rd (S.xReg c1 * S.xReg c2 % (S.k.n * S.k.n)) (haddWarns (S.xReg c1) (S.xReg c2) S.k.n)

/-- HMUL (R173): `powmod(c1, k, N²)`, the constant used in full. -/
def execHmul (rd c1 k : XReg) (s : State) : Host.Outcome State Fault Refusal :=
  s.inFlight fun S =>
    if ¬ BitlenOk s.cfg S.b then s.errorCompletion .bitlen Warns.none
    else if ¬ KeyOk S.k.n S.b then s.errorCompletion .key Warns.none
    else if strictRejects S (hmulWarns (S.xReg c1) (S.xReg k) S.k.n) then
      s.errorCompletion .range (hmulWarns (S.xReg c1) (S.xReg k) S.k.n)
    else
      s.completeX rd (powmod (S.xReg c1) (S.xReg k) (S.k.n * S.k.n)) (hmulWarns (S.xReg c1) (S.xReg k) S.k.n)

end Sys2Proof.Machine
end

