-- ==== Sys2Proof/Machine/KeyDerive.lean ====
section
/-! DEFINITION. The derivation of the key bank from a prime pair, KEYDERIVE. -/

namespace Sys2Proof.Machine

/-- `t = crtExp(g, lambda, lambda, p2invq2, p2, q2)` with `g = 1 + n`, on the prime-squared moduli (R139, R141 step 6). -/
def keyT (p q p2invq2 : Nat) : Nat :=
  crtExp (1 + p * q) (lcmNat (p - 1) (q - 1)) (lcmNat (p - 1) (q - 1)) p2invq2 (p * p) (q * q)

/-- Steps 3 to 6 of R141 for `n = p·q`, the three inverses in the source's order (R138): the key bank, or the error. `nInv` is
step 3's inverse in [0, 2^b) (R18); R123's remark that every field is below `n²` yields to this algorithm by the rules of
90_conflicts.md (DEDUCED; log 29). -/
def deriveKey (p q b : Nat) : Except ErrCode KeyBank :=
  match inv (p * q) (2 ^ b) with
  | none => .error .noinvNinv
  | some nInv =>
    match inv (p * p) (q * q) with
    | none => .error .noinvP2q2
    | some p2invq2 =>
      match inv (lFunction (keyT p q p2invq2) nInv b) (p * q) with
      | none => .error .noinvMu
      | some mu => .ok ⟨lcmNat (p - 1) (q - 1), mu, p * p, q * q, p2invq2, nInv, p * q⟩

/-- KEYDERIVE (R141): the checks BITLEN, OPERAND, KEY, then the derivation; all seven key registers or none. -/
def execKeyderive (p q : XReg) (s : State) : Host.Outcome State Fault Refusal :=
  s.inFlight fun S =>
    if ¬ BitlenOk s.cfg S.b then s.errorCompletion .bitlen Warns.none
    else if S.xReg p < 2 ∨ S.xReg q < 2 then s.errorCompletion .operand Warns.none
    else if 2 ^ S.b ≤ S.xReg p * S.xReg q then s.errorCompletion .key Warns.none
    else
      match deriveKey (S.xReg p) (S.xReg q) S.b with
      | .error e => s.errorCompletion e Warns.none
      | .ok kb => s.completeKeys kb

end Sys2Proof.Machine
end

