-- ==== Sys2Proof/Machine/Dispatch.lean ====
section
/-! DEFINITION. One arm per command: the completion of command `i` on the snapshot in flight (R117). -/

namespace Sys2Proof.Machine

def exec (i : Instr) (s : State) : Host.Outcome State Fault Refusal :=
  match i with
  | .nop => Sys2Proof.Machine.execNop s
  | .crtexp rd base expP expQ pInvQ p q => Sys2Proof.Machine.execCrtexp rd base expP expQ pInvQ p q s
  | .lfunc rd u => Sys2Proof.Machine.execLfunc rd u s
  | .keyderive p q => Sys2Proof.Machine.execKeyderive p q s
  | .encrypt rd m => Sys2Proof.Machine.execEncrypt rd m s
  | .decrypt rd c => Sys2Proof.Machine.execDecrypt rd c s
  | .hadd rd c1 c2 => Sys2Proof.Machine.execHadd rd c1 c2 s
  | .hmul rd c1 k => Sys2Proof.Machine.execHmul rd c1 k s

end Sys2Proof.Machine
end

