-- ==== Sys2Proof/Machine/Engine.lean ====
section
/-! DEFINITION. The engine's turn: the completion step. -/

namespace Sys2Proof.Machine

/-- The engine's turn. While BUSY it has exactly one step, the completion of the command word in its snapshot; an
illegal word completes with ILLEGAL_CMD (R105, R117). In IDLE, and while reset is asserted, it has none (R196, R201). -/
def engineStep (s : State) : Host.Outcome State Fault Refusal :=
  if s.inReset then .next s
  else
    match s.eng with
    | .idle => .next s
    | .busy S =>
      match decode S.cmd with
      | .ok i => exec i s
      | .error _ => .next (s.errorCompletion .illegalCmd Warns.none)

end Sys2Proof.Machine
end

