-- ==== Sys2Proof/Machine/Aperture.lean ====
section
/-! DEFINITION. The register aperture: the address map, and the host's two accesses to it (R70 to R81). -/

namespace Sys2Proof.Machine

/-- The aperture's size in bytes (R71). -/
def apertureSize : Nat := 0x40000

/-- ID, hardwired (R36). -/
def idValue : Word := 0x50410001#32

/-- The address map of R72, for a 4-byte-aligned offset below `apertureSize`. -/
def targetOf (off : Nat) : Target :=
  if off = 0x00 then .id
  else if off = 0x04 then .cap
  else if off = 0x08 then .ctrl
  else if off = 0x0C then .status
  else if off = 0x10 then .cmd
  else if off = 0x14 then .errcode
  else if off = 0x18 then .bitlen
  else if off = 0x1C then .lastcmd
  else if off < 0x10000 then .reserved
  else if off < 0x20000 then .xWord (Fin.ofNat 16 (off / 0x1000 - 0x10)) (off % 0x1000 / 4)
  else if off < 0x27000 then .kWord (Fin.ofNat 7 (off / 0x1000 - 0x20)) (off % 0x1000 / 4)
  else .reserved

/-- Word `j` of a big register as a window reads it: words j ≥ WORDS read 0 (R73, R74). -/
def windowWord (c : Params) (v j : Nat) : Word := if j < c.words then wordAt v j else 0#32

/-- The defined value of a target (R36 to R43, R73, R74, R76). -/
def readTarget (s : State) (t : Target) : Word :=
  match t with
  | .id => idValue
  | .cap => BitVec.ofNat 32 s.cfg.nmax
  | .ctrl => ctrlWord s.ctrl
  | .status => statusWord s.eng.isBusy s.status
  | .cmd => 0#32
  | .errcode => errcodeWord s.errcode
  | .bitlen => s.bitlen
  | .lastcmd => s.lastcmd
  | .xWord i j => windowWord s.cfg s.x[i] j
  | .kWord k j => windowWord s.cfg (s.k.get k) j
  | .reserved => 0#32

/-- Whether a read of `t` returns an unspecified value: `t` is a word of a destination register of the command in
flight; an illegal word has no destination (R49). -/
def readIsUnspecified (s : State) (t : Target) : Bool :=
  match s.eng with
  | .idle => false
  | .busy S =>
    match decode S.cmd with
    | .ok i => isDestinationWord s.cfg i t
    | .error _ => false

/-- `MemRead(BASE + off, 4)` (R76): the value, with no side effect on the engine; an unspecified value is a fresh free
value, and only the model's own counter moves (R49; log 10). -/
def memRead (s : State) (off : Nat) : State × Word :=
  if readIsUnspecified s (targetOf off) then
    ({ s with freeIndex := s.freeIndex + 1 }, Config.unspecifiedRead s.freeIndex)
  else (s, readTarget s (targetOf off))

/-- A write that acts only while IDLE: while BUSY it is rejected, and its only effect is OVR (R48, R80). -/
def whenIdle (s t : State) : State :=
  match s.eng with
  | .idle => t
  | .busy _ => { s with status := setOverrun s.status }

/-- A write to word `j` of a window, `t` being the state with the word replaced. While BUSY a write to any word of a window is
rejected and sets OVR (R39, R48, R205). While IDLE a word of the register, j < WORDS, is replaced, and a word j ≥ WORDS
ignores the write (R73, R74). That R73's RAZ/WI does not take OVR from R48's "any word" is log 14. -/
def whenRegisterWord (s : State) (j : Nat) (t : State) : State := whenIdle s (if j < s.cfg.words then t else s)

/-- `MemWrite(BASE + off, 4, v)` (R77). -/
def memWrite (s : State) (off : Nat) (v : Word) : State :=
  match targetOf off with
  | .id => s
  | .cap => s
  | .ctrl => { s with ctrl := ctrlOfWord v }
  | .status => { s with status := writeOneToClear v s.status }
  | .cmd => whenIdle s (s.issue v)
  | .errcode => s
  | .bitlen => whenIdle s { s with bitlen := v }
  | .lastcmd => s
  | .xWord i j => whenRegisterWord s j { s with x := s.x.set i (setWordAt s.x[i] j v) }
  | .kWord k j => whenRegisterWord s j { s with k := s.k.set k (setWordAt (s.k.get k) j v) }
  | .reserved => s

/-- How an access of `size` bytes at host address `addr` is taken: outside the aperture (R71); while reset is asserted
held off or answered with a bus error, as the platform does (R200); of another size than 4 or misaligned, a bus error
(R78); else accepted. -/
def admission (s : State) (addr size : Nat) : Admission :=
  if addr < s.cfg.base ∨ s.cfg.base + apertureSize ≤ addr then .outside
  else if s.inReset then (if s.cfg.resetAccessBusError then .busError else .held)
  else if size ≠ 4 ∨ (addr - s.cfg.base) % 4 ≠ 0 then .busError
  else .accepted (addr - s.cfg.base)

end Sys2Proof.Machine
end

