-- ==== Sys2Proof/Machine/HostAgent.lean ====
section
/-! DEFINITION. The host's turn: its next operation, carried out through the aperture one access at a time (R82). -/

namespace Sys2Proof.Machine

/-- The host has received a bus response. -/
def State.respond (s : State) (r : Response) : State := { s with responses := r :: s.responses }

/-- The host's operation is done; `rest` remain. -/
def State.hostRest (s : State) (rest : List HostOp) : State := { s with host := rest }

/-- A bus-error response: the engine changes nothing; the host takes a fault, or the response is ignored, as the
platform's parameter says (R78, U8; log 4). -/
def State.busError (s : State) (r : Response) : Host.Outcome State Fault Refusal :=
  if s.cfg.busErrorFaultsHost then .fault .hostBusError else .next (s.respond r)

/-- A host read, after which the host goes on by the value it received. Held off, the read stays the next operation.
With a bus error the value received is 0 (R78). -/
def hostReadThen (s : State) (addr size : Nat) (goesOn : Word → List HostOp) : Host.Outcome State Fault Refusal :=
  match admission s addr size with
  | .outside => .refused .outsideAperture
  | .held => .next s
  | .busError => (s.hostRest (goesOn 0#32)).busError (.read 0#32 true)
  | .accepted off =>
    .next (((memRead s off).1.respond (.read (memRead s off).2 false)).hostRest (goesOn (memRead s off).2))

/-- A host read whose value nothing depends on. -/
def hostRead (s : State) (addr size : Nat) (rest : List HostOp) : Host.Outcome State Fault Refusal :=
  hostReadThen s addr size fun _ => rest

/-- A host write. Held off, it stays the next operation. -/
def hostWrite (s : State) (addr size : Nat) (v : Word) (rest : List HostOp) : Host.Outcome State Fault Refusal :=
  match admission s addr size with
  | .outside => .refused .outsideAperture
  | .held => .next s
  | .busError => (s.hostRest rest).busError (.write true)
  | .accepted off => .next (((memWrite s off v).respond (.write false)).hostRest rest)

/-- The operations that remain after a poll of `wait` that received `v`: the loop goes on while `v[0] = 1` (R108). It
tests the value received, not the register, so a poll answered with a bus error that the platform ignores receives 0
(R78) and ends the loop, a command in flight or not. R84, R197 and R200 do not speak of that case (DEDUCED; log 28). -/
def afterPoll (v : Word) (rest : List HostOp) : List HostOp :=
  if v.getLsbD 0 then .wait :: rest else rest

/-- The host's turn: its next operation, or nothing when it has none (log 7). A poll of `wait` is a read of STATUS. -/
def hostStep (s : State) : Host.Outcome State Fault Refusal :=
  match s.host with
  | [] => .next s
  | .read addr size :: rest => hostRead s addr size rest
  | .write addr size v :: rest => hostWrite s addr size v rest
  | .wait :: rest => hostReadThen s (s.cfg.base + 0x0C) 4 fun v => afterPoll v rest
  | .waitIrq line :: rest => .next (if s.irqAt line then s.hostRest rest else s)

end Sys2Proof.Machine
end

