-- ==== Sys2Proof/Machine/Scheduler.lean ====
section
/-! DEFINITION. Which agent moves next (R82, R118): the list `State.turns` says; when it is spent, the engine moves
while it is BUSY and the host otherwise (weak fairness; log 6). -/

namespace Sys2Proof.Machine

/-- Whose turn it is. -/
def State.nextTurn (s : State) : Turn :=
  match s.turns with
  | t :: _ => t
  | [] => if s.eng.isBusy && !s.inReset then .engine else .host

/-- The turn is used. -/
def State.popTurn (s : State) : State := { s with turns := s.turns.tail }

end Sys2Proof.Machine
end

