-- ==== Sys2Proof/Machine/Step.lean ====
section
/-! DEFINITION. One step of the machine: the next turn of the total order of host accesses and completion steps (R82). -/

namespace Sys2Proof.Machine

/-- One step: a host operation, the engine's completion, or an edge of the reset input, as the next turn says. -/
def step (s : State) : Host.Outcome State Fault Refusal :=
  if s.cfg.wf then
    match s.nextTurn with
    | .host => hostStep s.popTurn
    | .engine => engineStep s.popTurn
    | .assertReset => .next s.popTurn.assertReset
    | .releaseReset => .next s.popTurn.releaseReset
  else .refused .parametersOutsideSpec

/-- `s` with the table word put where the next step takes its command: an accepted issue (R115), reset released, and
the engine's turn next, so that the very next step completes that word (log 8). -/
def State.withFetchWord (s : State) (nbits w : Nat) : State :=
  { s.issue (tableWord nbits w) with inReset := false, turns := .engine :: s.turns }

end Sys2Proof.Machine
end

