-- ==== Sys2Proof/Machine/Assembler.lean ====
section
/-! DEFINITION. The assembler syntax of R107: a command line to a command, and back. Tokens are separated by spaces and
commas (log 26). -/

namespace Sys2Proof.Machine

/-- The mnemonic of R107. -/
def mnemonicOf : Opcode → String
  | .nop => "nop"
  | .crtexp => "crtexp"
  | .lfunc => "lfunc"
  | .keyderive => "keyderive"
  | .encrypt => "encrypt"
  | .decrypt => "decrypt"
  | .hadd => "hadd"
  | .hmul => "hmul"

/-- The register names x0 to x15 (R31, R107). -/
def registerName (r : XReg) : String := "x" ++ toString r.val

/-- The operands of a command in the order of the source's contracts (R107). -/
def operandsOf : Instr → List XReg
  | .nop => []
  | .crtexp rd base expP expQ pInvQ p q => [rd, base, expP, expQ, pInvQ, p, q]
  | .lfunc rd u => [rd, u]
  | .keyderive p q => [p, q]
  | .encrypt rd m => [rd, m]
  | .decrypt rd c => [rd, c]
  | .hadd rd c1 c2 => [rd, c1, c2]
  | .hmul rd c1 k => [rd, c1, k]

/-- A command as one line of R107. -/
def lineOf (i : Instr) : String :=
  match operandsOf i with
  | [] => mnemonicOf i.opcode
  | r :: rs => rs.foldl (fun line q => line ++ ", " ++ registerName q) (mnemonicOf i.opcode ++ " " ++ registerName r)

/-- The lower-case tokens of a line. -/
def tokensOf : List Char → List Char → List (List Char)
  | [], cur => if cur.isEmpty then [] else [cur.reverse]
  | c :: cs, cur =>
    if c = ' ' ∨ c = ',' then (if cur.isEmpty then tokensOf cs [] else cur.reverse :: tokensOf cs [])
    else tokensOf cs (c.toLower :: cur)

/-- The register a token names. -/
def registerOf (t : List Char) : Option XReg :=
  (List.finRange 16).find? fun r => (registerName r).toList == t

/-- The opcode a token names. -/
def mnemonicOpcode (t : List Char) : Option Opcode :=
  [Opcode.nop, .crtexp, .lfunc, .keyderive, .encrypt, .decrypt, .hadd, .hmul].find? fun o => (mnemonicOf o).toList == t

/-- A command from its opcode and operand list; none where the number of operands is wrong. -/
def commandOf : Opcode → List XReg → Option Instr
  | .nop, [] => some .nop
  | .crtexp, [rd, base, expP, expQ, pInvQ, p, q] => some (.crtexp rd base expP expQ pInvQ p q)
  | .lfunc, [rd, u] => some (.lfunc rd u)
  | .keyderive, [p, q] => some (.keyderive p q)
  | .encrypt, [rd, m] => some (.encrypt rd m)
  | .decrypt, [rd, c] => some (.decrypt rd c)
  | .hadd, [rd, c1, c2] => some (.hadd rd c1 c2)
  | .hmul, [rd, c1, k] => some (.hmul rd c1 k)
  | _, _ => none

/-- A line of R107 read as a command; mnemonics are case-insensitive. -/
def commandOfLine (line : String) : Option Instr :=
  match tokensOf line.toList [] with
  | [] => none
  | m :: rs =>
    match mnemonicOpcode m, rs.mapM registerOf with
    | some o, some regs => commandOf o regs
    | _, _ => none

/-- The word a line assembles to (R107). -/
def assemble (line : String) : Option Word := (commandOfLine line).map encode

end Sys2Proof.Machine
end

