-- ==== Sys2Proof/Machine/HostOps.lean ====
section
/-! DEFINITION. The host's pseudo-operations (R108) and the key load orders (R88, R89), each as the list of host
operations it expands to. -/

namespace Sys2Proof.Machine

/-- `wr OFF, V` (R108). -/
def wr (c : Params) (off : Nat) (v : Word) : HostOp := .write (c.base + off) 4 v

/-- `rd OFF` (R108). -/
def rd (c : Params) (off : Nat) : HostOp := .read (c.base + off) 4

/-- The offset of word `j` of the window of X[i] (R73). -/
def xOffset (i : XReg) (j : Nat) : Nat := 0x10000 + 0x1000 * i.val + 4 * j

/-- The offset of word `j` of the window of key register k (R74). -/
def kOffset (k : KReg) (j : Nat) : Nat := 0x20000 + 0x1000 * k.val + 4 * j

/-- `ldx xi, V`: all WORDS words, low word first (R108). -/
def ldx (c : Params) (i : XReg) (v : Nat) : List HostOp :=
  (List.range c.words).map fun j => wr c (xOffset i j) (wordAt v j)

/-- `ldk Kk, V` (R108). -/
def ldk (c : Params) (k : KReg) (v : Nat) : List HostOp :=
  (List.range c.words).map fun j => wr c (kOffset k j) (wordAt v j)

/-- The reads of `rdx xi`, low word first (R108). -/
def rdx (c : Params) (i : XReg) : List HostOp :=
  (List.range c.words).map fun j => rd c (xOffset i j)

/-- The reads of a key register, low word first, as `rdx`. -/
def rdk (c : Params) (k : KReg) : List HostOp :=
  (List.range c.words).map fun j => rd c (kOffset k j)

/-- The value `rdx` forms from the words it read, low word first: the sum of word j · 2^(32j) (R108). -/
def valueOfWords : List Word → Nat
  | [] => 0
  | w :: ws => w.toNat + 2 ^ 32 * valueOfWords ws

/-- `issue CMDTEXT := wr 0x010, assemble(CMDTEXT)` (R108); none where the text is no line of R107. -/
def issueLine (c : Params) (text : String) : Option HostOp := (assemble text).map (wr c 0x10)

/-- `issue` of a command already read from its text. -/
def issueOp (c : Params) (i : Instr) : HostOp := wr c 0x10 (encode i)

/-- Loading a serialized public key: BITLEN, then N (R88). -/
def loadPublicKey (c : Params) (bitLength : Word) (n : Nat) : List HostOp :=
  wr c 0x18 bitLength :: ldk c 6 n

/-- Loading a serialized private key: BITLEN, then K0 to K6 in order (R89). -/
def loadPrivateKey (c : Params) (bitLength : Word) (kb : KeyBank) : List HostOp :=
  wr c 0x18 bitLength :: (List.finRange 7).flatMap fun k => ldk c k (kb.get k)

/-- Reading a private key back for serialization: BITLEN, then K0 to K6 in the same order (R89). -/
def storePrivateKey (c : Params) : List HostOp :=
  rd c 0x18 :: (List.finRange 7).flatMap fun k => rdk c k

/-- The boot probe: read ID, then CAP (R203 step 1). -/
def bootProbe (c : Params) : List HostOp := [rd c 0x00, rd c 0x04]

end Sys2Proof.Machine
end

