-- ==== Sys2Proof/Safety.lean ====
section
/-! DEFINITION. What counts as a safe run, in the terms claims use: the machine invariant, and a step that goes on. -/

namespace Sys2Proof.Machine

/-- Every big register holds a value of W bits (R11, R31, R32). -/
def State.RegistersInRange (s : State) : Prop :=
  (∀ i : XReg, s.x[i] < 2 ^ s.cfg.width) ∧ (∀ k : KReg, s.k.get k < 2 ^ s.cfg.width)

/-- While BUSY the snapshot is the live registers (R48, R116) and the command word is LASTCMD (R43), and nothing of an
earlier command shows: DONE, ERRCODE and the warnings are clear (R39, R42, R115). -/
def State.BusyConsistent (s : State) : Prop :=
  ∀ S, s.eng = .busy S →
    S.x = s.x ∧ S.k = s.k ∧ S.bitlen = s.bitlen ∧ S.cmd = s.lastcmd ∧ s.errcode = .ok ∧ s.status.done = false ∧
      s.status.wPt = false ∧ s.status.wCt = false ∧ s.status.wK = false

/-- The warning flags stand only beside an outcome that can set them: OK, RANGE or ZERO_BLIND, and RANGE always with
one (R181, R182, R184). -/
def State.WarningsExplained (s : State) : Prop :=
  (s.errcode = .range → (s.status.wPt || s.status.wCt || s.status.wK) = true) ∧
    (s.errcode ≠ .ok → s.errcode ≠ .range → s.errcode ≠ .zeroBlind →
      s.status.wPt = false ∧ s.status.wCt = false ∧ s.status.wK = false)

/-- The machine invariant. -/
structure State.Inv (s : State) : Prop where
  parameters : s.cfg.wf = true
  inRange : s.RegistersInRange
  busy : s.BusyConsistent
  warnings : s.WarningsExplained

/-- A host operation that no platform turns into a fault or a refusal: an access inside the aperture (R71), of 4 bytes at
an aligned offset (R78); the two waits. -/
def HostOp.Safe (c : Params) (op : HostOp) : Prop :=
  match op with
  | .read addr size => c.base ≤ addr ∧ addr < c.base + apertureSize ∧ size = 4 ∧ (addr - c.base) % 4 = 0
  | .write addr size _ => c.base ≤ addr ∧ addr < c.base + apertureSize ∧ size = 4 ∧ (addr - c.base) % 4 = 0
  | .wait => True
  | .waitIrq _ => True

/-- A step that neither faults nor is refused. -/
def State.StepsOn (s : State) : Prop := ∃ t, step s = .next t

end Sys2Proof.Machine
end

