-- ==== Sys2Proof/Certificates/Slice0/Obligations.lean ====
section
/-! DEFINITION. The statements for the provers. Each says in its docstring which rule of spec/ it formalises. -/

open Sys2Proof Sys2Proof.Machine

/-! ### The shapes the statements share -/

/-- A completion that writes no register: the code, the warnings, DONE, ENG idle; OVR and the rest as they were. -/
def Sys2Proof.Expected.ended (s : State) (e : ErrCode) (wPt wCt wK : Bool) : State :=
  { s with errcode := e, status := ⟨true, s.status.ovr, wPt, wCt, wK⟩, eng := .idle }

/-- A successful completion that writes `v` to X[rd]. -/
def Sys2Proof.Expected.wrote (s : State) (rd : XReg) (v : Nat) (wPt wCt wK : Bool) : State :=
  { s with x := s.x.set rd v, errcode := .ok, status := ⟨true, s.status.ovr, wPt, wCt, wK⟩, eng := .idle }

/-- The entropy source has answered one draw. -/
def Sys2Proof.Expected.drew (s : State) : State :=
  { s with entropy := s.entropy.tail, freeIndex := s.freeIndex + 1 }

/-- Every architectural register at the value of the reset table (R47). -/
def Sys2Proof.Expected.ResetTable (s : State) : Prop :=
  (∀ i : XReg, s.x[i] = 0) ∧ (∀ k : KReg, s.k.get k = 0) ∧
    readTarget s .id = 0x50410001#32 ∧ readTarget s .cap = BitVec.ofNat 32 s.cfg.nmax ∧
    readTarget s .ctrl = 0#32 ∧ s.ctrl.ie = false ∧ s.ctrl.strict = false ∧ readTarget s .status = 0#32 ∧
    readTarget s .cmd = 0#32 ∧ readTarget s .errcode = 0#32 ∧ readTarget s .bitlen = 0#32 ∧
    readTarget s .lastcmd = 0#32 ∧ s.eng = .idle ∧ s.irq = false

/-- The machine gives the host its turn and accepts accesses. -/
def Sys2Proof.Expected.HostTurn (s : State) (op : HostOp) (rest : List HostOp) : Prop :=
  s.cfg.wf = true ∧ s.inReset = false ∧ s.nextTurn = .host ∧ s.host = op :: rest

/-- An aperture word of a destination register of a command (R49): X[RD], or for KEYDERIVE all of K0 to K6. -/
def Sys2Proof.Expected.Destination (c : Params) (i : Instr) (g : Target) : Prop :=
  match i with
  | .nop => False
  | .crtexp rd _ _ _ _ _ _ => ∃ j, j < c.words ∧ g = .xWord rd j
  | .lfunc rd _ => ∃ j, j < c.words ∧ g = .xWord rd j
  | .keyderive _ _ => ∃ k j, j < c.words ∧ g = .kWord k j
  | .encrypt rd _ => ∃ j, j < c.words ∧ g = .xWord rd j
  | .decrypt rd _ => ∃ j, j < c.words ∧ g = .xWord rd j
  | .hadd rd _ _ => ∃ j, j < c.words ∧ g = .xWord rd j
  | .hmul rd _ _ => ∃ j, j < c.words ∧ g = .xWord rd j

/-- KEYDERIVE wrote the key bank `kb` from the primes p and q at BITLEN = b. -/
def Sys2Proof.Expected.Derived (c : Params) (b : Word) (p q : Nat) (kb : KeyBank) : Prop :=
  ∃ (s t : State) (S : Snapshot) (rp rq : XReg), s.cfg = c ∧ s.eng = .busy S ∧ S.bitlen = b ∧ S.x[rp] = p ∧
    S.x[rq] = q ∧ exec (.keyderive rp rq) s = .next t ∧ t.errcode = .ok ∧ t.k = kb

/-- ENCRYPT wrote the ciphertext `ct` of `m` under the key bank `kb`, with blinding factor `r`. -/
def Sys2Proof.Expected.Encrypted (c : Params) (b : Word) (kb : KeyBank) (m r ct : Nat) : Prop :=
  ∃ (s t : State) (S : Snapshot) (rd rm : XReg), s.cfg = c ∧ s.eng = .busy S ∧ S.bitlen = b ∧ S.k = kb ∧
    S.x[rm] = m ∧ r = s.draw b.toNat % kb.n ∧ exec (.encrypt rd rm) s = .next t ∧ t.errcode = .ok ∧ t.x[rd] = ct

/-- Every DECRYPT of `ct` under the key bank `kb` completes OK, without a warning, and writes `m`. -/
def Sys2Proof.Expected.DecryptsTo (c : Params) (b : Word) (kb : KeyBank) (ct m : Nat) : Prop :=
  ∀ (s : State) (S : Snapshot) (rd rc : XReg), s.cfg = c → s.eng = .busy S → S.bitlen = b → S.k = kb → S.x[rc] = ct →
    exec (.decrypt rd rc) s = .next (Expected.wrote s rd m false false false)

/-- p and q are distinct odd primes. -/
def Sys2Proof.Expected.PrimePair (p q : Nat) : Prop :=
  Nat.Prime p ∧ Nat.Prime q ∧ p ≠ q ∧ p % 2 = 1 ∧ q % 2 = 1

/-! ### Reset and the machine as a whole -/

/-- R47: the state after reset. -/
def Obligations.ResetStateIsTheResetTable : Prop := Expected.ResetTable State.reset

/-- R201 (with R47, R200): a reset while BUSY abandons the command. Between assertion and release the engine's turn does
nothing; after release every register has its reset value, the entropy source has not been asked, and nothing of the
command in flight is left: the state after reset does not depend on what the engine held. -/
def Obligations.ResetAbandonsTheCommandInFlight : Prop :=
  ∀ (s : State) (rest : List Turn), s.cfg.wf = true →
    s.turns = .assertReset :: .engine :: .releaseReset :: rest →
    ∃ t, Host.Core.run Sys2Proof.core 3 s = .next t ∧ Expected.ResetTable t ∧
      t = { State.reset with
            cfg := s.cfg, host := s.host, turns := rest, responses := s.responses, entropy := s.entropy,
            freeIndex := s.freeIndex }

/-- R200: while reset is asserted a host access inside the aperture reaches nothing. The platform holds it off, or
answers with a bus error; which is its parameter (log 5). -/
def Obligations.NoAccessWhileResetIsAsserted : Prop :=
  ∀ (s : State) (addr size : Nat) (v : Word) (rest : List HostOp), s.cfg.wf = true → s.inReset = true →
    s.nextTurn = .host → s.cfg.base ≤ addr → addr < s.cfg.base + 0x40000 →
    let answer (r : Response) : Host.Outcome State Fault Refusal :=
      if s.cfg.resetAccessBusError then
        if s.cfg.busErrorFaultsHost then .fault .hostBusError
        else .next { s with host := rest, turns := s.turns.tail, responses := r :: s.responses }
      else .next { s with turns := s.turns.tail }
    (s.host = .read addr size :: rest → step s = answer (.read 0#32 true)) ∧
    (s.host = .write addr size v :: rest → step s = answer (.write true))

/-- The machine invariant (R11, R31, R32, R48, R115, R116, R182) holds at reset. -/
def Obligations.ResetMeetsTheInvariant : Prop := State.reset.Inv

/-- The machine invariant is kept by every step from every state that has it: registers stay within W bits (R11, R123),
a command in flight has the live registers as its snapshot (R48, R116), and warnings stand only where they can (R184). -/
def Obligations.EveryStepKeepsTheInvariant : Prop := ∀ s t : State, s.Inv → step s = .next t → t.Inv

/-- R36, R37: ID and CAP are hardwired; no write and no step changes them. -/
def Obligations.IdAndCapAreHardwired : Prop :=
  (∀ s : State, readTarget s (targetOf 0x000) = 0x50410001#32 ∧
    (readTarget s (targetOf 0x000)).toNat / 2 ^ 16 = 0x5041 ∧ (readTarget s (targetOf 0x000)).toNat % 2 ^ 16 = 1 ∧
    ∀ v, memWrite s 0x000 v = s) ∧
  (∀ s : State, s.cfg.wf = true → (readTarget s (targetOf 0x004)).toNat = s.cfg.nmax ∧
    s.cfg.width = 2 * (readTarget s (targetOf 0x004)).toNat ∧
    s.cfg.words = (readTarget s (targetOf 0x004)).toNat / 16 ∧ ∀ v, memWrite s 0x004 v = s) ∧
  ∀ s t : State, step s = .next t → t.cfg = s.cfg

/-- R196: in IDLE the engine has no step of its own, so its turn changes nothing. That the same holds while reset is asserted
is the model's reading (log 15, DEDUCED: R200 gives the values at the release only); R196 speaks of IDLE alone. -/
def Obligations.IdleEngineChangesNothing : Prop :=
  ∀ s : State, s.cfg.wf = true → s.nextTurn = .engine → (s.eng = .idle ∨ s.inReset = true) → step s = .next s.popTurn

/-- R39: OVR, once set, is cleared only by a host write of STATUS with bit 2 = 1 or by reset. -/
def Obligations.OverrunIsSticky : Prop :=
  ∀ s t : State, step s = .next t → s.status.ovr = true → t.status.ovr = false →
    (s.nextTurn = .releaseReset ∧ s.inReset = true) ∨
      (s.nextTurn = .host ∧ ∃ v rest, s.host = .write (s.cfg.base + 0x0C) 4 v :: rest ∧ v.getLsbD 2 = true)

/-- R39, R44: DONE goes from 0 to 1 only in the completion step of a command in flight. -/
def Obligations.DoneIsSetOnlyByCompletion : Prop :=
  ∀ s t : State, step s = .next t → s.status.done = false → t.status.done = true →
    s.nextTurn = .engine ∧ s.eng.isBusy = true ∧ t.eng = .idle

/-- R32: the key bank changes only by a completed KEYDERIVE, by a host write of a K window while IDLE, or by reset. -/
def Obligations.KeyBankHasThreeWriters : Prop :=
  ∀ s t : State, step s = .next t → t.k ≠ s.k →
    (∃ S p q, s.nextTurn = .engine ∧ s.eng = .busy S ∧ decode S.cmd = .ok (.keyderive p q) ∧ t.errcode = .ok) ∨
      (s.eng = .idle ∧ s.nextTurn = .host ∧ ∃ addr v rest k j, s.host = .write addr 4 v :: rest ∧
        targetOf (addr - s.cfg.base) = .kWord k j ∧ j < s.cfg.words) ∨
      (s.nextTurn = .releaseReset ∧ s.inReset = true)

/-! ### Encoding -/

/-- R101 to R107: every command, with every operand, is read back from its word, and from its word's four little-endian
bytes at the head of a byte stream (R75 (c)). -/
def Obligations.DecodeOfEncodeIsTheCommand : Prop :=
  ∀ (i : Instr) (rest : List Byte), decode (encode i) = .ok i ∧
    decodeBytes (bytesOf (encode i) ++ rest) = .ok (i, rest) ∧ decodeTableWord 32 (encode i).toNat = some i

/-- R104: a word that decodes is the word of its command, so no two words stand for one command. -/
def Obligations.EncodeOfDecodeIsTheWord : Prop := ∀ (w : Word) (i : Instr), decode w = .ok i → encode i = w

/-- R104, R106 (fields as R101): decoding is the opcode table, row by row, with the operands at the table's bit positions;
a word of no row decodes to no command, every word with OP 8 to 15 among them. -/
def Obligations.DecodingIsTheOpcodeTable : Prop :=
  ∀ (w : Word) (rd a b c d e f : XReg),
    rd.val = w.toNat / 2 ^ 24 % 16 → a.val = w.toNat / 2 ^ 20 % 16 → b.val = w.toNat / 2 ^ 16 % 16 →
    c.val = w.toNat / 2 ^ 12 % 16 → d.val = w.toNat / 2 ^ 8 % 16 → e.val = w.toNat / 2 ^ 4 % 16 →
    f.val = w.toNat % 16 →
    (w &&& 0xFFFFFFFF#32 = 0x00000000#32 ↔ decode w = .ok .nop) ∧
    (w &&& 0xF0000000#32 = 0x10000000#32 ↔ decode w = .ok (.crtexp rd a b c d e f)) ∧
    (w &&& 0xF00FFFFF#32 = 0x20000000#32 ↔ decode w = .ok (.lfunc rd a)) ∧
    (w &&& 0xFF00FFFF#32 = 0x30000000#32 ↔ decode w = .ok (.keyderive a b)) ∧
    (w &&& 0xF00FFFFF#32 = 0x40000000#32 ↔ decode w = .ok (.encrypt rd a)) ∧
    (w &&& 0xF00FFFFF#32 = 0x50000000#32 ↔ decode w = .ok (.decrypt rd a)) ∧
    (w &&& 0xF000FFFF#32 = 0x60000000#32 ↔ decode w = .ok (.hadd rd a b)) ∧
    (w &&& 0xF000FFFF#32 = 0x70000000#32 ↔ decode w = .ok (.hmul rd a b)) ∧
    ((∀ o : Opcode, w &&& matchMask o ≠ matchValue o) → ∃ r, decode w = .error r) ∧
    (8 ≤ w.toNat / 2 ^ 28 → ∀ o : Opcode, w &&& matchMask o ≠ matchValue o)

/-- R105: the words of no row are those with OP 8 to 15 or a must-be-zero field that is not zero. Such a word is accepted
at issue (the engine goes BUSY, LASTCMD records it), and its completion is the error ILLEGAL_CMD without reading or writing
any X or K register. -/
def Obligations.IllegalWordCompletesWithIllegalCmd : Prop :=
  (∀ v : Word, (∀ o : Opcode, v &&& matchMask o ≠ matchValue o) ↔
    8 ≤ v.toNat / 2 ^ 28 ∨
      ∃ o : Opcode, (opcodeNumber o).val = v.toNat / 2 ^ 28 ∧ o.format.mustBeZeroClear (fieldsOf v) = false) ∧
  ∀ v : Word, (∀ o : Opcode, v &&& matchMask o ≠ matchValue o) →
    (∀ s : State, s.eng = .idle → (memWrite s 0x010 v).lastcmd = v ∧ (memWrite s 0x010 v).eng = .busy (s.snapshot v)) ∧
    ∀ (s : State) (S : Snapshot), s.cfg.wf = true → s.inReset = false → s.nextTurn = .engine → s.eng = .busy S →
      S.cmd = v → step s = .next (Expected.ended s.popTurn .illegalCmd false false false)

/-- A few words written out from R101, R104 and R107 decode to the commands they stand for; illegal ones do not; and `issue`
of a command's text is the write of its word to CMD (R108). -/
def Obligations.WrittenOutWordsDecode : Prop :=
  decode 0x00000000#32 = .ok .nop ∧ decode 0x10123456#32 = .ok (.crtexp 0 1 2 3 4 5 6) ∧
    decode 0x23100000#32 = .ok (.lfunc 3 1) ∧ decode 0x30120000#32 = .ok (.keyderive 1 2) ∧
    decode 0x43000000#32 = .ok (.encrypt 3 0) ∧ decode 0x54300000#32 = .ok (.decrypt 4 3) ∧
    decode 0x63120000#32 = .ok (.hadd 3 1 2) ∧ decode 0x7A390000#32 = .ok (.hmul 10 3 9) ∧
    decode 0x00000001#32 = .error (.mustBeZero .nop) ∧ decode 0x31120000#32 = .error (.mustBeZero .keyderive) ∧
    decode 0x80000000#32 = .error (.reservedOpcode 8) ∧
    assemble "hadd x3, x1, x2" = some 0x63120000#32 ∧ assemble "keyderive x0, x1" = some 0x30010000#32 ∧
    assemble "nop" = some 0#32 ∧
    ∀ (c : Params) (text : String) (w : Word),
      assemble text = some w → issueLine c text = some (.write (c.base + 0x010) 4 w)

/-! ### The lifecycle of a command -/

/-- R115: issue. A write of any word to CMD while IDLE is accepted as one step with exactly these effects; OVR is kept,
`irq` falls, STATUS.BUSY reads 1. While BUSY the write is rejected (R48). -/
def Obligations.IssueTakesTheSnapshot : Prop :=
  ∀ (s : State) (v : Word),
    (s.eng = .idle →
      memWrite s 0x010 v =
          { s with
            lastcmd := v, errcode := .ok, status := ⟨false, s.status.ovr, false, false, false⟩,
            eng := .busy ⟨v, s.x, s.k, s.bitlen, s.ctrl.strict⟩ } ∧
        (memWrite s 0x010 v).irq = false ∧ (readTarget (memWrite s 0x010 v) .status).getLsbD 0 = true) ∧
    ∀ S, s.eng = .busy S → memWrite s 0x010 v = { s with status := { s.status with ovr := true } }

/-- A step runs the decoded command: on the engine's turn with a command in flight, the step is `exec` of the command
its snapshot's word decodes to, at the state with the turn used (R117). The second clause says the same of the state
`withFetchWord` makes, which is the model's own way to place a word (log 8, DESIGN CHOICE). -/
def Obligations.StepRunsTheDecodedCommand : Prop :=
  (∀ (s : State) (S : Snapshot) (i : Instr), s.cfg.wf = true → s.inReset = false → s.nextTurn = .engine →
    s.eng = .busy S → decode S.cmd = .ok i → step s = exec i { s with turns := s.turns.tail }) ∧
  ∀ (s : State) (nbits w : Nat) (i : Instr), s.cfg.wf = true → decode (BitVec.ofNat 32 (w % 2 ^ nbits)) = .ok i →
    step (s.withFetchWord nbits w) = exec i { s.withFetchWord nbits w with turns := s.turns }

/-- R118: the completion step is enabled throughout BUSY. Whenever the engine gets the turn (the schedule says so, or is
spent), a command in flight, legal or not, completes: DONE is set and BUSY cleared. -/
def Obligations.CompletionIsEnabledThroughoutBusy : Prop :=
  ∀ (s : State) (S : Snapshot), s.cfg.wf = true → s.inReset = false → s.eng = .busy S →
    (s.turns = [] ∨ s.turns.head? = some .engine) →
    ∃ t, step s = .next t ∧ t.eng = .idle ∧ t.status.done = true ∧ t.lastcmd = s.lastcmd

/-- R118, R197: a command in flight has completed after at most one step more than the schedule holds turns, whatever
the host does meanwhile, as long as its accesses are ones the aperture accepts and reset is not asserted. The schedule
is the model's form of the unspecified latency (log 6). -/
def Obligations.CommandCompletesWithinTheSchedule : Prop :=
  ∀ s : State, s.cfg.wf = true → s.inReset = false → s.eng.isBusy = true →
    (∀ turn ∈ s.turns, turn = .host ∨ turn = .engine) → (∀ op ∈ s.host, op.Safe s.cfg) →
    ∃ n, n ≤ s.turns.length + 1 ∧ ∃ t, Host.Core.run Sys2Proof.core n s = .next t ∧ t.eng = .idle ∧
      t.status.done = true

/-- R120: no cancellation. A step from BUSY leaves the command in flight, or is its completion, or is the release of an
asserted reset, which abandons it with no write of a result. -/
def Obligations.OnlyCompletionOrResetEndsACommand : Prop :=
  ∀ (s t : State) (S : Snapshot), s.eng = .busy S → step s = .next t →
    t.eng = .busy S ∨
      (s.nextTurn = .engine ∧ t.eng = .idle ∧ t.status.done = true) ∨
      (s.nextTurn = .releaseReset ∧ s.inReset = true ∧ Expected.ResetTable t)

/-- R116: result, error code and warnings of a command are a function of its snapshot and, for ENCRYPT only, the draw:
two states with the same snapshot in flight, whatever their live registers, complete alike. -/
def Obligations.OutcomeIsAFunctionOfTheSnapshot : Prop :=
  ∀ (i : Instr) (s s' t t' : State) (S : Snapshot), s.cfg = s'.cfg → s.eng = .busy S → s'.eng = .busy S →
    ((∃ rd m, i = .encrypt rd m) → s.draw S.bitlen.toNat = s'.draw S.bitlen.toNat) →
    exec i s = .next t → exec i s' = .next t' →
    t.errcode = t'.errcode ∧ t.status.wPt = t'.status.wPt ∧ t.status.wCt = t'.status.wCt ∧
      t.status.wK = t'.status.wK ∧
      (t.errcode = .ok → ∀ rd, destX i = some rd → t.x[rd] = t'.x[rd]) ∧
      (t.errcode = .ok → destKeys i = true → t.k = t'.k)

/-- R185: the error completion, the engine's only trap, of a command or of an illegal word. ERRCODE reads the code, which is
ILLEGAL_CMD exactly for an illegal word; the warning flags are the command's: one at least under RANGE (R182), none but W_PT
under ZERO_BLIND, none under any other code (R184). DONE is set, ENG is IDLE, BUSY reads 0, `irq` becomes CTRL.IE; LASTCMD
holds the command word since issue; no X or K register, not BITLEN, CTRL or OVR is written; and the engine is usable at
once: the next write of CMD is accepted. -/
def Obligations.ErrorCompletionWritesNoRegister : Prop :=
  ∀ (s t : State) (S : Snapshot), s.nextTurn = .engine → s.inReset = false → s.eng = .busy S → step s = .next t →
    t.errcode ≠ .ok →
    t.x = s.x ∧ t.k = s.k ∧ t.bitlen = s.bitlen ∧ t.ctrl = s.ctrl ∧ t.status.ovr = s.status.ovr ∧
      t.lastcmd = s.lastcmd ∧ t.eng = .idle ∧ t.status.done = true ∧ t.irq = s.ctrl.ie ∧
      (readTarget t .status).getLsbD 0 = false ∧ readTarget t .errcode ≠ 0#32 ∧
      (t.errcode = .illegalCmd ↔ ∃ r, decode S.cmd = .error r) ∧
      (t.errcode = .range → t.status.wPt = true ∨ t.status.wCt = true ∨ t.status.wK = true) ∧
      (t.errcode = .zeroBlind → t.status.wCt = false ∧ t.status.wK = false) ∧
      (t.errcode ≠ .range → t.errcode ≠ .zeroBlind →
        t.status.wPt = false ∧ t.status.wCt = false ∧ t.status.wK = false) ∧
      ∀ v, memWrite t 0x010 v = t.issue v

/-- R117, R180, R181: every command completes normally, with code OK, on the operands its checks admit; ENCRYPT also
needs a draw that is no multiple of N. -/
def Obligations.EveryCommandCompletesOnAdmittedOperands : Prop :=
  ∀ (s : State) (S : Snapshot), s.eng = .busy S →
    let ok (i : Instr) : Prop := ∃ t, exec i s = .next t ∧ t.errcode = .ok ∧ t.eng = .idle ∧ t.status.done = true
    let b := S.bitlen.toNat
    let bitlenOk := 2 ≤ b ∧ b ≤ s.cfg.nmax
    let keyOk := 1 ≤ S.k.n ∧ S.k.n < 2 ^ b
    ok .nop ∧
    (∀ rd a b c d p q, S.x[p] ≠ 0 → S.x[q] ≠ 0 → S.x[p] * S.x[q] ≤ 2 ^ (2 * s.cfg.nmax) →
      ok (.crtexp rd a b c d p q)) ∧
    (∀ rd u, bitlenOk → ok (.lfunc rd u)) ∧
    (∀ p q, bitlenOk → 2 ≤ S.x[p] → 2 ≤ S.x[q] → S.x[p] * S.x[q] < 2 ^ b → (∃ kb, deriveKey S.x[p] S.x[q] b = .ok kb) →
      ok (.keyderive p q)) ∧
    (∀ rd m, bitlenOk → keyOk → (S.strict = true → S.x[m] < S.k.n) → s.draw b % S.k.n ≠ 0 → ok (.encrypt rd m)) ∧
    (∀ rd c, bitlenOk → keyOk → S.k.p2 ≠ 0 → S.k.q2 ≠ 0 → (S.strict = true → S.x[c] < S.k.n * S.k.n) →
      ok (.decrypt rd c)) ∧
    (∀ rd a c, bitlenOk → keyOk → (S.strict = true → S.x[a] < S.k.n * S.k.n ∧ S.x[c] < S.k.n * S.k.n) →
      ok (.hadd rd a c)) ∧
    (∀ rd a c, bitlenOk → keyOk → (S.strict = true → S.x[a] < S.k.n * S.k.n ∧ S.x[c] < S.k.n) → ok (.hmul rd a c))

/-! ### The commands -/

/-- R119: NOP. Its word is 0 exactly, any other word with OP = 0 is illegal; it writes no register and sets DONE. Issued
and completed with OVR clear it leaves ERRCODE = 0 and STATUS = 2, every register unchanged; issued while DONE = 1 it
clears DONE at issue and sets it again. -/
def Obligations.NopCompletesAndWritesNothing : Prop :=
  (∀ w : Word, w.toNat / 2 ^ 28 = 0 → decode w = if w = 0#32 then .ok .nop else .error (.mustBeZero .nop)) ∧
  (∀ (s : State) (S : Snapshot), s.eng = .busy S → exec .nop s = .next (Expected.ended s .ok false false false)) ∧
  ∀ s : State, s.eng = .idle → s.status.ovr = false →
    (memWrite s 0x010 0#32).status.done = false ∧
      ∃ t, exec .nop (memWrite s 0x010 0#32) = .next t ∧ t.errcode = .ok ∧ readTarget t .status = 2#32 ∧
        t.x = s.x ∧ t.k = s.k ∧ t.bitlen = s.bitlen ∧ t.ctrl = s.ctrl

/-- R20: `crtExp` is the source's algorithm: two modular powers and Garner's formula with the floored mod; its value is in
[0, p·q). -/
def Obligations.CrtExpIsTheSourcesAlgorithm : Prop :=
  ∀ base expP expQ pInvQ p q : Nat, 1 ≤ p → 1 ≤ q →
    let yp := (base % p) ^ expP % p
    let yq := (base % q) ^ expQ % q
    (crtExp base expP expQ pInvQ p q : Int) =
        ((yp : Int) + (p : Int) * (pInvQ : Int) * ((yq : Int) - (yp : Int))) % ((p : Int) * (q : Int)) ∧
      crtExp base expP expQ pInvQ p q < p * q

/-- R125: CRTEXP. Operands in the contract's order; ZERO_MODULUS first, then RESULT_RANGE; else X[RD] gets Garner's
recombination of the two lanes. No warning. -/
def Obligations.CrtexpRecombinesByGarner : Prop :=
  (∀ w : Word, w &&& 0xF0000000#32 = 0x10000000#32 →
    decode w = .ok (.crtexp (fieldsOf w).rd (fieldsOf w).rs1 (fieldsOf w).rs2 (fieldsOf w).rs3 (fieldsOf w).rs4
      (fieldsOf w).rs5 (fieldsOf w).rs6)) ∧
  ∀ (s : State) (S : Snapshot) (rd s1 s2 s3 s4 s5 s6 : XReg), s.eng = .busy S →
    let p := S.x[s5]
    let q := S.x[s6]
    let yp := (S.x[s1] % p) ^ S.x[s2] % p
    let yq := (S.x[s1] % q) ^ S.x[s3] % q
    exec (.crtexp rd s1 s2 s3 s4 s5 s6) s =
      .next
        (if p = 0 ∨ q = 0 then Expected.ended s .zeroModulus false false false
        else if 2 ^ (2 * s.cfg.nmax) < p * q then Expected.ended s .resultRange false false false
        else
          Expected.wrote s rd
            (((yp : Int) + (p : Int) * (S.x[s4] : Int) * ((yq : Int) - (yp : Int))) % ((p : Int) * (q : Int))).toNat
            false false false)

/-- CRT equivalence, which the spec derives itself (R128, "[derived: from rule R125 and 00_scope.md rule R21]"). With coprime
moduli whose product fits, the right coefficient and one exponent, CRTEXP writes the direct power modulo p·q. -/
def Obligations.CrtexpIsDirectExponentiation : Prop :=
  ∀ (s : State) (S : Snapshot) (rd s1 s2 s3 s4 s5 s6 : XReg), s.eng = .busy S → 1 ≤ S.x[s5] → 1 ≤ S.x[s6] →
    Nat.gcd S.x[s5] S.x[s6] = 1 → S.x[s5] * S.x[s6] ≤ 2 ^ s.cfg.width →
    (inv S.x[s5] S.x[s6] = some (S.x[s4] % S.x[s6]) ∨ S.x[s6] = 1) → S.x[s2] = S.x[s3] →
    exec (.crtexp rd s1 s2 s3 s4 s5 s6) s =
      .next (Expected.wrote s rd (S.x[s1] ^ S.x[s2] % (S.x[s5] * S.x[s6])) false false false)

/-- R163: LFUNC. BITLEN is the only check; X[RD] gets ((u − 1)·NINV) mod 2^BITLEN with the floored mod. -/
def Obligations.LfuncMultipliesAndMasks : Prop :=
  (∀ w : Word, w &&& 0xF00FFFFF#32 = 0x20000000#32 → decode w = .ok (.lfunc (fieldsOf w).rd (fieldsOf w).rs1)) ∧
  ∀ (s : State) (S : Snapshot) (rd u : XReg), s.eng = .busy S →
    let b := S.bitlen.toNat
    exec (.lfunc rd u) s =
      .next
        (if b < 2 ∨ s.cfg.nmax < b then Expected.ended s .bitlen false false false
        else
          Expected.wrote s rd ((((S.x[u] : Int) - 1) * (S.k.nInv : Int)) % (2 ^ b : Int)).toNat false false false)

/-- When L is the quotient, which the spec derives itself (R161, "[derived: from rule R160 and 00_scope.md rule R19]").
For odd N with NINV its inverse, u ≥ 1 and N dividing u − 1 with a quotient below 2^BITLEN, LFUNC writes (u − 1)/N; for
u < N² and N < 2^BITLEN the bound on the quotient holds by itself; and where N does not divide u − 1, LFUNC still
completes OK with the multiply-and-mask value and no flag but DONE. -/
def Obligations.LfuncIsTheExactQuotient : Prop :=
  ∀ (s : State) (S : Snapshot) (rd u : XReg), s.eng = .busy S → 2 ≤ S.bitlen.toNat → S.bitlen.toNat ≤ s.cfg.nmax →
    (S.k.n % 2 = 1 → inv S.k.n (2 ^ S.bitlen.toNat) = some S.k.nInv → 1 ≤ S.x[u] → S.k.n ∣ S.x[u] - 1 →
      ((S.x[u] - 1) / S.k.n < 2 ^ S.bitlen.toNat ∨ (S.x[u] < S.k.n * S.k.n ∧ S.k.n < 2 ^ S.bitlen.toNat)) →
      exec (.lfunc rd u) s = .next (Expected.wrote s rd ((S.x[u] - 1) / S.k.n) false false false)) ∧
    (¬ (S.k.n : Int) ∣ (S.x[u] : Int) - 1 →
      exec (.lfunc rd u) s =
        .next
          (Expected.wrote s rd ((((S.x[u] : Int) - 1) * (S.k.nInv : Int)) % (2 ^ S.bitlen.toNat : Int)).toNat
            false false false))

/-- R162: u = 0. LFUNC writes (2^b − (NINV mod 2^b)) mod 2^b. -/
def Obligations.LfuncOfZeroIsTheMaskedNegative : Prop :=
  ∀ (s : State) (S : Snapshot) (rd u : XReg), s.eng = .busy S → 2 ≤ S.bitlen.toNat → S.bitlen.toNat ≤ s.cfg.nmax →
    S.x[u] = 0 →
    exec (.lfunc rd u) s =
      .next (Expected.wrote s rd ((2 ^ S.bitlen.toNat - S.k.nInv % 2 ^ S.bitlen.toNat) % 2 ^ S.bitlen.toNat)
        false false false)

/-- R141: KEYDERIVE. The checks and the three inverses in the rule's order; all seven key registers are written, or none. -/
def Obligations.KeyderiveFollowsTheSteps : Prop :=
  (∀ w : Word, w &&& 0xFF00FFFF#32 = 0x30000000#32 → decode w = .ok (.keyderive (fieldsOf w).rs1 (fieldsOf w).rs2)) ∧
  ∀ (s : State) (S : Snapshot) (s1 s2 : XReg), s.eng = .busy S →
    let b := S.bitlen.toNat
    let p := S.x[s1]
    let q := S.x[s2]
    let n := p * q
    let lam := Nat.lcm (p - 1) (q - 1)
    let fails (e : ErrCode) := Expected.ended s e false false false
    exec (.keyderive s1 s2) s =
      .next
        (if b < 2 ∨ s.cfg.nmax < b then fails .bitlen
        else if p < 2 ∨ q < 2 then fails .operand
        else if n ≥ 2 ^ b then fails .key
        else
          match inv n (2 ^ b) with
          | none => fails .noinvNinv
          | some nInv =>
            match inv (p * p) (q * q) with
            | none => fails .noinvP2q2
            | some p2invq2 =>
              let t := crtExp (1 + n) lam lam p2invq2 (p * p) (q * q)
              match inv ((((t : Int) - 1) * (nInv : Int)) % (2 ^ b : Int)).toNat n with
              | none => fails .noinvMu
              | some mu =>
                { Expected.ended s .ok false false false with k := ⟨lam, mu, p * p, q * q, p2invq2, nInv, n⟩ })

/-- R141, 90_conflicts.md C9: past the first three checks, NOINV_NINV is raised exactly when n is even, for odd n
NOINV_P2Q2 exactly when p and q share a factor (p = q among them), and for odd n and coprime p, q NOINV_MU exactly when L(t)
has no inverse modulo n: with `nInv` and `c` the inverses of steps 3 and 4, when gcd(L(t), n) is not 1 (R18). -/
def Obligations.KeyderiveInverseErrors : Prop :=
  ∀ (s t : State) (S : Snapshot) (s1 s2 : XReg), s.eng = .busy S → exec (.keyderive s1 s2) s = .next t →
    2 ≤ S.bitlen.toNat → S.bitlen.toNat ≤ s.cfg.nmax → 2 ≤ S.x[s1] → 2 ≤ S.x[s2] →
    S.x[s1] * S.x[s2] < 2 ^ S.bitlen.toNat →
    let b := S.bitlen.toNat
    let p := S.x[s1]
    let q := S.x[s2]
    let n := p * q
    (t.errcode = .noinvNinv ↔ n % 2 = 0) ∧
      (t.errcode = .noinvP2q2 ↔ n % 2 = 1 ∧ Nat.gcd p q ≠ 1) ∧
      (t.errcode = .noinvMu → n % 2 = 1 ∧ Nat.gcd p q = 1) ∧
      ∀ nInv c : Nat, nInv < 2 ^ b → n * nInv % 2 ^ b = 1 → c < q * q → p * p * c % (q * q) = 1 →
        let lam := Nat.lcm (p - 1) (q - 1)
        let u := crtExp (1 + n) lam lam c (p * p) (q * q)
        (t.errcode = .noinvMu ↔ Nat.gcd ((((u : Int) - 1) * (nInv : Int)) % (2 ^ b : Int)).toNat n ≠ 1)

/-- What a completed KEYDERIVE guarantees, which the spec derives itself (R142, "[derived: from rule R141 and 00_scope.md
rules R19, R20]"): the identities of its fields, each inverse in the range R18 gives it; every field in [0, 2^W), and
below N² as R123 says, NINV where 2^BITLEN is at most N² (log 29, DEDUCED: otherwise R141 gives NINV only below 2^BITLEN); and
for distinct odd primes the values of t, L(t) and mu. -/
def Obligations.CompletedKeyHasItsIdentities : Prop :=
  ∀ (c : Params) (b : Word) (p q : Nat) (kb : KeyBank), Expected.Derived c b p q kb →
    let t := crtExp (1 + kb.n) kb.lambda kb.lambda kb.p2invq2 kb.p2 kb.q2
    kb.n = p * q ∧ kb.n < 2 ^ b.toNat ∧ kb.n * kb.nInv % 2 ^ b.toNat = 1 ∧ kb.p2 * kb.p2invq2 % kb.q2 = 1 ∧
      kb.nInv < 2 ^ b.toNat ∧ kb.p2invq2 < kb.q2 ∧ kb.mu < kb.n ∧ kb.p2 = p * p ∧ kb.q2 = q * q ∧
      kb.lambda = Nat.lcm (p - 1) (q - 1) ∧ kb.mu * lFunction t kb.nInv b.toNat % kb.n = 1 ∧
      (∀ k : KReg, kb.get k < 2 ^ c.width ∧ (k ≠ 5 ∨ 2 ^ b.toNat ≤ kb.n * kb.n → kb.get k < kb.n * kb.n)) ∧
      (Expected.PrimePair p q →
        t = (1 + kb.lambda * kb.n) % (kb.n * kb.n) ∧ lFunction t kb.nInv b.toNat = kb.lambda % kb.n ∧
          kb.lambda * kb.mu % kb.n = 1)

/-- R155: ENCRYPT. The checks in order; the draw, below 2^BITLEN, is taken only past them (its form in State is log 9,
and the statement holds for every value of it); r = 0 fails with ZERO_BLIND, W_PT kept; else X[RD] gets (r^N · (1 +
m·N)) mod N². -/
def Obligations.EncryptBlindsThePlaintext : Prop :=
  (∀ w : Word, w &&& 0xF00FFFFF#32 = 0x40000000#32 → decode w = .ok (.encrypt (fieldsOf w).rd (fieldsOf w).rs1)) ∧
  (∀ (s : State) (b : Nat), s.draw b < 2 ^ b) ∧
  ∀ (s : State) (S : Snapshot) (rd s1 : XReg), s.eng = .busy S →
    let b := S.bitlen.toNat
    let n := S.k.n
    let m := S.x[s1]
    let r := s.draw b % n
    let w := decide (m ≥ n)
    exec (.encrypt rd s1) s =
      .next
        (if b < 2 ∨ s.cfg.nmax < b then Expected.ended s .bitlen false false false
        else if n = 0 ∨ n ≥ 2 ^ b then Expected.ended s .key false false false
        else if S.strict = true ∧ m ≥ n then Expected.ended s .range w false false
        else if r = 0 then Expected.ended (Expected.drew s) .zeroBlind w false false
        else Expected.wrote (Expected.drew s) rd (r ^ n % (n * n) * (1 + m * n) % (n * n)) w false false)

/-- An out-of-range plaintext, which the spec derives itself (R156, "[derived: from rule R155]"). For N ≥ 2 the message
term wraps, (1 + m·N) mod N² = 1 + (m mod N)·N (at N = 1, where every ENCRYPT fails with ZERO_BLIND, the rule's equation
does not hold); and with STRICT = 0 ENCRYPT of m ≥ N and of m mod N with the same draw end with the same code and, when
OK, the same ciphertext. -/
def Obligations.OutOfRangePlaintextWraps : Prop :=
  (∀ m n : Nat, 2 ≤ n → (1 + m * n) % (n * n) = 1 + m % n * n) ∧
  ∀ (s s' t t' : State) (S S' : Snapshot) (rd rd' s1 s1' : XReg), s.cfg = s'.cfg → s.eng = .busy S →
    s'.eng = .busy S' → S.bitlen = S'.bitlen → S.k = S'.k → S.strict = false → S'.strict = false →
    s.draw S.bitlen.toNat = s'.draw S.bitlen.toNat → S.k.n ≤ S.x[s1] → S'.x[s1'] = S.x[s1] % S.k.n →
    exec (.encrypt rd s1) s = .next t → exec (.encrypt rd' s1') s' = .next t' →
    t.errcode = t'.errcode ∧ (t.errcode = .ok → t.x[rd] = t'.x[rd'])

/-- R157: W_PT after ENCRYPT is set exactly when m ≥ N and the BITLEN and KEY checks passed; with STRICT = 1 the same
condition ends the command with RANGE. -/
def Obligations.PlaintextWarningIsExact : Prop :=
  ∀ (s t : State) (S : Snapshot) (rd s1 : XReg), s.eng = .busy S → exec (.encrypt rd s1) s = .next t →
    (t.status.wPt = true ↔
      (2 ≤ S.bitlen.toNat ∧ S.bitlen.toNat ≤ s.cfg.nmax) ∧ (1 ≤ S.k.n ∧ S.k.n < 2 ^ S.bitlen.toNat) ∧
        S.k.n ≤ S.x[s1]) ∧
    (S.strict = true → t.status.wPt = true → t.errcode = .range)

/-- The flag clauses of R157, R166, R171, R173, R174 and R181: W_CT after DECRYPT, HADD and HMUL, W_K after HMUL and W_PT after
ENCRYPT are set exactly on their conditions, past the checks before them; each command leaves the other flags clear, and NOP,
CRTEXP, LFUNC and KEYDERIVE set none. -/
def Obligations.CiphertextAndConstantWarningsAreExact : Prop :=
  ∀ (s t : State) (S : Snapshot), s.eng = .busy S →
    let bitlenOk := 2 ≤ S.bitlen.toNat ∧ S.bitlen.toNat ≤ s.cfg.nmax
    let keyOk := 1 ≤ S.k.n ∧ S.k.n < 2 ^ S.bitlen.toNat
    let n2 := S.k.n * S.k.n
    (∀ rd c, exec (.decrypt rd c) s = .next t →
      (t.status.wCt = true ↔ bitlenOk ∧ keyOk ∧ S.k.p2 ≠ 0 ∧ S.k.q2 ≠ 0 ∧ n2 ≤ S.x[c]) ∧
        t.status.wPt = false ∧ t.status.wK = false) ∧
    (∀ rd a c, exec (.hadd rd a c) s = .next t →
      (t.status.wCt = true ↔ bitlenOk ∧ keyOk ∧ (n2 ≤ S.x[a] ∨ n2 ≤ S.x[c])) ∧
        t.status.wPt = false ∧ t.status.wK = false) ∧
    (∀ rd a k, exec (.hmul rd a k) s = .next t →
      (t.status.wCt = true ↔ bitlenOk ∧ keyOk ∧ n2 ≤ S.x[a]) ∧
        (t.status.wK = true ↔ bitlenOk ∧ keyOk ∧ S.k.n ≤ S.x[k]) ∧ t.status.wPt = false) ∧
    (∀ rd m, exec (.encrypt rd m) s = .next t →
      (t.status.wPt = true ↔ bitlenOk ∧ keyOk ∧ S.k.n ≤ S.x[m]) ∧ t.status.wCt = false ∧ t.status.wK = false) ∧
    (∀ i, (i = .nop ∨ (∃ rd a b c d e f, i = .crtexp rd a b c d e f) ∨ (∃ rd u, i = .lfunc rd u) ∨
        ∃ p q, i = .keyderive p q) → exec i s = .next t →
      t.status.wPt = false ∧ t.status.wCt = false ∧ t.status.wK = false)

/-- R182: the strict policy, off after reset. With STRICT = 1 in the snapshot, the checks before it passed, a command with
a warning condition sets its flags and completes with RANGE, writing no register and taking no draw. -/
def Obligations.StrictPolicyRejectsWithRange : Prop :=
  State.reset.ctrl.strict = false ∧
  ∀ (s : State) (S : Snapshot), s.eng = .busy S → S.strict = true →
    2 ≤ S.bitlen.toNat → S.bitlen.toNat ≤ s.cfg.nmax → 1 ≤ S.k.n → S.k.n < 2 ^ S.bitlen.toNat →
    let n := S.k.n
    (∀ rd m, n ≤ S.x[m] → exec (.encrypt rd m) s = .next (Expected.ended s .range true false false)) ∧
    (∀ rd c, S.k.p2 ≠ 0 → S.k.q2 ≠ 0 → n * n ≤ S.x[c] →
      exec (.decrypt rd c) s = .next (Expected.ended s .range false true false)) ∧
    (∀ rd a c, n * n ≤ S.x[a] ∨ n * n ≤ S.x[c] →
      exec (.hadd rd a c) s = .next (Expected.ended s .range false true false)) ∧
    (∀ rd a k, n * n ≤ S.x[a] ∨ n ≤ S.x[k] →
      exec (.hmul rd a k) s =
        .next (Expected.ended s .range false (decide (n * n ≤ S.x[a])) (decide (n ≤ S.x[k]))))

/-- R165: DECRYPT. The checks in order, W_CT when c ≥ N²; else X[RD] gets (L(crtExp(c, λ, λ, p2invq2, p2, q2))·mu) mod N. -/
def Obligations.DecryptAppliesLAndMu : Prop :=
  (∀ w : Word, w &&& 0xF00FFFFF#32 = 0x50000000#32 → decode w = .ok (.decrypt (fieldsOf w).rd (fieldsOf w).rs1)) ∧
  ∀ (s : State) (S : Snapshot) (rd s1 : XReg), s.eng = .busy S →
    let b := S.bitlen.toNat
    let n := S.k.n
    let c := S.x[s1]
    let w := decide (c ≥ n * n)
    let t := crtExp c S.k.lambda S.k.lambda S.k.p2invq2 S.k.p2 S.k.q2
    let u := ((((t : Int) - 1) * (S.k.nInv : Int)) % (2 ^ b : Int)).toNat
    exec (.decrypt rd s1) s =
      .next
        (if b < 2 ∨ s.cfg.nmax < b then Expected.ended s .bitlen false false false
        else if n = 0 ∨ n ≥ 2 ^ b then Expected.ended s .key false false false
        else if S.k.p2 = 0 ∨ S.k.q2 = 0 then Expected.ended s .zeroModulus false false false
        else if S.strict = true ∧ c ≥ n * n then Expected.ended s .range false w false
        else Expected.wrote s rd (u * S.k.mu % n) false w false)

/-- R171: HADD. The checks in order, one W_CT for both operands; else X[RD] gets c1·c2 mod N². -/
def Obligations.HaddMultipliesCiphertexts : Prop :=
  (∀ w : Word, w &&& 0xF000FFFF#32 = 0x60000000#32 →
    decode w = .ok (.hadd (fieldsOf w).rd (fieldsOf w).rs1 (fieldsOf w).rs2)) ∧
  ∀ (s : State) (S : Snapshot) (rd s1 s2 : XReg), s.eng = .busy S →
    let b := S.bitlen.toNat
    let n := S.k.n
    let w := decide (S.x[s1] ≥ n * n ∨ S.x[s2] ≥ n * n)
    exec (.hadd rd s1 s2) s =
      .next
        (if b < 2 ∨ s.cfg.nmax < b then Expected.ended s .bitlen false false false
        else if n = 0 ∨ n ≥ 2 ^ b then Expected.ended s .key false false false
        else if S.strict = true ∧ (S.x[s1] ≥ n * n ∨ S.x[s2] ≥ n * n) then Expected.ended s .range false w false
        else Expected.wrote s rd (S.x[s1] * S.x[s2] % (n * n)) false w false)

/-- R173: HMUL. The checks in order, W_CT and W_K; else X[RD] gets c1^k mod N², the constant used in full and 0^0 = 1. -/
def Obligations.HmulRaisesTheCiphertext : Prop :=
  (∀ w : Word, w &&& 0xF000FFFF#32 = 0x70000000#32 →
    decode w = .ok (.hmul (fieldsOf w).rd (fieldsOf w).rs1 (fieldsOf w).rs2)) ∧
  ∀ (s : State) (S : Snapshot) (rd s1 s2 : XReg), s.eng = .busy S →
    let b := S.bitlen.toNat
    let n := S.k.n
    let wCt := decide (S.x[s1] ≥ n * n)
    let wK := decide (S.x[s2] ≥ n)
    exec (.hmul rd s1 s2) s =
      .next
        (if b < 2 ∨ s.cfg.nmax < b then Expected.ended s .bitlen false false false
        else if n = 0 ∨ n ≥ 2 ^ b then Expected.ended s .key false false false
        else if S.strict = true ∧ (S.x[s1] ≥ n * n ∨ S.x[s2] ≥ n) then Expected.ended s .range false wCt wK
        else Expected.wrote s rd (S.x[s1] ^ S.x[s2] % (n * n)) false wCt wK)

/-- R170: HADD and HMUL read BITLEN and N only: two runs whose key banks differ in K0 to K5 end alike, and neither takes a
draw. -/
def Obligations.HomomorphicOperatorsReadNoSecret : Prop :=
  ∀ (s s' : State) (S S' : Snapshot) (i : Instr),
    ((∃ rd a c, i = .hadd rd a c) ∨ ∃ rd a c, i = .hmul rd a c) → s.eng = .busy S → s'.eng = .busy S' →
    S'.x = S.x → S'.bitlen = S.bitlen → S'.strict = S.strict → S'.k.n = S.k.n → s'.cfg = s.cfg →
    ∃ t t', exec i s = .next t ∧ exec i s' = .next t' ∧ t.errcode = t'.errcode ∧
      t.status.wPt = t'.status.wPt ∧ t.status.wCt = t'.status.wCt ∧ t.status.wK = t'.status.wK ∧
      t.entropy = s.entropy ∧ t.freeIndex = s.freeIndex ∧
      (t.errcode = .ok → ∀ rd, destX i = some rd → t.x[rd] = t'.x[rd])

/-- The round trip, which the spec derives itself (R167, "[derived: from rules R165, 43_encrypt.md rule R155,
42_key_derivation.md rule R142]"). Under a key bank KEYDERIVE wrote from distinct odd primes, a ciphertext that ENCRYPT
wrote with a blinding factor coprime to N decrypts to m mod N, which is m for m < N. -/
def Obligations.DecryptionInvertsEncryption : Prop :=
  ∀ (c : Params) (b : Word) (p q : Nat) (kb : KeyBank) (m r ct : Nat), Expected.PrimePair p q →
    Expected.Derived c b p q kb → Expected.Encrypted c b kb m r ct → Nat.gcd r kb.n = 1 →
    Expected.DecryptsTo c b kb ct (m % kb.n) ∧ (m < kb.n → Expected.DecryptsTo c b kb ct m)

/-- The addition law, which the spec derives itself (R172, "[derived: from rules R171, 44_decrypt.md rule R167]"). What
HADD writes from two such ciphertexts decrypts to (m1 + m2) mod N, and is again a ciphertext, of (m1 + m2) mod N with
blinding factor r1·r2 mod N, which is coprime to N. -/
def Obligations.AddedCiphertextsDecryptToTheSum : Prop :=
  ∀ (c : Params) (b : Word) (p q : Nat) (kb : KeyBank) (m1 r1 c1 m2 r2 c2 : Nat) (s t : State) (S : Snapshot)
    (rd s1 s2 : XReg), Expected.PrimePair p q → Expected.Derived c b p q kb → Expected.Encrypted c b kb m1 r1 c1 →
    Expected.Encrypted c b kb m2 r2 c2 → Nat.gcd r1 kb.n = 1 → Nat.gcd r2 kb.n = 1 →
    s.cfg = c → s.eng = .busy S → S.bitlen = b → S.k = kb → S.x[s1] = c1 → S.x[s2] = c2 →
    exec (.hadd rd s1 s2) s = .next t →
    t.errcode = .ok ∧ Expected.DecryptsTo c b kb t.x[rd] ((m1 + m2) % kb.n) ∧ Nat.gcd (r1 * r2 % kb.n) kb.n = 1 ∧
      t.x[rd] =
        (r1 * r2 % kb.n) ^ kb.n % (kb.n * kb.n) * (1 + (m1 + m2) % kb.n * kb.n) % (kb.n * kb.n)

/-- The scalar law, which the spec derives itself (R175, "[derived: from rules R173, 44_decrypt.md rule R167]"). What
HMUL writes from such a ciphertext and any constant k decrypts to (k·m) mod N; STRICT = 1 admits only k < N (R182). -/
def Obligations.ScaledCiphertextDecryptsToTheProduct : Prop :=
  ∀ (c : Params) (b : Word) (p q : Nat) (kb : KeyBank) (m r ct : Nat) (s t : State) (S : Snapshot) (rd s1 s2 : XReg),
    Expected.PrimePair p q → Expected.Derived c b p q kb → Expected.Encrypted c b kb m r ct → Nat.gcd r kb.n = 1 →
    s.cfg = c → s.eng = .busy S → S.bitlen = b → S.k = kb → S.x[s1] = ct → (S.strict = true → S.x[s2] < kb.n) →
    exec (.hmul rd s1 s2) s = .next t →
    t.errcode = .ok ∧ Expected.DecryptsTo c b kb t.x[rd] (S.x[s2] * m % kb.n)

/-! ### Frames -/

/-- The frame of the commands whose destination is an X register (CRTEXP, LFUNC, ENCRYPT, DECRYPT, HADD, HMUL; R31, R117,
R123): every other X register, the key bank, CTRL, BITLEN, LASTCMD, OVR, the reset input, the host, its responses and the
schedule are unchanged, the entropy source too but for ENCRYPT; every aperture word reads as before but STATUS, ERRCODE and
the words of X[RD] (there is no other memory, R70); and X[RD] stays within W bits if it was. -/
def Obligations.FrameOfXCommands : Prop :=
  ∀ (i : Instr) (rd : XReg) (s t : State), destX i = some rd → exec i s = .next t →
    (∀ j : XReg, j ≠ rd → t.x[j] = s.x[j]) ∧ t.k = s.k ∧ t.ctrl = s.ctrl ∧ t.bitlen = s.bitlen ∧
      t.lastcmd = s.lastcmd ∧ t.status.ovr = s.status.ovr ∧ t.cfg = s.cfg ∧ t.inReset = s.inReset ∧ t.host = s.host ∧
      t.turns = s.turns ∧ t.responses = s.responses ∧
      ((∀ a m, i ≠ .encrypt a m) → t.entropy = s.entropy ∧ t.freeIndex = s.freeIndex) ∧
      (∀ g : Target, g ≠ .status → g ≠ .errcode → (∀ j, g ≠ .xWord rd j) → readTarget t g = readTarget s g) ∧
      (s.x[rd] < 2 ^ s.cfg.width → t.x[rd] < 2 ^ s.cfg.width)

/-- The frame of KEYDERIVE and NOP, which write no X register (R31, R32): all X registers, CTRL, BITLEN, LASTCMD, OVR, the
reset input, the host, its responses, the schedule and the entropy source are unchanged, for NOP the key bank too; every
aperture word reads as before but STATUS, ERRCODE and, for KEYDERIVE, the words of the key windows. -/
def Obligations.FrameOfKeyderiveAndNop : Prop :=
  ∀ (i : Instr) (s t : State), (i = .nop ∨ ∃ p q, i = .keyderive p q) → exec i s = .next t →
    t.x = s.x ∧ t.ctrl = s.ctrl ∧ t.bitlen = s.bitlen ∧ t.lastcmd = s.lastcmd ∧ t.status.ovr = s.status.ovr ∧
      t.cfg = s.cfg ∧ t.inReset = s.inReset ∧ t.host = s.host ∧ t.turns = s.turns ∧ t.responses = s.responses ∧
      t.entropy = s.entropy ∧ t.freeIndex = s.freeIndex ∧ (i = .nop → t.k = s.k) ∧
      (∀ g : Target, g ≠ .status → g ≠ .errcode → (∀ k j, g ≠ .kWord k j) → readTarget t g = readTarget s g)

/-! ### The aperture -/

/-- R72: the aperture map, and its reserved ranges: accepted without a bus error, read 0, writes ignored, no flag set; and
no read anywhere has a side effect (a read moves at most the model's own counter of free values, log 10). -/
def Obligations.ApertureMapIsTheTable : Prop :=
  targetOf 0x00000 = .id ∧ targetOf 0x00004 = .cap ∧ targetOf 0x00008 = .ctrl ∧ targetOf 0x0000C = .status ∧
    targetOf 0x00010 = .cmd ∧ targetOf 0x00014 = .errcode ∧ targetOf 0x00018 = .bitlen ∧ targetOf 0x0001C = .lastcmd ∧
    (∀ (i : XReg) (j : Nat), j < 1024 → targetOf (0x10000 + 0x1000 * i.val + 4 * j) = .xWord i j) ∧
    (∀ (k : KReg) (j : Nat), j < 1024 → targetOf (0x20000 + 0x1000 * k.val + 4 * j) = .kWord k j) ∧
    (∀ off, (0x20 ≤ off ∧ off < 0x10000) ∨ (0x27000 ≤ off ∧ off < 0x40000) →
      targetOf off = .reserved ∧ ∀ (s : State) (v : Word), memWrite s off v = s ∧ memRead s off = (s, 0#32) ∧
        (s.inReset = false → off % 4 = 0 → admission s (s.cfg.base + off) 4 = .accepted off)) ∧
    ∀ (s : State) (off : Nat), (memRead s off).1 = { s with freeIndex := (memRead s off).1.freeIndex }

/-- R76, R49: a host read of an aligned word inside the aperture, the host's next operation, returns the defined value of its
target with no side effect, unless the target is a word of a destination register of the command in flight; then it returns
some value, and only the model's own counter of free values moves (log 10). -/
def Obligations.HostReadReturnsTheRegister : Prop :=
  ∀ (s : State) (off : Nat) (rest : List HostOp), Expected.HostTurn s (.read (s.cfg.base + off) 4) rest →
    off < 0x40000 → off % 4 = 0 →
    let after (v : Word) (f : Nat) : State :=
      { s with host := rest, turns := s.turns.tail, responses := .read v false :: s.responses, freeIndex := f }
    ((∀ S i, s.eng = .busy S → decode S.cmd = .ok i → ¬ Expected.Destination s.cfg i (targetOf off)) →
      step s = .next (after (readTarget s (targetOf off)) s.freeIndex)) ∧
    (∀ S i, s.eng = .busy S → decode S.cmd = .ok i → Expected.Destination s.cfg i (targetOf off) →
      ∃ v, step s = .next (after v (s.freeIndex + 1)))

/-- R77: a host write of an aligned word inside the aperture, the host's next operation, has the write effect of its target,
and the host goes on. (For the words of a big register, j < WORDS, while BUSY; the others are `BusyWritesAreRejected`.) -/
def Obligations.HostWriteActsOnItsTarget : Prop :=
  ∀ (s : State) (off : Nat) (v : Word) (rest : List HostOp),
    Expected.HostTurn s (.write (s.cfg.base + off) 4 v) rest → off < 0x40000 → off % 4 = 0 →
    ∃ u, step s = .next { u with host := rest, turns := s.turns.tail, responses := .write false :: s.responses } ∧
      (targetOf off = .id ∨ targetOf off = .cap ∨ targetOf off = .errcode ∨ targetOf off = .lastcmd ∨
        targetOf off = .reserved → u = s) ∧
      (targetOf off = .ctrl → u = { s with ctrl := ⟨v.getLsbD 0, v.getLsbD 1⟩ }) ∧
      (targetOf off = .status →
        u = { s with
              status := { s.status with
                          done := s.status.done && !v.getLsbD 1, ovr := s.status.ovr && !v.getLsbD 2 } }) ∧
      (s.eng = .idle →
        (targetOf off = .bitlen → u = { s with bitlen := v }) ∧
        (targetOf off = .cmd → u = s.issue v) ∧
        (∀ i j, targetOf off = .xWord i j →
          u = { s with x := s.x.set i (if j < s.cfg.words then
            s.x[i] - s.x[i] / 2 ^ (32 * j) % 2 ^ 32 * 2 ^ (32 * j) + v.toNat * 2 ^ (32 * j) else s.x[i]) }) ∧
        (∀ k j, targetOf off = .kWord k j →
          u = { s with k := s.k.set k (if j < s.cfg.words then
            s.k.get k - s.k.get k / 2 ^ (32 * j) % 2 ^ 32 * 2 ^ (32 * j) + v.toNat * 2 ^ (32 * j) else s.k.get k) })) ∧
      (∀ S, s.eng = .busy S →
        (targetOf off = .bitlen ∨ targetOf off = .cmd ∨ (∃ i j, j < s.cfg.words ∧ targetOf off = .xWord i j) ∨
          ∃ k j, j < s.cfg.words ∧ targetOf off = .kWord k j) → u = { s with status := { s.status with ovr := true } })

/-- R48: while BUSY a write to any word of an X window or of a K window, to BITLEN or to CMD has no effect on its target and
sets OVR; writes to CTRL and STATUS act normally. That a word j ≥ WORDS of a window, which R73 makes RAZ/WI, is one of R48's
"any word" is the model's reading (log 14, DEDUCED). -/
def Obligations.BusyWritesAreRejected : Prop :=
  ∀ (s : State) (S : Snapshot) (v : Word), s.eng = .busy S →
    let rejected := { s with status := { s.status with ovr := true } }
    (∀ (i : XReg) (j : Nat), j < 1024 → memWrite s (0x10000 + 0x1000 * i.val + 4 * j) v = rejected) ∧
    (∀ (k : KReg) (j : Nat), j < 1024 → memWrite s (0x20000 + 0x1000 * k.val + 4 * j) v = rejected) ∧
    memWrite s 0x018 v = rejected ∧ memWrite s 0x010 v = rejected ∧
    memWrite s 0x008 v = { s with ctrl := ⟨v.getLsbD 0, v.getLsbD 1⟩ } ∧
    memWrite s 0x00C v =
      { s with
        status := { s.status with done := s.status.done && !v.getLsbD 1, ovr := s.status.ovr && !v.getLsbD 2 } }

/-- R73, R74: a window is its register's words, low word first. While IDLE a write of word j < WORDS makes that word read
back as written and leaves every other word of the aperture as it was; a word j ≥ WORDS reads 0 and ignores writes. -/
def Obligations.WindowWordsReadBack : Prop :=
  ∀ (s : State) (v : Word) (j : Nat), s.cfg.wf = true → s.eng = .idle → j < 1024 →
    (∀ i : XReg, let t := memWrite s (0x10000 + 0x1000 * i.val + 4 * j) v
      (readTarget s (.xWord i j)).toNat = (if j < s.cfg.words then s.x[i] / 2 ^ (32 * j) % 2 ^ 32 else 0) ∧
      readTarget t (.xWord i j) = (if j < s.cfg.words then v else 0#32) ∧
      (∀ g : Target, g ≠ .xWord i j → readTarget t g = readTarget s g) ∧ (s.cfg.words ≤ j → t = s)) ∧
    (∀ k : KReg, let t := memWrite s (0x20000 + 0x1000 * k.val + 4 * j) v
      (readTarget s (.kWord k j)).toNat = (if j < s.cfg.words then s.k.get k / 2 ^ (32 * j) % 2 ^ 32 else 0) ∧
      readTarget t (.kWord k j) = (if j < s.cfg.words then v else 0#32) ∧
      (∀ g : Target, g ≠ .kWord k j → readTarget t g = readTarget s g) ∧ (s.cfg.words ≤ j → t = s))

/-- R78: an access inside the aperture of another size than 4 bytes, or at an offset that is no multiple of 4, gets a bus
error: no state changes, OVR untouched, and a read returns 0 with the error; the host then takes a fault or goes on, as the
platform's parameter says (log 4, DESIGN CHOICE). An access is inside when its first byte is, so the statement covers one
that straddles the aperture's end, which is the model's reading (log 27, DEDUCED). -/
def Obligations.OtherAccessesGetABusError : Prop :=
  ∀ (s : State) (off size : Nat) (v : Word) (rest : List HostOp), off < 0x40000 → (size ≠ 4 ∨ off % 4 ≠ 0) →
    let answer (r : Response) : Host.Outcome State Fault Refusal :=
      if s.cfg.busErrorFaultsHost then .fault .hostBusError
      else .next { s with host := rest, turns := s.turns.tail, responses := r :: s.responses }
    (Expected.HostTurn s (.read (s.cfg.base + off) size) rest → step s = answer (.read 0#32 true)) ∧
    (Expected.HostTurn s (.write (s.cfg.base + off) size v) rest → step s = answer (.write true))

/-- R38, R39, R42: the bits of CTRL, STATUS and ERRCODE as they read: every defined bit at its place, every reserved bit 0,
and each error code of R180 by its number, in bits [7:0]; no number beyond 0x0B reads. -/
def Obligations.ControlStatusAndErrorBits : Prop :=
  ∀ s : State,
    (readTarget s .ctrl).toNat = s.ctrl.ie.toNat + 2 * s.ctrl.strict.toNat ∧
    (readTarget s .status).toNat =
      s.eng.isBusy.toNat + 2 * s.status.done.toNat + 4 * s.status.ovr.toNat + 256 * s.status.wPt.toNat +
        512 * s.status.wCt.toNat + 1024 * s.status.wK.toNat ∧
    (s.errcode = .ok → readTarget s .errcode = 0x00#32) ∧
    (s.errcode = .illegalCmd → readTarget s .errcode = 0x01#32) ∧
    (s.errcode = .bitlen → readTarget s .errcode = 0x02#32) ∧
    (s.errcode = .key → readTarget s .errcode = 0x03#32) ∧
    (s.errcode = .zeroModulus → readTarget s .errcode = 0x04#32) ∧
    (s.errcode = .resultRange → readTarget s .errcode = 0x05#32) ∧
    (s.errcode = .operand → readTarget s .errcode = 0x06#32) ∧
    (s.errcode = .range → readTarget s .errcode = 0x07#32) ∧
    (s.errcode = .noinvNinv → readTarget s .errcode = 0x08#32) ∧
    (s.errcode = .noinvP2q2 → readTarget s .errcode = 0x09#32) ∧
    (s.errcode = .noinvMu → readTarget s .errcode = 0x0A#32) ∧
    (s.errcode = .zeroBlind → readTarget s .errcode = 0x0B#32) ∧
    (readTarget s .errcode).toNat ≤ 0x0B ∧
    ∀ v : Word, readTarget (memWrite s 0x008 v) .ctrl = v &&& 3#32

/-- R46, R186: `irq` is CTRL.IE and STATUS.DONE as they read; a completion makes it IE, an issue makes it 0, a write of 1 to
STATUS bit 1 makes it 0, and IE = 0 masks it with DONE left pending. -/
def Obligations.InterruptIsEnableAndDone : Prop :=
  ∀ s : State,
    s.irq = ((readTarget s .ctrl).getLsbD 0 && (readTarget s .status).getLsbD 1) ∧
    (∀ i t, exec i s = .next t → t.irq = s.ctrl.ie) ∧
    (∀ v, s.eng = .idle → (memWrite s 0x010 v).irq = false) ∧
    (∀ v : Word, v.getLsbD 1 = true → (memWrite s 0x00C v).irq = false) ∧
    (∀ v : Word, v.getLsbD 0 = false →
      (memWrite s 0x008 v).irq = false ∧ (memWrite s 0x008 v).status.done = s.status.done)

/-! ### Host programs -/

/-- R108, R203: `ldx xi, V` on an idle machine, its schedule spent, loads the whole register in WORDS steps and changes
nothing else of the engine. -/
def Obligations.LdxLoadsTheRegister : Prop :=
  ∀ (s : State) (i : XReg) (v : Nat) (rest : List HostOp), s.cfg.wf = true → s.inReset = false → s.eng = .idle →
    s.turns = [] → v < 2 ^ s.cfg.width → s.x[i] < 2 ^ s.cfg.width → s.host = ldx s.cfg i v ++ rest →
    ∃ rs, Host.Core.run Sys2Proof.core s.cfg.words s = .next { s with x := s.x.set i v, host := rest, responses := rs }

/-- R108: `rdx xi` on an idle machine, its schedule spent, reads WORDS words whose sum is the register's value, and changes
nothing of the engine. -/
def Obligations.RdxReadsTheRegister : Prop :=
  ∀ (s : State) (i : XReg) (rest : List HostOp), s.cfg.wf = true → s.inReset = false → s.eng = .idle → s.turns = [] →
    s.x[i] < 2 ^ s.cfg.width → s.host = rdx s.cfg i ++ rest →
    ∃ ws : List Word, valueOfWords ws = s.x[i] ∧
      Host.Core.run Sys2Proof.core s.cfg.words s =
        .next { s with host := rest, responses := (ws.map fun w => Response.read w false).reverse ++ s.responses }

/-- R89: loading a serialized private key in the source's field order, on an idle machine with its schedule spent, leaves
BITLEN and K0 to K6 holding it and changes nothing else of the engine. -/
def Obligations.PrivateKeyLoadFillsTheBank : Prop :=
  ∀ (s : State) (b : Word) (kb : KeyBank) (rest : List HostOp), s.cfg.wf = true → s.inReset = false → s.eng = .idle →
    s.turns = [] → (∀ k : KReg, kb.get k < 2 ^ s.cfg.width) → (∀ k : KReg, s.k.get k < 2 ^ s.cfg.width) →
    s.host = loadPrivateKey s.cfg b kb ++ rest →
    ∃ rs, Host.Core.run Sys2Proof.core (1 + 7 * s.cfg.words) s =
      .next { s with bitlen := b, k := kb, host := rest, responses := rs }

/-! ### The host's waits, and the inverse -/

/-- The two waits (R84, the host's only synchronisation). `wait` polls STATUS (R108): one read a turn, and it stays the
next operation exactly when the value received has bit 0 set, which out of reset is when a command is in flight. Under
reset the poll is held off, faults the host, or receives 0 and ends the wait, as the platform's parameters say (logs 4,
5; the last is the model's reading, log 28, DEDUCED). `waitIrq` is the model's own operation (logs 3, 7, DESIGN CHOICE);
it ends exactly when `irq` (R186) is high and drives the line waited for. -/
def Obligations.WaitPollsStatusAndWaitIrqWatchesTheLine : Prop :=
  ∀ (s : State) (rest : List HostOp), s.cfg.wf = true → s.nextTurn = .host →
    let goesOn (ops : List HostOp) (rs : List Response) : Host.Outcome State Fault Refusal :=
      .next { s with host := ops, turns := s.turns.tail, responses := rs ++ s.responses }
    (s.host = .wait :: rest →
      (s.inReset = false →
        (∀ S, s.eng = .busy S →
          step s = goesOn (.wait :: rest) [.read (readTarget s .status) false] ∧
            (readTarget s .status).getLsbD 0 = true) ∧
        (s.eng = .idle →
          step s = goesOn rest [.read (readTarget s .status) false] ∧ (readTarget s .status).getLsbD 0 = false)) ∧
      (s.inReset = true →
        step s =
          if s.cfg.resetAccessBusError then
            if s.cfg.busErrorFaultsHost then .fault .hostBusError else goesOn rest [.read 0#32 true]
          else goesOn (.wait :: rest) [])) ∧
    ∀ line : Nat, s.host = .waitIrq line :: rest →
      step s =
        if line = s.cfg.irqLine ∧ s.ctrl.ie = true ∧ s.status.done = true then goesOn rest []
        else goesOn (.waitIrq line :: rest) []

/-- R18: `inv(a, m)` is the unique x in [0, m) with (a·x) mod m = 1, and NONE exactly when gcd(a mod m, m) is not 1. -/
def Obligations.InvIsTheModularInverse : Prop :=
  ∀ a m : Nat, 2 ≤ m →
    (∀ x, inv a m = some x ↔ x < m ∧ a * x % m = 1) ∧
    (∀ x y, x < m → a * x % m = 1 → y < m → a * y % m = 1 → x = y) ∧
    ((∃ x, inv a m = some x) ↔ Nat.gcd (a % m) m = 1) ∧ (inv a m = none ↔ Nat.gcd (a % m) m ≠ 1)
end

