-- ==== Sys2Proof/Laws/Arith.lean ====
section
/-! SUPPORT. What the arithmetic primitives compute: the loops are the power and the inverse of the spec, every result
is in its range, and a word of a big register reads back what was written to it. -/

namespace Sys2Proof.Machine

/-! ### The floored remainder (R15) -/

theorem floorMod_lt (a : Int) {m : Nat} (hm : 0 < m) : floorMod a m < m := by
  unfold floorMod
  have h1 := Int.emod_lt_of_pos a (by exact_mod_cast hm : (0 : Int) < m)
  have h2 := Int.emod_nonneg a (by exact_mod_cast hm.ne' : (m : Int) ≠ 0)
  omega

theorem floorMod_cast (a : Int) {m : Nat} (hm : 0 < m) : (floorMod a m : Int) = a % m :=
  Int.toNat_of_nonneg (Int.emod_nonneg a (by exact_mod_cast hm.ne'))

@[simp] theorem floorMod_natCast (a m : Nat) : floorMod (a : Int) m = a % m := by
  unfold floorMod
  rw [← Int.natCast_emod, Int.toNat_natCast]

/-! ### Modular exponentiation (R16) -/

theorem powLoop_eq (m : Nat) : ∀ (fuel b acc e : Nat), e < 2 ^ fuel → acc % m = acc →
    powLoop m fuel b acc e = acc * b ^ e % m
  | 0, b, acc, e, he, ha => by
    obtain rfl : e = 0 := by simpa using he
    simp [powLoop, ha]
  | fuel + 1, b, acc, e, he, ha => by
    have hhalf : e / 2 < 2 ^ fuel := by rw [pow_succ] at he; omega
    have hsq : (b * b) ^ (e / 2) = b ^ (2 * (e / 2)) := by rw [← pow_two, ← pow_mul]
    rw [powLoop, powLoop_eq m fuel _ _ _ hhalf (by split <;> simp [ha])]
    rcases Nat.mod_two_eq_zero_or_one e with h | h
    · have he2 : 2 * (e / 2) = e := by omega
      rw [if_neg (by omega), Nat.mul_mod, ← Nat.pow_mod, hsq, he2, ← Nat.mul_mod]
    · have he2 : 2 * (e / 2) + 1 = e := by omega
      rw [if_pos h, Nat.mul_mod, ← Nat.pow_mod, Nat.mod_mod, hsq, ← Nat.mul_mod, mul_assoc, ← pow_succ', he2]

/-- `powmod` is R16's power, for every exponent and every modulus. -/
theorem powmod_eq_pow_mod (b e m : Nat) : powmod b e m = b ^ e % m := by
  rw [powmod, powLoop_eq m _ _ _ _ Nat.lt_log2_self (Nat.mod_mod 1 m), Nat.mul_mod, ← Nat.pow_mod, Nat.mod_mod,
    ← Nat.mul_mod, one_mul]

theorem powmod_lt (b e : Nat) {m : Nat} (hm : 0 < m) : powmod b e m < m :=
  powmod_eq_pow_mod b e m ▸ Nat.mod_lt _ hm

/-! ### lcm (R17) -/

theorem lcmNat_eq_natLcm (a b : Nat) : lcmNat a b = Nat.lcm a b := by
  unfold lcmNat gcdNat
  split
  · next h => rcases h with rfl | rfl <;> simp
  · rfl

/-! ### The modular inverse (R18) -/

/-- The loop ends with the greatest common divisor, and its coefficient is a coefficient of `a` modulo `m`. -/
theorem euclidLoop_spec (a m : Nat) : ∀ (fuel r0 r1 : Nat) (t0 t1 : Int), r1 < fuel →
    (m : Int) ∣ r0 - t0 * a → (m : Int) ∣ r1 - t1 * a →
    (euclidLoop fuel r0 r1 t0 t1).1 = Nat.gcd r0 r1 ∧
      (m : Int) ∣ (euclidLoop fuel r0 r1 t0 t1).1 - (euclidLoop fuel r0 r1 t0 t1).2 * a
  | 0, _, _, _, _, hf, _, _ => absurd hf (Nat.not_lt_zero _)
  | fuel + 1, r0, r1, t0, t1, hf, h0, h1 => by
    unfold euclidLoop
    split
    · next hz => subst hz; exact ⟨by simp, h0⟩
    · next hz =>
      have hlt : r0 % r1 < fuel := by have := Nat.mod_lt r0 (Nat.pos_of_ne_zero hz); omega
      have hstep : (m : Int) ∣ ((r0 % r1 : Nat) : Int) - (t0 - ((r0 / r1 : Nat) : Int) * t1) * a := by
        have hdm : ((r0 % r1 : Nat) : Int) = r0 - r1 * ((r0 / r1 : Nat) : Int) := by
          have := Nat.div_add_mod r0 r1
          push_cast
          linarith [Int.emod_add_mul_ediv (r0 : Int) r1]
        have : ((r0 % r1 : Nat) : Int) - (t0 - ((r0 / r1 : Nat) : Int) * t1) * a =
            (r0 - t0 * a) - ((r0 / r1 : Nat) : Int) * (r1 - t1 * a) := by rw [hdm]; ring
        rw [this]
        exact dvd_sub h0 (Dvd.dvd.mul_left h1 _)
      obtain ⟨hg, hd⟩ := euclidLoop_spec a m fuel r1 (r0 % r1) t1 _ hlt h1 hstep
      refine ⟨hg.trans ?_, hd⟩
      rw [Nat.gcd_comm r1, ← Nat.gcd_rec, Nat.gcd_comm]

theorem euclidLoop_inv (a : Nat) {m : Nat} (hm : 0 < m) :
    (euclidLoop (m + 1) m (a % m) 0 1).1 = Nat.gcd (a % m) m ∧
      (m : Int) ∣ (euclidLoop (m + 1) m (a % m) 0 1).1 - (euclidLoop (m + 1) m (a % m) 0 1).2 * a := by
  have h := euclidLoop_spec a m (m + 1) m (a % m) 0 1 (by have := Nat.mod_lt a hm; omega) (by simp)
    (by have := Int.emod_add_mul_ediv (a : Int) m
        exact ⟨-((a : Int) / m), by push_cast; linarith⟩)
  exact ⟨h.1.trans (Nat.gcd_comm _ _), h.2⟩

/-- NONE is answered exactly when R18 says no inverse exists. -/
theorem inv_eq_none_iff (a : Nat) {m : Nat} (hm : 0 < m) : inv a m = none ↔ Nat.gcd (a % m) m ≠ 1 := by
  rw [← (euclidLoop_inv a hm).1, inv]
  split
  next g t h => simp [h]

/-- What is answered is R18's inverse. -/
theorem inv_some (a : Nat) {m x : Nat} (hm : 2 ≤ m) (h : inv a m = some x) : x < m ∧ a * x % m = 1 := by
  obtain ⟨-, hd⟩ := euclidLoop_inv a (by omega : 0 < m)
  unfold inv at h
  split at h
  next g t hgt =>
    rw [hgt] at hd
    split at h
    · next hg =>
      subst hg
      obtain rfl := Option.some.inj h
      refine ⟨floorMod_lt t (by omega), ?_⟩
      have hc := floorMod_cast t (by omega : 0 < m)
      have ht : (floorMod t m : Int) ≡ t [ZMOD m] := by rw [hc]; exact Int.mod_modEq t m
      have h1 : ((a * floorMod t m : Nat) : Int) ≡ 1 [ZMOD m] := by
        push_cast
        exact (ht.mul_left a).trans (Int.modEq_iff_dvd.mpr (by simpa [mul_comm] using hd))
      have h2 : (1 : Int) % m = 1 := Int.emod_eq_of_lt (by norm_num) (by exact_mod_cast hm)
      exact_mod_cast (show ((a * floorMod t m : Nat) : Int) % m = 1 from Eq.trans h1 h2)
    · exact absurd h (by simp)

theorem inv_lt (a : Nat) {m x : Nat} (hm : 0 < m) (h : inv a m = some x) : x < m := by
  unfold inv at h
  split at h
  next g t hgt =>
    split at h
    · obtain rfl := Option.some.inj h
      exact floorMod_lt t hm
    · exact absurd h (by simp)

/-! ### The L-function and crtExp (R19, R20) -/

theorem lFunction_lt (u nInv b : Nat) : lFunction u nInv b < 2 ^ b := floorMod_lt _ (Nat.two_pow_pos b)

theorem crtExp_lt (base expP expQ pInvQ : Nat) {p q : Nat} (hp : 0 < p) (hq : 0 < q) :
    crtExp base expP expQ pInvQ p q < p * q := floorMod_lt _ (Nat.mul_pos hp hq)

/-- With coprime moduli, one exponent and the right coefficient, Garner's recombination is the direct power (R21). -/
theorem crtExp_eq_pow_mod (base e pInvQ : Nat) {p q : Nat} (hp : 1 ≤ p) (hq : 1 ≤ q) (hg : Nat.Coprime p q)
    (hi : p * pInvQ ≡ 1 [MOD q]) : crtExp base e e pInvQ p q = base ^ e % (p * q) := by
  have hpq : 0 < p * q := Nat.mul_pos hp hq
  have hz : ((crtExp base e e pInvQ p q : Nat) : Int) ≡
      ((base ^ e % p : Nat) : Int) + (p : Int) * pInvQ * (((base ^ e % q : Nat) : Int) - ((base ^ e % p : Nat) : Int))
        [ZMOD ((p * q : Nat) : Int)] := by
    unfold crtExp
    simp only [powmod_eq_pow_mod, ← Nat.pow_mod]
    rw [floorMod_cast _ hpq]
    exact Int.mod_modEq _ _
  have lane : ∀ m : Nat, ((base ^ e % m : Nat) : Int) ≡ ((base ^ e : Nat) : Int) [ZMOD m] := fun m => by
    rw [Int.natCast_mod]
    exact Int.mod_modEq _ _
  have key : crtExp base e e pInvQ p q ≡ base ^ e [MOD p * q] := by
    rw [← Nat.modEq_and_modEq_iff_modEq_mul hg, ← Int.natCast_modEq_iff, ← Int.natCast_modEq_iff]
    constructor
    · refine (hz.of_dvd (by push_cast; exact Dvd.intro _ rfl)).trans ?_
      have h0 : (p : Int) * pInvQ * (((base ^ e % q : Nat) : Int) - ((base ^ e % p : Nat) : Int)) ≡ 0 [ZMOD p] :=
        Int.modEq_zero_iff_dvd.mpr (by rw [mul_assoc]; exact Dvd.intro _ rfl)
      simpa using (lane p).add h0
    · refine (hz.of_dvd (by push_cast; exact Dvd.intro_left _ rfl)).trans ?_
      have h1 : (p : Int) * pInvQ ≡ 1 [ZMOD q] := by exact_mod_cast Int.natCast_modEq_iff.mpr hi
      have h2 := (h1.mul_right (((base ^ e % q : Nat) : Int) - ((base ^ e % p : Nat) : Int))).add_left
        ((base ^ e % p : Nat) : Int)
      exact h2.trans (by simpa using lane q)
  rw [← Nat.mod_eq_of_lt (crtExp_lt base e e pInvQ hp hq)]
  exact key

/-- L of `1 + d·n` is `d`, when `nInv` inverts `n` modulo `2^b` and `d < 2^b` (R19). -/
theorem lFunction_one_add_mul {n nInv b d : Nat} (hn : n * nInv ≡ 1 [MOD 2 ^ b]) (hd : d < 2 ^ b) :
    lFunction (1 + d * n) nInv b = d := by
  have e : (((1 + d * n : Nat) : Int) - 1) * (nInv : Int) = ((d * n * nInv : Nat) : Int) := by push_cast; ring
  have h := hn.mul_left d
  rw [mul_one, ← mul_assoc] at h
  rw [lFunction, e, floorMod_natCast, h, Nat.mod_eq_of_lt hd]

/-! ### Words of a big register (R73, R75) -/

theorem wordAt_toNat (v j : Nat) : (wordAt v j).toNat = v / 2 ^ (32 * j) % 2 ^ 32 := by
  simp [wordAt, bits]

/-- A register is its high part, its word `j` and its low part. -/
theorem split_at_word (v j : Nat) :
    v = v / 2 ^ (32 * (j + 1)) * 2 ^ (32 * (j + 1)) + (wordAt v j).toNat * 2 ^ (32 * j) + v % 2 ^ (32 * j) := by
  have h1 := Nat.div_add_mod v (2 ^ (32 * j))
  have h2 := Nat.div_add_mod (v / 2 ^ (32 * j)) (2 ^ 32)
  have e : 2 ^ (32 * (j + 1)) = 2 ^ (32 * j) * 2 ^ 32 := by rw [← pow_add]; ring_nf
  rw [wordAt_toNat, e, ← Nat.div_div_eq_div_mul]
  generalize v / 2 ^ (32 * j) = d at *
  have h3 : d / 2 ^ 32 * (2 ^ (32 * j) * 2 ^ 32) + d % 2 ^ 32 * 2 ^ (32 * j) = 2 ^ (32 * j) * d := by
    conv_rhs => rw [← h2]
    ring
  omega

theorem setWordAt_eq (v j : Nat) (w : Word) :
    setWordAt v j w = v / 2 ^ (32 * (j + 1)) * 2 ^ (32 * (j + 1)) + w.toNat * 2 ^ (32 * j) + v % 2 ^ (32 * j) := by
  have hb : bits v (32 * j + 31) (32 * j) = (wordAt v j).toNat := by
    rw [wordAt_toNat, bits]; congr 2; omega
  have h := split_at_word v j
  unfold setWordAt
  rw [hb]
  omega

/-- A write of word `j` below WORDS keeps a register within W bits (R79). -/
theorem setWordAt_lt {v j n : Nat} (w : Word) (hv : v < 2 ^ (32 * n)) (hj : j < n) : setWordAt v j w < 2 ^ (32 * n) := by
  have e1 : 2 ^ (32 * (j + 1)) = 2 ^ (32 * j) * 2 ^ 32 := by rw [← pow_add]; ring_nf
  obtain ⟨d, rfl⟩ : ∃ d, n = j + 1 + d := ⟨n - (j + 1), by omega⟩
  have e2 : 2 ^ (32 * (j + 1 + d)) = 2 ^ (32 * (j + 1)) * 2 ^ (32 * d) := by rw [← pow_add]; ring_nf
  have hlow : v % 2 ^ (32 * j) < 2 ^ (32 * j) := Nat.mod_lt _ (by positivity)
  have hhigh : v / 2 ^ (32 * (j + 1)) < 2 ^ (32 * d) :=
    Nat.div_lt_of_lt_mul (by rw [← e2]; exact hv)
  rw [setWordAt_eq, e2]
  have hw : w.toNat * 2 ^ (32 * j) + v % 2 ^ (32 * j) < 2 ^ (32 * (j + 1)) := by
    have hw : (w.toNat + 1) * 2 ^ (32 * j) ≤ 2 ^ 32 * 2 ^ (32 * j) := Nat.mul_le_mul_right _ w.isLt
    rw [Nat.add_mul, one_mul] at hw
    rw [e1, mul_comm (2 ^ (32 * j))]
    omega
  have : (v / 2 ^ (32 * (j + 1)) + 1) * 2 ^ (32 * (j + 1)) ≤ 2 ^ (32 * d) * 2 ^ (32 * (j + 1)) :=
    Nat.mul_le_mul_right _ hhigh
  nlinarith

/-- The low words of a register after a write of word `j` (R73). -/
theorem setWordAt_mod (v j : Nat) (w : Word) : setWordAt v j w % 2 ^ (32 * j) = v % 2 ^ (32 * j) := by
  have e : v / 2 ^ (32 * (j + 1)) * 2 ^ (32 * (j + 1)) + w.toNat * 2 ^ (32 * j) + v % 2 ^ (32 * j) =
      v % 2 ^ (32 * j) + 2 ^ (32 * j) * (v / 2 ^ (32 * (j + 1)) * 2 ^ 32 + w.toNat) := by
    have : 2 ^ (32 * (j + 1)) = 2 ^ (32 * j) * 2 ^ 32 := by rw [← pow_add]; ring_nf
    rw [this]; ring
  rw [setWordAt_eq, e, Nat.add_mul_mod_self_left, Nat.mod_mod]

/-- Word `j` and the words above it after a write of word `j` (R73). -/
theorem setWordAt_div (v j : Nat) (w : Word) :
    setWordAt v j w / 2 ^ (32 * j) = v / 2 ^ (32 * (j + 1)) * 2 ^ 32 + w.toNat := by
  have e : v / 2 ^ (32 * (j + 1)) * 2 ^ (32 * (j + 1)) + w.toNat * 2 ^ (32 * j) + v % 2 ^ (32 * j) =
      v % 2 ^ (32 * j) + 2 ^ (32 * j) * (v / 2 ^ (32 * (j + 1)) * 2 ^ 32 + w.toNat) := by
    have : 2 ^ (32 * (j + 1)) = 2 ^ (32 * j) * 2 ^ 32 := by rw [← pow_add]; ring_nf
    rw [this]; ring
  rw [setWordAt_eq, e, Nat.add_mul_div_left _ _ (by positivity), Nat.div_eq_of_lt (Nat.mod_lt _ (by positivity)),
    Nat.zero_add]

/-- The written word reads back (R73). -/
theorem wordAt_setWordAt_same (v j : Nat) (w : Word) : wordAt (setWordAt v j w) j = w := by
  apply BitVec.eq_of_toNat_eq
  rw [wordAt_toNat, setWordAt_div, Nat.mul_add_mod', Nat.mod_eq_of_lt w.isLt]

/-- Every other word is as before (R73). -/
theorem wordAt_setWordAt_ne (v : Nat) {j k : Nat} (w : Word) (h : k ≠ j) : wordAt (setWordAt v j w) k = wordAt v k := by
  apply BitVec.eq_of_toNat_eq
  rw [wordAt_toNat, wordAt_toNat]
  rcases Nat.lt_or_gt_of_ne h with hl | hl
  · obtain ⟨d, rfl⟩ : ∃ d, j = k + 1 + d := ⟨j - k - 1, by omega⟩
    have low : ∀ x, x / 2 ^ (32 * k) % 2 ^ 32 = x % 2 ^ (32 * (k + 1 + d)) / 2 ^ (32 * k) % 2 ^ 32 := fun x => by
      have e : 2 ^ (32 * (k + 1 + d)) = 2 ^ (32 * k) * (2 ^ 32 * 2 ^ (32 * d)) := by
        rw [← pow_add, ← pow_add]; congr 1; ring
      rw [e, Nat.mod_mul_right_div_self, Nat.mod_mul_right_mod]
    rw [low, setWordAt_mod, ← low]
  · obtain ⟨d, rfl⟩ : ∃ d, k = j + 1 + d := ⟨k - j - 1, by omega⟩
    have high : ∀ x, x / 2 ^ (32 * (j + 1 + d)) = x / 2 ^ (32 * j) / 2 ^ 32 / 2 ^ (32 * d) := fun x => by
      rw [Nat.div_div_eq_div_mul, Nat.div_div_eq_div_mul, ← pow_add, ← pow_add]; congr 2; ring
    have e : v / 2 ^ (32 * (j + 1)) = v / 2 ^ (32 * j) / 2 ^ 32 := by
      rw [Nat.div_div_eq_div_mul, ← pow_add]; congr 2
    rw [high, high, setWordAt_div, e]
    congr 2
    rw [mul_comm, Nat.mul_add_div (by norm_num), Nat.div_eq_of_lt w.isLt, Nat.add_zero]

end Sys2Proof.Machine
end

