-- ==== Sys2Proof/Laws/State.lean ====
section
/-! SUPPORT. One lemma per field per update of State, true by rfl, so that no later proof unfolds a record update. -/

namespace Sys2Proof.Machine

/-! ### Names for one update -/

@[simp] theorem errorCompletion_eq_finish (s : State) (e : ErrCode) (w : Warns) : s.errorCompletion e w = s.finish e w :=
  rfl

@[simp] theorem completeNone_eq_finish (s : State) : s.completeNone = s.finish .ok Warns.none := rfl

/-! ### `issue` -/

@[simp] theorem issue_cfg (s : State) (v : Word) : (s.issue v).cfg = s.cfg := rfl
@[simp] theorem issue_x (s : State) (v : Word) : (s.issue v).x = s.x := rfl
@[simp] theorem issue_k (s : State) (v : Word) : (s.issue v).k = s.k := rfl
@[simp] theorem issue_ctrl (s : State) (v : Word) : (s.issue v).ctrl = s.ctrl := rfl
@[simp] theorem issue_status (s : State) (v : Word) : (s.issue v).status = clearForIssue s.status := rfl
@[simp] theorem issue_errcode (s : State) (v : Word) : (s.issue v).errcode = .ok := rfl
@[simp] theorem issue_bitlen (s : State) (v : Word) : (s.issue v).bitlen = s.bitlen := rfl
@[simp] theorem issue_lastcmd (s : State) (v : Word) : (s.issue v).lastcmd = v := rfl
@[simp] theorem issue_eng (s : State) (v : Word) : (s.issue v).eng = .busy (s.snapshot v) := rfl
@[simp] theorem issue_inReset (s : State) (v : Word) : (s.issue v).inReset = s.inReset := rfl
@[simp] theorem issue_host (s : State) (v : Word) : (s.issue v).host = s.host := rfl
@[simp] theorem issue_turns (s : State) (v : Word) : (s.issue v).turns = s.turns := rfl
@[simp] theorem issue_responses (s : State) (v : Word) : (s.issue v).responses = s.responses := rfl
@[simp] theorem issue_entropy (s : State) (v : Word) : (s.issue v).entropy = s.entropy := rfl
@[simp] theorem issue_freeIndex (s : State) (v : Word) : (s.issue v).freeIndex = s.freeIndex := rfl

/-! ### `finish` -/

@[simp] theorem finish_cfg (s : State) (e : ErrCode) (w : Warns) : (s.finish e w).cfg = s.cfg := rfl
@[simp] theorem finish_x (s : State) (e : ErrCode) (w : Warns) : (s.finish e w).x = s.x := rfl
@[simp] theorem finish_k (s : State) (e : ErrCode) (w : Warns) : (s.finish e w).k = s.k := rfl
@[simp] theorem finish_ctrl (s : State) (e : ErrCode) (w : Warns) : (s.finish e w).ctrl = s.ctrl := rfl
@[simp] theorem finish_status (s : State) (e : ErrCode) (w : Warns) : (s.finish e w).status = setForCompletion w s.status := rfl
@[simp] theorem finish_errcode (s : State) (e : ErrCode) (w : Warns) : (s.finish e w).errcode = e := rfl
@[simp] theorem finish_bitlen (s : State) (e : ErrCode) (w : Warns) : (s.finish e w).bitlen = s.bitlen := rfl
@[simp] theorem finish_lastcmd (s : State) (e : ErrCode) (w : Warns) : (s.finish e w).lastcmd = s.lastcmd := rfl
@[simp] theorem finish_eng (s : State) (e : ErrCode) (w : Warns) : (s.finish e w).eng = .idle := rfl
@[simp] theorem finish_inReset (s : State) (e : ErrCode) (w : Warns) : (s.finish e w).inReset = s.inReset := rfl
@[simp] theorem finish_host (s : State) (e : ErrCode) (w : Warns) : (s.finish e w).host = s.host := rfl
@[simp] theorem finish_turns (s : State) (e : ErrCode) (w : Warns) : (s.finish e w).turns = s.turns := rfl
@[simp] theorem finish_responses (s : State) (e : ErrCode) (w : Warns) : (s.finish e w).responses = s.responses := rfl
@[simp] theorem finish_entropy (s : State) (e : ErrCode) (w : Warns) : (s.finish e w).entropy = s.entropy := rfl
@[simp] theorem finish_freeIndex (s : State) (e : ErrCode) (w : Warns) : (s.finish e w).freeIndex = s.freeIndex := rfl

/-! ### `completeX` -/

@[simp] theorem completeX_cfg (s : State) (rd : XReg) (v : Nat) (w : Warns) : (s.completeX rd v w).cfg = s.cfg := rfl
@[simp] theorem completeX_x (s : State) (rd : XReg) (v : Nat) (w : Warns) : (s.completeX rd v w).x = s.x.set rd v := rfl
@[simp] theorem completeX_k (s : State) (rd : XReg) (v : Nat) (w : Warns) : (s.completeX rd v w).k = s.k := rfl
@[simp] theorem completeX_ctrl (s : State) (rd : XReg) (v : Nat) (w : Warns) : (s.completeX rd v w).ctrl = s.ctrl := rfl
@[simp] theorem completeX_status (s : State) (rd : XReg) (v : Nat) (w : Warns) : (s.completeX rd v w).status = setForCompletion w s.status := rfl
@[simp] theorem completeX_errcode (s : State) (rd : XReg) (v : Nat) (w : Warns) : (s.completeX rd v w).errcode = .ok := rfl
@[simp] theorem completeX_bitlen (s : State) (rd : XReg) (v : Nat) (w : Warns) : (s.completeX rd v w).bitlen = s.bitlen := rfl
@[simp] theorem completeX_lastcmd (s : State) (rd : XReg) (v : Nat) (w : Warns) : (s.completeX rd v w).lastcmd = s.lastcmd := rfl
@[simp] theorem completeX_eng (s : State) (rd : XReg) (v : Nat) (w : Warns) : (s.completeX rd v w).eng = .idle := rfl
@[simp] theorem completeX_inReset (s : State) (rd : XReg) (v : Nat) (w : Warns) : (s.completeX rd v w).inReset = s.inReset := rfl
@[simp] theorem completeX_host (s : State) (rd : XReg) (v : Nat) (w : Warns) : (s.completeX rd v w).host = s.host := rfl
@[simp] theorem completeX_turns (s : State) (rd : XReg) (v : Nat) (w : Warns) : (s.completeX rd v w).turns = s.turns := rfl
@[simp] theorem completeX_responses (s : State) (rd : XReg) (v : Nat) (w : Warns) : (s.completeX rd v w).responses = s.responses := rfl
@[simp] theorem completeX_entropy (s : State) (rd : XReg) (v : Nat) (w : Warns) : (s.completeX rd v w).entropy = s.entropy := rfl
@[simp] theorem completeX_freeIndex (s : State) (rd : XReg) (v : Nat) (w : Warns) : (s.completeX rd v w).freeIndex = s.freeIndex := rfl

/-! ### `completeKeys` -/

@[simp] theorem completeKeys_cfg (s : State) (kb : KeyBank) : (s.completeKeys kb).cfg = s.cfg := rfl
@[simp] theorem completeKeys_x (s : State) (kb : KeyBank) : (s.completeKeys kb).x = s.x := rfl
@[simp] theorem completeKeys_k (s : State) (kb : KeyBank) : (s.completeKeys kb).k = kb := rfl
@[simp] theorem completeKeys_ctrl (s : State) (kb : KeyBank) : (s.completeKeys kb).ctrl = s.ctrl := rfl
@[simp] theorem completeKeys_status (s : State) (kb : KeyBank) : (s.completeKeys kb).status = setForCompletion Warns.none s.status := rfl
@[simp] theorem completeKeys_errcode (s : State) (kb : KeyBank) : (s.completeKeys kb).errcode = .ok := rfl
@[simp] theorem completeKeys_bitlen (s : State) (kb : KeyBank) : (s.completeKeys kb).bitlen = s.bitlen := rfl
@[simp] theorem completeKeys_lastcmd (s : State) (kb : KeyBank) : (s.completeKeys kb).lastcmd = s.lastcmd := rfl
@[simp] theorem completeKeys_eng (s : State) (kb : KeyBank) : (s.completeKeys kb).eng = .idle := rfl
@[simp] theorem completeKeys_inReset (s : State) (kb : KeyBank) : (s.completeKeys kb).inReset = s.inReset := rfl
@[simp] theorem completeKeys_host (s : State) (kb : KeyBank) : (s.completeKeys kb).host = s.host := rfl
@[simp] theorem completeKeys_turns (s : State) (kb : KeyBank) : (s.completeKeys kb).turns = s.turns := rfl
@[simp] theorem completeKeys_responses (s : State) (kb : KeyBank) : (s.completeKeys kb).responses = s.responses := rfl
@[simp] theorem completeKeys_entropy (s : State) (kb : KeyBank) : (s.completeKeys kb).entropy = s.entropy := rfl
@[simp] theorem completeKeys_freeIndex (s : State) (kb : KeyBank) : (s.completeKeys kb).freeIndex = s.freeIndex := rfl

/-! ### `takeDraw` -/

@[simp] theorem takeDraw_cfg (s : State) : s.takeDraw.cfg = s.cfg := rfl
@[simp] theorem takeDraw_x (s : State) : s.takeDraw.x = s.x := rfl
@[simp] theorem takeDraw_k (s : State) : s.takeDraw.k = s.k := rfl
@[simp] theorem takeDraw_ctrl (s : State) : s.takeDraw.ctrl = s.ctrl := rfl
@[simp] theorem takeDraw_status (s : State) : s.takeDraw.status = s.status := rfl
@[simp] theorem takeDraw_errcode (s : State) : s.takeDraw.errcode = s.errcode := rfl
@[simp] theorem takeDraw_bitlen (s : State) : s.takeDraw.bitlen = s.bitlen := rfl
@[simp] theorem takeDraw_lastcmd (s : State) : s.takeDraw.lastcmd = s.lastcmd := rfl
@[simp] theorem takeDraw_eng (s : State) : s.takeDraw.eng = s.eng := rfl
@[simp] theorem takeDraw_inReset (s : State) : s.takeDraw.inReset = s.inReset := rfl
@[simp] theorem takeDraw_host (s : State) : s.takeDraw.host = s.host := rfl
@[simp] theorem takeDraw_turns (s : State) : s.takeDraw.turns = s.turns := rfl
@[simp] theorem takeDraw_responses (s : State) : s.takeDraw.responses = s.responses := rfl
@[simp] theorem takeDraw_entropy (s : State) : s.takeDraw.entropy = s.entropy.tail := rfl
@[simp] theorem takeDraw_freeIndex (s : State) : s.takeDraw.freeIndex = s.freeIndex + 1 := rfl

/-! ### `assertReset` -/

@[simp] theorem assertReset_cfg (s : State) : s.assertReset.cfg = s.cfg := rfl
@[simp] theorem assertReset_x (s : State) : s.assertReset.x = s.x := rfl
@[simp] theorem assertReset_k (s : State) : s.assertReset.k = s.k := rfl
@[simp] theorem assertReset_ctrl (s : State) : s.assertReset.ctrl = s.ctrl := rfl
@[simp] theorem assertReset_status (s : State) : s.assertReset.status = s.status := rfl
@[simp] theorem assertReset_errcode (s : State) : s.assertReset.errcode = s.errcode := rfl
@[simp] theorem assertReset_bitlen (s : State) : s.assertReset.bitlen = s.bitlen := rfl
@[simp] theorem assertReset_lastcmd (s : State) : s.assertReset.lastcmd = s.lastcmd := rfl
@[simp] theorem assertReset_eng (s : State) : s.assertReset.eng = s.eng := rfl
@[simp] theorem assertReset_inReset (s : State) : s.assertReset.inReset = true := rfl
@[simp] theorem assertReset_host (s : State) : s.assertReset.host = s.host := rfl
@[simp] theorem assertReset_turns (s : State) : s.assertReset.turns = s.turns := rfl
@[simp] theorem assertReset_responses (s : State) : s.assertReset.responses = s.responses := rfl
@[simp] theorem assertReset_entropy (s : State) : s.assertReset.entropy = s.entropy := rfl
@[simp] theorem assertReset_freeIndex (s : State) : s.assertReset.freeIndex = s.freeIndex := rfl

/-! ### `resetEngine` -/

@[simp] theorem resetEngine_cfg (s : State) : s.resetEngine.cfg = s.cfg := rfl
@[simp] theorem resetEngine_x (s : State) : s.resetEngine.x = Vector.replicate 16 0 := rfl
@[simp] theorem resetEngine_k (s : State) : s.resetEngine.k = KeyBank.zero := rfl
@[simp] theorem resetEngine_ctrl (s : State) : s.resetEngine.ctrl = ⟨false, false⟩ := rfl
@[simp] theorem resetEngine_status (s : State) : s.resetEngine.status = ⟨false, false, false, false, false⟩ := rfl
@[simp] theorem resetEngine_errcode (s : State) : s.resetEngine.errcode = .ok := rfl
@[simp] theorem resetEngine_bitlen (s : State) : s.resetEngine.bitlen = 0#32 := rfl
@[simp] theorem resetEngine_lastcmd (s : State) : s.resetEngine.lastcmd = 0#32 := rfl
@[simp] theorem resetEngine_eng (s : State) : s.resetEngine.eng = .idle := rfl
@[simp] theorem resetEngine_inReset (s : State) : s.resetEngine.inReset = s.inReset := rfl
@[simp] theorem resetEngine_host (s : State) : s.resetEngine.host = s.host := rfl
@[simp] theorem resetEngine_turns (s : State) : s.resetEngine.turns = s.turns := rfl
@[simp] theorem resetEngine_responses (s : State) : s.resetEngine.responses = s.responses := rfl
@[simp] theorem resetEngine_entropy (s : State) : s.resetEngine.entropy = s.entropy := rfl
@[simp] theorem resetEngine_freeIndex (s : State) : s.resetEngine.freeIndex = s.freeIndex := rfl

/-! ### `popTurn` -/

@[simp] theorem popTurn_cfg (s : State) : s.popTurn.cfg = s.cfg := rfl
@[simp] theorem popTurn_x (s : State) : s.popTurn.x = s.x := rfl
@[simp] theorem popTurn_k (s : State) : s.popTurn.k = s.k := rfl
@[simp] theorem popTurn_ctrl (s : State) : s.popTurn.ctrl = s.ctrl := rfl
@[simp] theorem popTurn_status (s : State) : s.popTurn.status = s.status := rfl
@[simp] theorem popTurn_errcode (s : State) : s.popTurn.errcode = s.errcode := rfl
@[simp] theorem popTurn_bitlen (s : State) : s.popTurn.bitlen = s.bitlen := rfl
@[simp] theorem popTurn_lastcmd (s : State) : s.popTurn.lastcmd = s.lastcmd := rfl
@[simp] theorem popTurn_eng (s : State) : s.popTurn.eng = s.eng := rfl
@[simp] theorem popTurn_inReset (s : State) : s.popTurn.inReset = s.inReset := rfl
@[simp] theorem popTurn_host (s : State) : s.popTurn.host = s.host := rfl
@[simp] theorem popTurn_turns (s : State) : s.popTurn.turns = s.turns.tail := rfl
@[simp] theorem popTurn_responses (s : State) : s.popTurn.responses = s.responses := rfl
@[simp] theorem popTurn_entropy (s : State) : s.popTurn.entropy = s.entropy := rfl
@[simp] theorem popTurn_freeIndex (s : State) : s.popTurn.freeIndex = s.freeIndex := rfl

/-! ### `respond` -/

@[simp] theorem respond_cfg (s : State) (r : Response) : (s.respond r).cfg = s.cfg := rfl
@[simp] theorem respond_x (s : State) (r : Response) : (s.respond r).x = s.x := rfl
@[simp] theorem respond_k (s : State) (r : Response) : (s.respond r).k = s.k := rfl
@[simp] theorem respond_ctrl (s : State) (r : Response) : (s.respond r).ctrl = s.ctrl := rfl
@[simp] theorem respond_status (s : State) (r : Response) : (s.respond r).status = s.status := rfl
@[simp] theorem respond_errcode (s : State) (r : Response) : (s.respond r).errcode = s.errcode := rfl
@[simp] theorem respond_bitlen (s : State) (r : Response) : (s.respond r).bitlen = s.bitlen := rfl
@[simp] theorem respond_lastcmd (s : State) (r : Response) : (s.respond r).lastcmd = s.lastcmd := rfl
@[simp] theorem respond_eng (s : State) (r : Response) : (s.respond r).eng = s.eng := rfl
@[simp] theorem respond_inReset (s : State) (r : Response) : (s.respond r).inReset = s.inReset := rfl
@[simp] theorem respond_host (s : State) (r : Response) : (s.respond r).host = s.host := rfl
@[simp] theorem respond_turns (s : State) (r : Response) : (s.respond r).turns = s.turns := rfl
@[simp] theorem respond_responses (s : State) (r : Response) : (s.respond r).responses = r :: s.responses := rfl
@[simp] theorem respond_entropy (s : State) (r : Response) : (s.respond r).entropy = s.entropy := rfl
@[simp] theorem respond_freeIndex (s : State) (r : Response) : (s.respond r).freeIndex = s.freeIndex := rfl

/-! ### `hostRest` -/

@[simp] theorem hostRest_cfg (s : State) (rest : List HostOp) : (s.hostRest rest).cfg = s.cfg := rfl
@[simp] theorem hostRest_x (s : State) (rest : List HostOp) : (s.hostRest rest).x = s.x := rfl
@[simp] theorem hostRest_k (s : State) (rest : List HostOp) : (s.hostRest rest).k = s.k := rfl
@[simp] theorem hostRest_ctrl (s : State) (rest : List HostOp) : (s.hostRest rest).ctrl = s.ctrl := rfl
@[simp] theorem hostRest_status (s : State) (rest : List HostOp) : (s.hostRest rest).status = s.status := rfl
@[simp] theorem hostRest_errcode (s : State) (rest : List HostOp) : (s.hostRest rest).errcode = s.errcode := rfl
@[simp] theorem hostRest_bitlen (s : State) (rest : List HostOp) : (s.hostRest rest).bitlen = s.bitlen := rfl
@[simp] theorem hostRest_lastcmd (s : State) (rest : List HostOp) : (s.hostRest rest).lastcmd = s.lastcmd := rfl
@[simp] theorem hostRest_eng (s : State) (rest : List HostOp) : (s.hostRest rest).eng = s.eng := rfl
@[simp] theorem hostRest_inReset (s : State) (rest : List HostOp) : (s.hostRest rest).inReset = s.inReset := rfl
@[simp] theorem hostRest_host (s : State) (rest : List HostOp) : (s.hostRest rest).host = rest := rfl
@[simp] theorem hostRest_turns (s : State) (rest : List HostOp) : (s.hostRest rest).turns = s.turns := rfl
@[simp] theorem hostRest_responses (s : State) (rest : List HostOp) : (s.hostRest rest).responses = s.responses := rfl
@[simp] theorem hostRest_entropy (s : State) (rest : List HostOp) : (s.hostRest rest).entropy = s.entropy := rfl
@[simp] theorem hostRest_freeIndex (s : State) (rest : List HostOp) : (s.hostRest rest).freeIndex = s.freeIndex := rfl

/-! ### The flag updates -/

@[simp] theorem setForCompletion_done (w : Warns) (st : Status) : (setForCompletion w st).done = true := rfl
@[simp] theorem setForCompletion_ovr (w : Warns) (st : Status) : (setForCompletion w st).ovr = st.ovr := rfl
@[simp] theorem setForCompletion_wPt (w : Warns) (st : Status) : (setForCompletion w st).wPt = w.wPt := rfl
@[simp] theorem setForCompletion_wCt (w : Warns) (st : Status) : (setForCompletion w st).wCt = w.wCt := rfl
@[simp] theorem setForCompletion_wK (w : Warns) (st : Status) : (setForCompletion w st).wK = w.wK := rfl
@[simp] theorem clearForIssue_done (st : Status) : (clearForIssue st).done = false := rfl
@[simp] theorem clearForIssue_ovr (st : Status) : (clearForIssue st).ovr = st.ovr := rfl
@[simp] theorem clearForIssue_wPt (st : Status) : (clearForIssue st).wPt = false := rfl
@[simp] theorem clearForIssue_wCt (st : Status) : (clearForIssue st).wCt = false := rfl
@[simp] theorem clearForIssue_wK (st : Status) : (clearForIssue st).wK = false := rfl
@[simp] theorem writeOneToClear_wPt (v : Word) (st : Status) : (writeOneToClear v st).wPt = st.wPt := rfl
@[simp] theorem writeOneToClear_wCt (v : Word) (st : Status) : (writeOneToClear v st).wCt = st.wCt := rfl
@[simp] theorem writeOneToClear_wK (v : Word) (st : Status) : (writeOneToClear v st).wK = st.wK := rfl
@[simp] theorem setOverrun_done (st : Status) : (setOverrun st).done = st.done := rfl
@[simp] theorem setOverrun_ovr (st : Status) : (setOverrun st).ovr = true := rfl
@[simp] theorem setOverrun_wPt (st : Status) : (setOverrun st).wPt = st.wPt := rfl
@[simp] theorem setOverrun_wCt (st : Status) : (setOverrun st).wCt = st.wCt := rfl
@[simp] theorem setOverrun_wK (st : Status) : (setOverrun st).wK = st.wK := rfl
@[simp] theorem isBusy_idle : Eng.idle.isBusy = false := rfl
@[simp] theorem isBusy_busy (S : Snapshot) : (Eng.busy S).isBusy = true := rfl

/-! ### The register files -/

@[simp] theorem keyBank_get_set (kb : KeyBank) (k l : KReg) (v : Nat) :
    (kb.set k v).get l = if l = k then v else kb.get l := by
  fin_cases k <;> fin_cases l <;> rfl

theorem keyBank_zero_get (k : KReg) : KeyBank.zero.get k = 0 := by fin_cases k <;> rfl

theorem x_set_get (x : Vector Nat 16) (i j : XReg) (v : Nat) :
    (x.set i v)[j] = if j = i then v else x[j] := by
  by_cases h : j = i
  · subst h; simp
  · have hv : i.val ≠ j.val := fun e => h (Fin.ext e.symm)
    simp [h, hv]

end Sys2Proof.Machine
end

