-- ==== Sys2Proof/Laws/Aperture.lean ====
section
/-! SUPPORT. What a host access can do to the engine: one inversion lemma for reads and one for writes, and where the
offsets of the windows lead. -/

namespace Sys2Proof.Machine

/-! ### The address map (R72 to R74) -/

/-- At or above 0x10000 the map has its two windows and the last reserved range, and no register of the CSR page. -/
theorem targetOf_windows {off : Nat} (h : 0x10000 ≤ off) :
    targetOf off =
      if off < 0x20000 then .xWord (Fin.ofNat 16 (off / 0x1000 - 0x10)) (off % 0x1000 / 4)
      else if off < 0x27000 then .kWord (Fin.ofNat 7 (off / 0x1000 - 0x20)) (off % 0x1000 / 4)
      else .reserved := by
  have notCsr : ∀ a, a < 0x10000 → off ≠ a := fun a ha e => absurd h (by omega)
  simp [targetOf, notCsr, h]

theorem targetOf_xOffset (i : XReg) {j : Nat} (hj : j < 1024) : targetOf (xOffset i j) = .xWord i j := by
  have hi := i.isLt
  unfold xOffset
  rw [targetOf_windows (by omega)]
  split
  · congr 1
    · exact Fin.ext (by simp only [Fin.ofNat]; omega)
    · omega
  · omega

theorem targetOf_kOffset (k : KReg) {j : Nat} (hj : j < 1024) : targetOf (kOffset k j) = .kWord k j := by
  have hk := k.isLt
  unfold kOffset
  rw [targetOf_windows (by omega)]
  split
  · omega
  · split
    · congr 1
      · exact Fin.ext (by simp only [Fin.ofNat]; omega)
      · omega
    · omega

/-! ### Reads (R76) -/

/-- A read leaves the state alone, but for the model's counter of free values when its value is unspecified. -/
theorem memRead_cases (s : State) (off : Nat) :
    (readIsUnspecified s (targetOf off) = false ∧ memRead s off = (s, readTarget s (targetOf off))) ∨
      (readIsUnspecified s (targetOf off) = true ∧ s.eng.isBusy = true ∧
        memRead s off = ({ s with freeIndex := s.freeIndex + 1 }, Config.unspecifiedRead s.freeIndex)) := by
  unfold memRead
  cases h : readIsUnspecified s (targetOf off) with
  | false => exact .inl ⟨rfl, by simp⟩
  | true =>
    refine .inr ⟨rfl, ?_, by simp⟩
    unfold readIsUnspecified at h
    split at h
    · exact absurd h (by simp)
    · next S hS => simp [hS]

/-! ### Writes (R77) -/

theorem whenIdle_idle {s : State} (h : s.eng = .idle) (t : State) : whenIdle s t = t := by simp [whenIdle, h]

theorem whenIdle_busy {s : State} {S : Snapshot} (h : s.eng = .busy S) (t : State) :
    whenIdle s t = { s with status := setOverrun s.status } := by simp [whenIdle, h]

/-- The effects a host write of `v` can have (R77, R80). -/
inductive HostWrites (s : State) (v : Word) : State → Prop
  | ignored : HostWrites s v s
  | ctrl : HostWrites s v { s with ctrl := ctrlOfWord v }
  | status : HostWrites s v { s with status := writeOneToClear v s.status }
  | rejected (S : Snapshot) (h : s.eng = .busy S) : HostWrites s v { s with status := setOverrun s.status }
  | issued (h : s.eng = .idle) : HostWrites s v (s.issue v)
  | bitlen (h : s.eng = .idle) : HostWrites s v { s with bitlen := v }
  | xWord (h : s.eng = .idle) (i : XReg) (j : Nat) (hj : j < s.cfg.words) :
      HostWrites s v { s with x := s.x.set i (setWordAt s.x[i] j v) }
  | kWord (h : s.eng = .idle) (k : KReg) (j : Nat) (hj : j < s.cfg.words) :
      HostWrites s v { s with k := s.k.set k (setWordAt (s.k.get k) j v) }

theorem hostWrites_whenIdle {s t : State} {v : Word} (h : s.eng = .idle → HostWrites s v t) :
    HostWrites s v (whenIdle s t) := by
  cases hE : s.eng with
  | idle => rw [whenIdle_idle hE]; exact h hE
  | busy S => rw [whenIdle_busy hE]; exact .rejected S hE

/-- While BUSY a write to any word of a window sets OVR and changes nothing else (R48). -/
theorem whenRegisterWord_busy {s : State} {S : Snapshot} (h : s.eng = .busy S) (j : Nat) (t : State) :
    whenRegisterWord s j t = { s with status := setOverrun s.status } := whenIdle_busy h _

/-- While IDLE a word of the register is written, and a word beyond it ignores the write (R73, R74). -/
theorem whenRegisterWord_idle {s : State} (h : s.eng = .idle) (j : Nat) (t : State) :
    whenRegisterWord s j t = if j < s.cfg.words then t else s := whenIdle_idle h _

theorem hostWrites_whenRegisterWord {s t : State} {v : Word} {j : Nat}
    (h : s.eng = .idle → j < s.cfg.words → HostWrites s v t) : HostWrites s v (whenRegisterWord s j t) := by
  refine hostWrites_whenIdle fun hE => ?_
  split
  · next hj => exact h hE hj
  · exact .ignored

/-- A host write has one of those effects. -/
theorem memWrite_cases (s : State) (off : Nat) (v : Word) : HostWrites s v (memWrite s off v) := by
  unfold memWrite
  split
  · exact .ignored
  · exact .ignored
  · exact .ctrl
  · exact .status
  · exact hostWrites_whenIdle .issued
  · exact .ignored
  · exact hostWrites_whenIdle .bitlen
  · exact .ignored
  · exact hostWrites_whenRegisterWord fun h => .xWord h _ _
  · exact hostWrites_whenRegisterWord fun h => .kWord h _ _
  · exact .ignored

/-- A window write keeps a register within W bits (R73, R79), the parameters being legal. -/
theorem setWordAt_lt_width {c : Params} (hc : c.wf = true) {v : Nat} (hv : v < 2 ^ c.width) {j : Nat}
    (hj : j < c.words) (w : Word) : setWordAt v j w < 2 ^ c.width := by
  have hw : c.width = 32 * c.words := by
    simp only [Params.wf, Bool.and_eq_true, beq_iff_eq, decide_eq_true_eq] at hc
    unfold Params.words Params.width
    omega
  rw [hw] at hv ⊢
  exact setWordAt_lt w hv hj

end Sys2Proof.Machine
end

