-- ==== Sys2Proof/Laws/Decode.lean ====
section
/-! SUPPORT. Fields and words: a command word is exactly its eight fields, and the opcode map is a bijection. -/

namespace Sys2Proof

theorem nibble_ofFin (f : Fin 16) : (BitVec.ofFin (w := 4) f).toFin = f := rfl

/-- The fields read from an assembled word are the fields it was assembled from (R101). -/
theorem fieldsOf_wordOf (f : Fields) : fieldsOf (wordOf f) = f := by
  have key : ∀ (a b c d e g h i : BitVec 4),
      let w : Word := a ++ b ++ c ++ d ++ e ++ g ++ h ++ i
      w.extractLsb' 28 4 = a ∧ w.extractLsb' 24 4 = b ∧ w.extractLsb' 20 4 = c ∧ w.extractLsb' 16 4 = d ∧
        w.extractLsb' 12 4 = e ∧ w.extractLsb' 8 4 = g ∧ w.extractLsb' 4 4 = h ∧ w.extractLsb' 0 4 = i := by
    intro a b c d e g h i w
    refine ⟨?_, ?_, ?_, ?_, ?_, ?_, ?_, ?_⟩ <;>
    · ext k hk
      simp only [w, BitVec.getElem_extractLsb', BitVec.getLsbD_append]
      have h4 : k < 4 := hk
      interval_cases k <;> simp
  obtain ⟨h0, h1, h2, h3, h4, h5, h6, h7⟩ := key (BitVec.ofFin f.op) (BitVec.ofFin f.rd) (BitVec.ofFin f.rs1)
    (BitVec.ofFin f.rs2) (BitVec.ofFin f.rs3) (BitVec.ofFin f.rs4) (BitVec.ofFin f.rs5) (BitVec.ofFin f.rs6)
  unfold fieldsOf wordOf
  rw [h0, h1, h2, h3, h4, h5, h6, h7]

/-- A word is assembled from its fields (R101). -/
theorem wordOf_fieldsOf (w : Word) : wordOf (fieldsOf w) = w := by
  have e : ∀ v : BitVec 4, BitVec.ofFin (w := 4) v.toFin = v := fun _ => rfl
  simp only [wordOf, fieldsOf, e]
  ext k hk
  simp only [BitVec.getElem_append, BitVec.getElem_extractLsb']
  have h32 : k < 32 := hk
  interval_cases k <;> simp [BitVec.getLsbD_eq_getElem]

theorem opcodeOf_opcodeNumber (o : Opcode) : opcodeOf (opcodeNumber o) = some o := by cases o <;> rfl

theorem opcodeNumber_of_opcodeOf {op : Fin 16} {o : Opcode} (h : opcodeOf op = some o) : opcodeNumber o = op := by
  revert h; fin_cases op <;> cases o <;> decide

/-- The four bytes of a word decode to the word's command and leave the rest of the stream (R75 (c), R100). -/
theorem decodeBytes_bytesOf (w : Word) (rest : List Byte) :
    decodeBytes (bytesOf w ++ rest) =
      match decode w with
      | .ok i => .ok (i, rest)
      | .error e => .error e := by
  have h : (w.extractLsb' 24 8 ++ w.extractLsb' 16 8 ++ w.extractLsb' 8 8 ++ w.extractLsb' 0 8 : Word) = w := by
    ext k hk
    simp only [BitVec.getElem_append, BitVec.getElem_extractLsb']
    have h32 : k < 32 := hk
    interval_cases k <;> simp [BitVec.getLsbD_eq_getElem]
  change (match decode (w.extractLsb' 24 8 ++ w.extractLsb' 16 8 ++ w.extractLsb' 8 8 ++ w.extractLsb' 0 8) with
    | .ok i => Except.ok (i, rest)
    | .error e => Except.error e) = _
  rw [h]

end Sys2Proof
end

