-- ==== Sys2Proof/Laws/Ops.lean ====
section
/-! SUPPORT. What a command can do: one inversion lemma for `exec`, from which the invariants and frames follow, and
the ranges of the results (R123). -/

namespace Sys2Proof.Machine

/-! ### Ranges of the results (R123, R183) -/

/-- A value below `2^b` fits half a register when BITLEN is legal. -/
theorem two_pow_le_of_bitlenOk {c : Params} {b : Nat} (hb : BitlenOk c b) : 2 ^ b ≤ 2 ^ c.nmax :=
  Nat.pow_le_pow_right (by norm_num) hb.2

theorem two_pow_le_width {c : Params} {b : Nat} (hb : BitlenOk c b) : 2 ^ b ≤ 2 ^ c.width :=
  (two_pow_le_of_bitlenOk hb).trans (Nat.pow_le_pow_right (by norm_num) (by unfold Params.width; omega))

/-- `n < 2^BITLEN` gives `n² ≤ 2^W` (R183). -/
theorem sq_le_width {c : Params} {b n : Nat} (hb : BitlenOk c b) (hn : n < 2 ^ b) : n * n ≤ 2 ^ c.width := by
  have h : n ≤ 2 ^ c.nmax := hn.le.trans (two_pow_le_of_bitlenOk hb)
  calc n * n ≤ 2 ^ c.nmax * 2 ^ c.nmax := Nat.mul_le_mul h h
    _ = 2 ^ c.width := by rw [← pow_add, Params.width, two_mul]

theorem cipher_lt (r m : Nat) {n : Nat} (hn : 1 ≤ n) : cipher r m n < n * n := Nat.mod_lt _ (by nlinarith)

theorem plain_lt (c : Nat) (kb : KeyBank) (b : Nat) (hn : 1 ≤ kb.n) : plain c kb b < kb.n := Nat.mod_lt _ hn

/-- The ranges of a derived key's fields (R123): every field but NINV is below `n²`, and NINV, the inverse modulo `2^b` of
step 3, is below `2^b` (R141, R18; log 29). -/
theorem deriveKey_ranges {p q b : Nat} {kb : KeyBank} (hp : 2 ≤ p) (hq : 2 ≤ q) (h : deriveKey p q b = .ok kb) :
    kb.nInv < 2 ^ b ∧ ∀ k : KReg, k ≠ 5 → kb.get k < p * q * (p * q) := by
  unfold deriveKey at h
  split at h
  · exact absurd h (by simp)
  next nInv hNinv =>
    split at h
    · exact absurd h (by simp)
    next p2invq2 hP2 =>
      split at h
      · exact absurd h (by simp)
      next mu hMu =>
        obtain rfl := Except.ok.inj h
        refine ⟨inv_lt _ (by positivity) hNinv, fun k hk => ?_⟩
        have hpq : 0 < p * q := Nat.mul_pos (by omega) (by omega)
        have hpn : p < p * q := lt_mul_of_one_lt_right (by omega) hq
        have hqn : q < p * q := lt_mul_of_one_lt_left (by omega) hp
        have hnn : p * q < p * q * (p * q) := lt_mul_of_one_lt_right hpq (by omega)
        have hq2 : q * q < p * q * (p * q) := Nat.mul_lt_mul'' hqn hqn
        have hlam : lcmNat (p - 1) (q - 1) ≤ p * q := by
          rw [lcmNat_eq_natLcm]
          exact (Nat.le_of_dvd (Nat.mul_pos (by omega) (by omega)) (Nat.lcm_dvd_mul _ _)).trans
            (Nat.mul_le_mul (by omega) (by omega))
        fin_cases k
        · exact hlam.trans_lt hnn
        · exact (inv_lt _ hpq hMu).trans hnn
        · exact Nat.mul_lt_mul'' hpn hpn
        · exact hq2
        · exact (inv_lt _ (Nat.mul_pos (by omega) (by omega)) hP2).trans hq2
        · exact absurd rfl hk
        · exact hnn

/-- So every field of a derived key is below `2^b · 2^b`, which is at most `2^W` (R123). -/
theorem deriveKey_lt {p q b : Nat} {kb : KeyBank} (hp : 2 ≤ p) (hq : 2 ≤ q) (hn : p * q < 2 ^ b)
    (h : deriveKey p q b = .ok kb) (k : KReg) : kb.get k < 2 ^ b * 2 ^ b := by
  obtain ⟨hNinv, hk⟩ := deriveKey_ranges hp hq h
  by_cases h5 : k = 5
  · subst h5
    exact hNinv.trans_le (Nat.le_mul_of_pos_left _ (by positivity))
  · exact (hk k h5).trans (Nat.mul_lt_mul'' hn hn)

/-- The only errors the derivation itself raises (R141, R184). -/
theorem deriveKey_error {p q b : Nat} {e : ErrCode} (h : deriveKey p q b = .error e) :
    e = .noinvNinv ∨ e = .noinvP2q2 ∨ e = .noinvMu := by
  unfold deriveKey at h
  split at h
  · exact .inl (Except.error.inj h).symm
  · split at h
    · exact .inr (.inl (Except.error.inj h).symm)
    · split at h
      · exact .inr (.inr (Except.error.inj h).symm)
      · exact absurd h (by simp)

/-! ### What a completion can be -/

/-- The state a command `i` can leave from `s` (R117): an error completion, never with ILLEGAL_CMD (R105), and with the
warnings its code admits (R182, R184); or a success with its destination written and the result in range. ENCRYPT may have
taken its draw. -/
inductive Completes (i : Instr) (s : State) : State → Prop
  | error (s0 : State) (e : ErrCode) (w : Warns) (hs : s0 = s ∨ s0 = s.takeDraw) (he : e ≠ .ok)
      (hill : e ≠ .illegalCmd) (hrange : e = .range → w.any = true)
      (hblind : e = .zeroBlind → w.wCt = false ∧ w.wK = false)
      (hearly : e ≠ .range → e ≠ .zeroBlind → w = Warns.none) : Completes i s (s0.finish e w)
  | none (hx : destX i = none) (hk : destKeys i = false) : Completes i s (s.finish .ok Warns.none)
  | result (s0 : State) (rd : XReg) (v : Nat) (w : Warns) (hs : s0 = s ∨ s0 = s.takeDraw)
      (hd : destX i = some rd) (hv : v < 2 ^ s.cfg.width) : Completes i s (s0.completeX rd v w)
  | keys (kb : KeyBank) (hd : destKeys i = true) (hk : ∀ k, kb.get k < 2 ^ s.cfg.width) :
      Completes i s (s.completeKeys kb)

/-- Every meaning runs on the snapshot in flight, and answers a next state exactly when there is one (R117). -/
theorem inFlight_eq_next {s t : State} {run : Snapshot → State} :
    s.inFlight run = .next t ↔ ∃ S, s.eng = .busy S ∧ run S = t := by
  unfold State.inFlight
  split
  · next h => simp [h]
  · next S h => simp [h]

theorem inFlight_busy {s : State} {S : Snapshot} (h : s.eng = .busy S) (run : Snapshot → State) :
    s.inFlight run = .next (run S) := by simp [State.inFlight, h]

theorem strictRejects_any {S : Snapshot} {w : Warns} (h : strictRejects S w = true) : w.any = true := by
  revert h; unfold strictRejects; cases S.strict <;> simp

/-- A plain error before any warning. -/
theorem Completes.early {i : Instr} {s : State} {e : ErrCode} (he : e ≠ .ok ∧ e ≠ .illegalCmd) (hr : e ≠ .range) :
    Completes i s (s.errorCompletion e Warns.none) :=
  .error s e _ (.inl rfl) he.1 he.2 (fun h => absurd h hr) (fun _ => ⟨rfl, rfl⟩) (fun _ _ => rfl)

/-- The strict policy's error. -/
theorem Completes.rejected {i : Instr} {s : State} {S : Snapshot} {w : Warns} (h : strictRejects S w = true) :
    Completes i s (s.errorCompletion .range w) :=
  .error s _ w (.inl rfl) (by decide) (by decide) (fun _ => strictRejects_any h) (fun h => absurd h (by decide))
    (fun h => absurd rfl h)

/-- `exec` answers a next state exactly while BUSY, and that state is a completion of the command. -/
theorem exec_next_cases {i : Instr} {s t : State} (h : exec i s = .next t) :
    ∃ S, s.eng = .busy S ∧ Completes i s t := by
  cases i with
  | nop =>
    obtain ⟨S, hS, rfl⟩ := inFlight_eq_next.mp h
    exact ⟨S, hS, .none rfl rfl⟩
  | crtexp rd base expP expQ pInvQ p q =>
    obtain ⟨S, hS, rfl⟩ := inFlight_eq_next.mp h
    refine ⟨S, hS, ?_⟩
    split
    · exact .early (by decide) (by decide)
    next hz =>
      split
      · exact .early (by decide) (by decide)
      next hw =>
        exact .result s rd _ _ (.inl rfl) rfl
          (lt_of_lt_of_le (crtExp_lt _ _ _ _ (by omega) (by omega)) (by omega))
  | lfunc rd u =>
    obtain ⟨S, hS, rfl⟩ := inFlight_eq_next.mp h
    refine ⟨S, hS, ?_⟩
    split
    · exact .early (by decide) (by decide)
    next hb =>
      exact .result s rd _ _ (.inl rfl) rfl
        (lt_of_lt_of_le (lFunction_lt _ _ _) (two_pow_le_width (not_not.mp hb)))
  | keyderive p q =>
    obtain ⟨S, hS, rfl⟩ := inFlight_eq_next.mp h
    refine ⟨S, hS, ?_⟩
    split
    · exact .early (by decide) (by decide)
    next hb =>
      split
      · exact .early (by decide) (by decide)
      next ho =>
        split
        · exact .early (by decide) (by decide)
        next hk =>
          split
          · next e he =>
            rcases deriveKey_error he with rfl | rfl | rfl <;> exact .early (by decide) (by decide)
          · next kb hkb =>
            have hb := not_not.mp hb
            refine .keys kb rfl fun k => lt_of_lt_of_le
              (deriveKey_lt (by omega) (by omega) (by omega) hkb k) ?_
            have h2 := two_pow_le_of_bitlenOk hb
            calc 2 ^ S.b * 2 ^ S.b ≤ 2 ^ s.cfg.nmax * 2 ^ s.cfg.nmax := Nat.mul_le_mul h2 h2
              _ = 2 ^ s.cfg.width := by rw [← pow_add, Params.width, two_mul]
  | encrypt rd m =>
    obtain ⟨S, hS, rfl⟩ := inFlight_eq_next.mp h
    refine ⟨S, hS, ?_⟩
    split
    · exact .early (by decide) (by decide)
    next hb =>
      split
      · exact .early (by decide) (by decide)
      next hk =>
        split
        · next hr => exact .rejected hr
        · split
          · exact .error s.takeDraw _ _ (.inr rfl) (by decide) (by decide) (fun h => absurd h (by decide))
              (fun _ => ⟨rfl, rfl⟩) (fun _ h => absurd rfl h)
          · have hk := not_not.mp hk
            exact .result s.takeDraw rd _ _ (.inr rfl) rfl
              (lt_of_lt_of_le (cipher_lt _ _ hk.1) (sq_le_width (not_not.mp hb) hk.2))
  | decrypt rd c =>
    obtain ⟨S, hS, rfl⟩ := inFlight_eq_next.mp h
    refine ⟨S, hS, ?_⟩
    split
    · exact .early (by decide) (by decide)
    next hb =>
      split
      · exact .early (by decide) (by decide)
      next hk =>
        split
        · exact .early (by decide) (by decide)
        · split
          · next hr => exact .rejected hr
          · have hk := not_not.mp hk
            exact .result s rd _ _ (.inl rfl) rfl
              (lt_of_lt_of_le ((plain_lt _ _ _ hk.1).trans hk.2) (two_pow_le_width (not_not.mp hb)))
  | hadd rd c1 c2 =>
    obtain ⟨S, hS, rfl⟩ := inFlight_eq_next.mp h
    refine ⟨S, hS, ?_⟩
    split
    · exact .early (by decide) (by decide)
    next hb =>
      split
      · exact .early (by decide) (by decide)
      next hk =>
        split
        · next hr => exact .rejected hr
        · have hk := not_not.mp hk
          exact .result s rd _ _ (.inl rfl) rfl
            (lt_of_lt_of_le (Nat.mod_lt _ (Nat.mul_pos hk.1 hk.1)) (sq_le_width (not_not.mp hb) hk.2))
  | hmul rd c1 k =>
    obtain ⟨S, hS, rfl⟩ := inFlight_eq_next.mp h
    refine ⟨S, hS, ?_⟩
    split
    · exact .early (by decide) (by decide)
    next hb =>
      split
      · exact .early (by decide) (by decide)
      next hk =>
        split
        · next hr => exact .rejected hr
        · have hk := not_not.mp hk
          exact .result s rd _ _ (.inl rfl) rfl
            (lt_of_lt_of_le (powmod_lt _ _ (Nat.mul_pos hk.1 hk.1)) (sq_le_width (not_not.mp hb) hk.2))

end Sys2Proof.Machine
end

