-- ==== Sys2Proof/Laws/PerInstr.lean ====
section
/-! SUPPORT. Statements for every command, made per command. -/

/-! ### `TableRow`: the encoding of a command matches its own row of the opcode table, and its unused fields are zero
(R102, R104). -/

namespace Sys2Proof.Laws.TableRow

/-- The word of `i` is its row's match value under the row's mask, and its fields are well formed in its format. -/
def Statement (i : Instr) : Prop :=
  encode i &&& matchMask i.opcode = matchValue i.opcode ∧
    i.opcode.format.mustBeZeroClear (fieldsOf (encode i)) = true

/-- A word's bits under a mask of whole nibbles, nibble by nibble. -/
theorem wordOf_and (a b c d e f g h a' b' c' d' e' f' g' h' : BitVec 4) :
    ((a ++ b ++ c ++ d ++ e ++ f ++ g ++ h : Word) &&& (a' ++ b' ++ c' ++ d' ++ e' ++ f' ++ g' ++ h' : Word)) =
      ((a &&& a') ++ (b &&& b') ++ (c &&& c') ++ (d &&& d') ++ (e &&& e') ++ (f &&& f') ++ (g &&& g') ++
        (h &&& h') : Word) := by
  simp only [BitVec.and_append]

theorem fields_wf (i : Instr) : i.opcode.format.mustBeZeroClear (fieldsOf (encode i)) = true := by
  rw [encode, fieldsOf_wordOf]
  cases i <;> rfl

theorem nop : Statement .nop := ⟨by decide, fields_wf _⟩

theorem crtexp (rd base expP expQ pInvQ p q : XReg) : Statement (.crtexp rd base expP expQ pInvQ p q) := by
  refine ⟨?_, fields_wf _⟩
  have h := wordOf_and 1#4 (BitVec.ofFin rd) (BitVec.ofFin base) (BitVec.ofFin expP) (BitVec.ofFin expQ)
    (BitVec.ofFin pInvQ) (BitVec.ofFin p) (BitVec.ofFin q) 15#4 0#4 0#4 0#4 0#4 0#4 0#4 0#4
  simp only [BitVec.and_zero] at h
  exact h

theorem format_r1 (o : Fin 16) (rd rs1 : XReg) :
    wordOf ⟨o, rd, rs1, 0, 0, 0, 0, 0⟩ &&& 0xF00FFFFF#32 = wordOf ⟨o, 0, 0, 0, 0, 0, 0, 0⟩ := by
  have h := wordOf_and (BitVec.ofFin o) (BitVec.ofFin rd) (BitVec.ofFin rs1) 0#4 0#4 0#4 0#4 0#4
    15#4 0#4 0#4 15#4 15#4 15#4 15#4 15#4
  simp only [BitVec.and_zero, show (15#4 : BitVec 4) = BitVec.allOnes 4 from rfl,
    BitVec.and_allOnes] at h
  exact h

theorem format_r2 (o : Fin 16) (rd rs1 rs2 : XReg) :
    wordOf ⟨o, rd, rs1, rs2, 0, 0, 0, 0⟩ &&& 0xF000FFFF#32 = wordOf ⟨o, 0, 0, 0, 0, 0, 0, 0⟩ := by
  have h := wordOf_and (BitVec.ofFin o) (BitVec.ofFin rd) (BitVec.ofFin rs1) (BitVec.ofFin rs2) 0#4 0#4 0#4 0#4
    15#4 0#4 0#4 0#4 15#4 15#4 15#4 15#4
  simp only [BitVec.and_zero, show (15#4 : BitVec 4) = BitVec.allOnes 4 from rfl,
    BitVec.and_allOnes] at h
  exact h

theorem lfunc (rd u : XReg) : Statement (.lfunc rd u) := ⟨(format_r1 2 rd u).trans rfl, fields_wf _⟩

theorem keyderive (p q : XReg) : Statement (.keyderive p q) := by
  refine ⟨?_, fields_wf _⟩
  have h := wordOf_and 3#4 0#4 (BitVec.ofFin p) (BitVec.ofFin q) 0#4 0#4 0#4 0#4
    15#4 15#4 0#4 0#4 15#4 15#4 15#4 15#4
  simp only [BitVec.and_zero, BitVec.zero_and] at h
  exact h

theorem encrypt (rd m : XReg) : Statement (.encrypt rd m) := ⟨(format_r1 4 rd m).trans rfl, fields_wf _⟩

theorem decrypt (rd c : XReg) : Statement (.decrypt rd c) := ⟨(format_r1 5 rd c).trans rfl, fields_wf _⟩

theorem hadd (rd c1 c2 : XReg) : Statement (.hadd rd c1 c2) := ⟨(format_r2 6 rd c1 c2).trans rfl, fields_wf _⟩

theorem hmul (rd c1 k : XReg) : Statement (.hmul rd c1 k) := ⟨(format_r2 7 rd c1 k).trans rfl, fields_wf _⟩

end Sys2Proof.Laws.TableRow
end

