-- ==== Sys2Proof/Laws/Step.lean ====
section
/-! SUPPORT. What one step can do: one inversion lemma for `step`, from which the machine's invariants follow. -/

namespace Sys2Proof.Machine

/-- What the turn of an agent can make of a state `s` (R82). -/
inductive Moves (s : State) : State → Prop
  /-- nothing: no operation, an access held off, a wait that goes on, an engine with no step -/
  | stays : Moves s s
  /-- a read of a defined value, or a poll of `wait` -/
  | read (v : Word) (rest : List HostOp) : Moves s ((s.respond (.read v false)).hostRest rest)
  /-- a read of an unspecified value -/
  | readFree (v : Word) (rest : List HostOp) :
      Moves s (({ s with freeIndex := s.freeIndex + 1 }.respond (.read v false)).hostRest rest)
  /-- a write -/
  | write (v : Word) (u : State) (rest : List HostOp) (hr : s.inReset = false) (h : HostWrites s v u) :
      Moves s ((u.respond (.write false)).hostRest rest)
  /-- an ignored bus error -/
  | busError (r : Response) (rest : List HostOp) : Moves s ((s.hostRest rest).respond r)
  /-- the awaited interrupt is high -/
  | irqSeen (rest : List HostOp) : Moves s (s.hostRest rest)
  /-- the completion of a command -/
  | completes (S : Snapshot) (i : Instr) (t : State) (hr : s.inReset = false) (hS : s.eng = .busy S)
      (hd : decode S.cmd = .ok i) (hx : exec i s = .next t) (h : Completes i s t) : Moves s t
  /-- the completion of an illegal word -/
  | illegal (S : Snapshot) (e : Illegal) (hr : s.inReset = false) (hS : s.eng = .busy S)
      (hd : decode S.cmd = .error e) : Moves s (s.finish .illegalCmd Warns.none)
  | assertReset : Moves s s.assertReset
  | releaseReset : Moves s s.releaseReset

theorem hostReadThen_moves {s t : State} {addr size : Nat} {goesOn : Word → List HostOp}
    (h : hostReadThen s addr size goesOn = .next t) : Moves s t := by
  unfold hostReadThen at h
  split at h
  · exact absurd h (by simp)
  · obtain rfl := Host.Outcome.next.inj h
    exact .stays
  · unfold State.busError at h
    split at h
    · exact absurd h (by simp)
    · obtain rfl := Host.Outcome.next.inj h
      exact .busError _ _
  · next off _ =>
    obtain rfl := Host.Outcome.next.inj h
    rcases memRead_cases s off with ⟨-, hm⟩ | ⟨-, -, hm⟩ <;> rw [hm]
    · exact .read _ _
    · exact .readFree _ _

theorem hostWrite_moves {s t : State} {addr size : Nat} {v : Word} {rest : List HostOp}
    (h : hostWrite s addr size v rest = .next t) : Moves s t := by
  unfold hostWrite at h
  split at h
  · exact absurd h (by simp)
  · obtain rfl := Host.Outcome.next.inj h
    exact .stays
  · unfold State.busError at h
    split at h
    · exact absurd h (by simp)
    · obtain rfl := Host.Outcome.next.inj h
      exact .busError _ _
  · next off ha =>
    obtain rfl := Host.Outcome.next.inj h
    refine .write v _ _ ?_ (memWrite_cases s off v)
    unfold admission at ha
    cases hr : s.inReset with
    | false => rfl
    | true =>
      rw [hr] at ha
      split at ha
      · exact absurd ha (by simp)
      · split at ha <;> split at ha <;> simp_all

theorem hostStep_moves {s t : State} (h : hostStep s = .next t) : Moves s t := by
  unfold hostStep at h
  split at h
  · obtain rfl := Host.Outcome.next.inj h
    exact .stays
  · exact hostReadThen_moves h
  · exact hostWrite_moves h
  · exact hostReadThen_moves h
  · obtain rfl := Host.Outcome.next.inj h
    split
    · exact .irqSeen _
    · exact .stays

theorem engineStep_moves {s t : State} (h : engineStep s = .next t) : Moves s t := by
  unfold engineStep at h
  split at h
  · obtain rfl := Host.Outcome.next.inj h
    exact .stays
  next hr =>
    split at h
    · obtain rfl := Host.Outcome.next.inj h
      exact .stays
    next S hS =>
      split at h
      · next i hi =>
        obtain ⟨-, -, hc⟩ := exec_next_cases h
        exact .completes S i t (by simpa using hr) hS hi h hc
      · next e he =>
        obtain rfl := Host.Outcome.next.inj h
        exact .illegal S e (by simpa using hr) hS he

/-- A step that answers a next state pops the turn and makes one of the moves; the parameters are then legal. -/
theorem step_next_cases {s t : State} (h : step s = .next t) : s.cfg.wf = true ∧ Moves s.popTurn t := by
  unfold step at h
  split at h
  · next hc =>
    refine ⟨hc, ?_⟩
    split at h
    · exact hostStep_moves h
    · exact engineStep_moves h
    · obtain rfl := Host.Outcome.next.inj h
      exact .assertReset
    · obtain rfl := Host.Outcome.next.inj h
      exact .releaseReset
  · exact absurd h (by simp)

end Sys2Proof.Machine
end

