-- ==== Sys2Proof/Tests/Slice0.lean ====
section
/-! SUPPORT. The model's own tests: well-formedness smoke tests, written-out words, one-step tests whose expected
results are the vectors of spec/95_test_vectors.md, and a witness for the hypotheses of every obligation that has any. -/

open Sys2Proof Sys2Proof.Machine

/-! ### A small machine (NMAX = 16, so W = 32 and WORDS = 1) -/

/-- The parameters of the vectors. -/
def Sys2Proof.Tests.cfg16 : Params := { referenceParams with nmax := 16 }

/-- NMAX = 64, so W = 128 and WORDS = 4. -/
def Sys2Proof.Tests.cfg64 : Params := { referenceParams with nmax := 64 }

/-- Key K1 of spec/95_test_vectors.md. -/
def Sys2Proof.Tests.keyK1 : KeyBank := ⟨60, 31, 121, 169, 88, 111, 143⟩

/-- A machine with key K1 and the operands of the vectors in X0 to X15. -/
def Sys2Proof.Tests.kit : State :=
  { State.reset with
    cfg := Tests.cfg16
    x := #v[42, 11, 13, 9637, 7301, 3, 287, 7, 10, 6, 0, 200, 20449, 65537, 1, 5]
    k := Tests.keyK1
    bitlen := 8#32
    entropy := [23, 166] }

/-- The kit under the strict policy. -/
def Sys2Proof.Tests.strictKit : State := { Tests.kit with ctrl := ⟨false, true⟩ }

/-- A command word in flight, the engine's turn next. -/
def Sys2Proof.Tests.flying (s : State) (w : Word) : State := { s.issue w with turns := [.engine] }

/-- The host's turn next, with these operations. -/
def Sys2Proof.Tests.hosting (s : State) (ops : List HostOp) : State := { s with host := ops, turns := [.host] }

/-- The state a step answers. -/
def Sys2Proof.Tests.after (o : Host.Outcome State Fault Refusal) : State :=
  match o with
  | .next t => t
  | .fault _ => State.reset
  | .refused _ => State.reset

/-- One completion of a command word on a machine. -/
def Sys2Proof.Tests.done (s : State) (w : Word) : State := Tests.after (step (Tests.flying s w))

namespace Sys2Proof.Tests

/-! ### Well-formedness refuses each ill-formed term (R8, R71, R102) -/

theorem test_wf_z_rd : Format.z.mustBeZeroClear ⟨0, 1, 0, 0, 0, 0, 0, 0⟩ = false := by decide
theorem test_wf_z_rs1 : Format.z.mustBeZeroClear ⟨0, 0, 1, 0, 0, 0, 0, 0⟩ = false := by decide
theorem test_wf_z_rs6 : Format.z.mustBeZeroClear ⟨0, 0, 0, 0, 0, 0, 0, 1⟩ = false := by decide
theorem test_wf_z_middle :
    Format.z.mustBeZeroClear ⟨0, 0, 0, 1, 0, 0, 0, 0⟩ = false ∧ Format.z.mustBeZeroClear ⟨0, 0, 0, 0, 1, 0, 0, 0⟩ = false ∧
      Format.z.mustBeZeroClear ⟨0, 0, 0, 0, 0, 1, 0, 0⟩ = false ∧
      Format.z.mustBeZeroClear ⟨0, 0, 0, 0, 0, 0, 1, 0⟩ = false := by decide
theorem test_wf_r1 :
    Format.r1.mustBeZeroClear ⟨2, 1, 1, 1, 0, 0, 0, 0⟩ = false ∧ Format.r1.mustBeZeroClear ⟨2, 1, 1, 0, 1, 0, 0, 0⟩ = false ∧
      Format.r1.mustBeZeroClear ⟨2, 1, 1, 0, 0, 1, 0, 0⟩ = false ∧
      Format.r1.mustBeZeroClear ⟨2, 1, 1, 0, 0, 0, 1, 0⟩ = false ∧
      Format.r1.mustBeZeroClear ⟨2, 1, 1, 0, 0, 0, 0, 1⟩ = false := by decide
theorem test_wf_r2 :
    Format.r2.mustBeZeroClear ⟨6, 1, 1, 1, 1, 0, 0, 0⟩ = false ∧ Format.r2.mustBeZeroClear ⟨6, 1, 1, 1, 0, 1, 0, 0⟩ = false ∧
      Format.r2.mustBeZeroClear ⟨6, 1, 1, 1, 0, 0, 1, 0⟩ = false ∧
      Format.r2.mustBeZeroClear ⟨6, 1, 1, 1, 0, 0, 0, 1⟩ = false := by decide
theorem test_wf_p2 :
    Format.p2.mustBeZeroClear ⟨3, 1, 1, 1, 0, 0, 0, 0⟩ = false ∧ Format.p2.mustBeZeroClear ⟨3, 0, 1, 1, 1, 0, 0, 0⟩ = false ∧
      Format.p2.mustBeZeroClear ⟨3, 0, 1, 1, 0, 1, 0, 0⟩ = false ∧
      Format.p2.mustBeZeroClear ⟨3, 0, 1, 1, 0, 0, 1, 0⟩ = false ∧
      Format.p2.mustBeZeroClear ⟨3, 0, 1, 1, 0, 0, 0, 1⟩ = false := by decide
theorem test_wf_accepts :
    Format.c7.mustBeZeroClear ⟨1, 15, 15, 15, 15, 15, 15, 15⟩ = true ∧
      Format.r1.mustBeZeroClear ⟨2, 3, 1, 0, 0, 0, 0, 0⟩ = true ∧ Format.r2.mustBeZeroClear ⟨6, 3, 1, 2, 0, 0, 0, 0⟩ = true ∧
      Format.p2.mustBeZeroClear ⟨3, 0, 1, 2, 0, 0, 0, 0⟩ = true := by decide
theorem test_wf_nmax_small : ({ referenceParams with nmax := 0 } : Params).wf = false := by decide
theorem test_wf_nmax_large : ({ referenceParams with nmax := 16400 } : Params).wf = false := by decide
theorem test_wf_nmax_multiple : ({ referenceParams with nmax := 24 } : Params).wf = false := by decide
theorem test_wf_base : ({ referenceParams with base := 0x20000 } : Params).wf = false := by decide
theorem test_wf_parameters : referenceParams.wf = true ∧ cfg16.wf = true ∧ cfg64.wf = true := by decide

/-! ### Words written out bit by bit from R101, R104 and the table of V1 -/

theorem test_decode_nop : decode 0b0000_0000_0000_0000_0000_0000_0000_0000#32 = .ok .nop := by decide
theorem test_decode_crtexp :
    decode 0b0001_0000_0001_0010_0011_0100_0101_0110#32 = .ok (.crtexp 0 1 2 3 4 5 6) := by decide
theorem test_decode_crtexp_full : decode 0x1FFFFFFF#32 = .ok (.crtexp 15 15 15 15 15 15 15) := by decide
theorem test_decode_lfunc : decode 0b0010_0011_0001_0000_0000_0000_0000_0000#32 = .ok (.lfunc 3 1) := by decide
theorem test_decode_keyderive : decode 0b0011_0000_0001_0010_0000_0000_0000_0000#32 = .ok (.keyderive 1 2) := by decide
theorem test_decode_encrypt : decode 0b0100_0011_0000_0000_0000_0000_0000_0000#32 = .ok (.encrypt 3 0) := by decide
theorem test_decode_decrypt : decode 0b0101_0100_0011_0000_0000_0000_0000_0000#32 = .ok (.decrypt 4 3) := by decide
theorem test_decode_hadd : decode 0b0110_0011_0001_0010_0000_0000_0000_0000#32 = .ok (.hadd 3 1 2) := by decide
theorem test_decode_hmul : decode 0b0111_1010_0011_1001_0000_0000_0000_0000#32 = .ok (.hmul 10 3 9) := by decide
theorem test_decode_illegal_mbz :
    decode 0x00000001#32 = .error (.mustBeZero .nop) ∧ decode 0x23010000#32 = .error (.mustBeZero .lfunc) ∧
      decode 0x31120000#32 = .error (.mustBeZero .keyderive) ∧ decode 0x30120001#32 = .error (.mustBeZero .keyderive) ∧
      decode 0x63121000#32 = .error (.mustBeZero .hadd) := by decide
theorem test_decode_illegal_op :
    decode 0x80000000#32 = .error (.reservedOpcode 8) ∧ decode 0xF0000000#32 = .error (.reservedOpcode 15) ∧
      decode 0xFFFFFFFF#32 = .error (.reservedOpcode 15) := by decide
theorem test_decode_bytes :
    decodeBytes [0x00#8, 0x00#8, 0x12#8, 0x63#8] = .ok (.hadd 3 1 2, []) ∧
      decodeBytes [0x00#8, 0x00#8, 0x12#8] = .error .truncated := by decide
theorem test_encode_words :
    encode (.hadd 3 1 2) = 0x63120000#32 ∧ encode (.crtexp 0 1 2 3 4 5 6) = 0x10123456#32 ∧
      encode (.keyderive 1 2) = 0x30120000#32 := by decide

/-! ### One completion per command, expected results from V2 to V8 -/

theorem test_nop : (done kit 0x00000000#32).errcode = .ok ∧ readTarget (done kit 0x00000000#32) .status = 2#32 := by
  decide
theorem test_nop_illegal_field : (done kit 0x00000001#32).errcode = .illegalCmd := by decide
theorem test_crtexp : (done kit 0x10788912#32).x[0] = 56 := by decide
theorem test_crtexp_zero_modulus : (done kit 0x1078891A#32).errcode = .zeroModulus := by decide
theorem test_lfunc : (done kit 0x2F600000#32).x[15] = 2 := by decide
theorem test_lfunc_zero : (done kit 0x2FA00000#32).x[15] = 145 := by decide
theorem test_keyderive : (done { kit with k := KeyBank.zero } 0x30120000#32).k = keyK1 := by decide
theorem test_keyderive_equal_primes :
    (done kit 0x30110000#32).errcode = .noinvP2q2 ∧ (done kit 0x30110000#32).k = keyK1 := by decide
theorem test_encrypt : (done kit 0x4F000000#32).x[15] = 9637 := by decide
theorem test_encrypt_zero_blind :
    (done { kit with entropy := [143] } 0x4FB00000#32).errcode = .zeroBlind ∧
      (done { kit with entropy := [143] } 0x4FB00000#32).status.wPt = true := by decide
theorem test_decrypt : (done kit 0x5F300000#32).x[15] = 42 := by decide
theorem test_decrypt_at_n_squared : (done kit 0x5FC00000#32).x[15] = 62 ∧ (done kit 0x5FC00000#32).status.wCt = true := by
  decide
theorem test_hadd : (done kit 0x6F340000#32).x[15] = 15177 := by decide
theorem test_hadd_warns : (done kit 0x6FC40000#32).x[15] = 0 ∧ (done kit 0x6FC40000#32).status.wCt = true := by decide
theorem test_hmul : (done kit 0x7F350000#32).x[15] = 10880 := by decide
theorem test_hmul_zero_to_zero : (done kit 0x7FAA0000#32).x[15] = 1 := by decide

/-! ### The handshake and the aperture (V8) -/

theorem test_issue_clears_done :
    readTarget (memWrite { kit with status := ⟨true, false, false, false, false⟩, errcode := .range } 0x010 0#32) .status =
      1#32 := by decide
theorem test_status_clear :
    (memWrite { kit with status := ⟨true, true, false, false, false⟩ } 0x00C 2#32).status =
      ⟨false, true, false, false, false⟩ := by decide
theorem test_ctrl_reserved_bits : readTarget (memWrite kit 0x008 0xFFFFFFFF#32) .ctrl = 3#32 := by decide
theorem test_id_ignores_writes : readTarget (memWrite kit 0x000 5#32) .id = 0x50410001#32 := by decide
theorem test_high_window_word : readTarget kit (targetOf 0x10004) = 0#32 := by decide
/-- A BUSY write to any word of a window sets OVR (R48), beyond WORDS too (log 14); in IDLE such a word ignores it (R73). -/
theorem test_window_writes_beyond_words :
    (∀ off ∈ [0x10000, 0x10004, 0x1FFFC, 0x20004, 0x26FFC],
      memWrite (kit.issue 0#32) off 1#32 =
        { kit.issue 0#32 with status := { (kit.issue 0#32).status with ovr := true } }) ∧
      memWrite kit 0x10004 1#32 = kit ∧ memWrite kit 0x26FFC 1#32 = kit := by decide
/-- n = 15 at BITLEN = 16, worked by hand: 15 · 61167 = 14 · 2^16 + 1, so NINV is above n² = 225 (log 29). -/
theorem test_ninv_above_n_squared : deriveKey 3 5 16 = .ok ⟨4, 4, 9, 25, 14, 61167, 15⟩ := by decide
theorem test_half_word_read :
    step (hosting kit [.read 0 2]) = .fault .hostBusError := by rfl
theorem test_assemble :
    assemble "HADD x3, x1, x2" = some 0x63120000#32 ∧ assemble "hmul x10,x3,x9" = some 0x7A390000#32 ∧
      assemble "hadd x3, x1" = none := by decide
theorem test_issue_text :
    issueLine { cfg16 with base := 0x40000 } "hmul x10, x3, x9" = some (.write 0x40010 4 0x7A390000#32) ∧
      issueLine cfg16 "hadd x3, x1" = none := by decide
/-- A poll that gets an ignored bus error receives 0 (R78), so `s[0] = 1` fails and the loop of R108 ends (log 28). -/
theorem test_wait_ends_on_an_ignored_bus_error :
    (after (step { hosting (kit.issue 0#32) [.wait] with
      cfg := { cfg16 with resetAccessBusError := true, busErrorFaultsHost := false }, inReset := true })).host = [] := by
  decide

/-! ### Witnesses: concrete states and operands that meet the hypotheses of each obligation together -/

/-- A reset pulse over a command in flight. -/
def pulsed : State := { kit.issue 0x30120000#32 with turns := [.assertReset, .engine, .releaseReset] }

theorem witness_ResetAbandonsTheCommandInFlight :
    pulsed.cfg.wf = true ∧ pulsed.turns = .assertReset :: .engine :: .releaseReset :: [] ∧ pulsed.eng.isBusy = true := by
  decide

/-- A host access while reset is asserted. -/
def underReset (op : HostOp) : State := { hosting kit [op] with inReset := true }

theorem witness_NoAccessWhileResetIsAsserted :
    let s := underReset (.read 0x3FFFC 4)
    let t := underReset (.write 0 4 1#32)
    (s.cfg.wf = true ∧ s.inReset = true ∧ s.nextTurn = .host ∧ s.cfg.base ≤ 0x3FFFC ∧ 0x3FFFC < s.cfg.base + 0x40000 ∧
        s.host = .read 0x3FFFC 4 :: []) ∧
      t.cfg.wf = true ∧ t.inReset = true ∧ t.nextTurn = .host ∧ t.cfg.base ≤ 0 ∧ 0 < t.cfg.base + 0x40000 ∧
        t.host = .write 0 4 1#32 :: [] := by decide

/-- The invariant is met by a state far from reset: a key in the bank, operands loaded, a command in flight. -/
theorem witness_EveryStepKeepsTheInvariant :
    (flying kit 0x4F000000#32).Inv ∧ ∃ t, step (flying kit 0x4F000000#32) = .next t ∧ t.x[15] = 9637 := by
  refine ⟨⟨by decide, ⟨by decide, by decide⟩, ?_, ⟨by decide, by decide⟩⟩, _, rfl, by decide⟩
  intro S hS
  obtain rfl := Eng.busy.inj hS
  exact ⟨rfl, rfl, rfl, rfl, rfl, rfl, rfl, rfl, rfl⟩

theorem witness_IdAndCapAreHardwired : kit.cfg.wf = true ∧ ∃ t, step (flying kit 0#32) = .next t := ⟨by decide, _, rfl⟩

theorem witness_IdleEngineChangesNothing :
    let s := { kit with turns := [.engine] }
    let t := { flying kit 0#32 with inReset := true }
    (s.cfg.wf = true ∧ s.nextTurn = .engine ∧ s.eng = .idle) ∧
      t.cfg.wf = true ∧ t.nextTurn = .engine ∧ t.inReset = true := by decide

/-- OVR set, cleared by the host's write, and by the release of reset. -/
theorem witness_OverrunIsSticky :
    let s := { kit with status := ⟨false, true, false, false, false⟩ }
    (∃ t, step (hosting s [.write 0x0C 4 4#32]) = .next t ∧ s.status.ovr = true ∧ t.status.ovr = false) ∧
      ∃ t, step { s with inReset := true, turns := [.releaseReset] } = .next t ∧ t.status.ovr = false :=
  ⟨⟨_, rfl, by decide, by decide⟩, _, rfl, by decide⟩

theorem witness_DoneIsSetOnlyByCompletion :
    ∃ t, step (flying kit 0#32) = .next t ∧ (flying kit 0#32).status.done = false ∧ t.status.done = true :=
  ⟨_, rfl, by decide, by decide⟩

/-- Each of the three writers of the key bank. -/
theorem witness_KeyBankHasThreeWriters :
    let s := { kit with k := KeyBank.zero }
    (∃ t, step (flying s 0x30120000#32) = .next t ∧ t.k ≠ s.k) ∧
      (∃ t, step (hosting kit [.write 0x26000 4 1#32]) = .next t ∧ t.k ≠ kit.k) ∧
      ∃ t, step { kit with inReset := true, turns := [.releaseReset] } = .next t ∧ t.k ≠ kit.k :=
  ⟨⟨_, rfl, by decide⟩, ⟨_, rfl, by decide⟩, _, rfl, by decide⟩

/-- A line in other case and spacing assembles, as does a bare mnemonic. -/
theorem witness_WrittenOutWordsDecode :
    assemble "KEYDERIVE x0,x1" = some 0x30010000#32 ∧ assemble "nop" = some 0#32 := by decide

theorem witness_EncodeOfDecodeIsTheWord : decode 0x7A390000#32 = .ok (.hmul 10 3 9) := by decide

/-- The field hypotheses on a word of every row, and the boundary words of the reserved range. -/
theorem witness_DecodingIsTheOpcodeTable :
    ∀ w ∈ [0x00000000#32, 0x10123456#32, 0x2F100000#32, 0x30120000#32, 0x4F100000#32, 0x5F100000#32, 0x6F120000#32,
        0x7F120000#32, 0x80000000#32, 0xFFFFFFFF#32],
      let f := fieldsOf w
      f.rd.val = w.toNat / 2 ^ 24 % 16 ∧ f.rs1.val = w.toNat / 2 ^ 20 % 16 ∧ f.rs2.val = w.toNat / 2 ^ 16 % 16 ∧
        f.rs3.val = w.toNat / 2 ^ 12 % 16 ∧ f.rs4.val = w.toNat / 2 ^ 8 % 16 ∧ f.rs5.val = w.toNat / 2 ^ 4 % 16 ∧
        f.rs6.val = w.toNat % 16 := by
  intro w hw
  simp only [List.mem_cons, List.not_mem_nil, or_false] at hw
  rcases hw with rfl | rfl | rfl | rfl | rfl | rfl | rfl | rfl | rfl | rfl <;> decide

theorem witness_IllegalWordCompletesWithIllegalCmd :
    let v := 0x63121000#32
    let s := flying kit v
    (∀ o : Opcode, v &&& matchMask o ≠ matchValue o) ∧ kit.eng = .idle ∧ s.cfg.wf = true ∧ s.inReset = false ∧
      s.nextTurn = .engine ∧ s.eng = .busy (kit.snapshot v) ∧ (kit.snapshot v).cmd = v :=
  ⟨by intro o; cases o <;> decide, by decide, by decide, by decide, by decide, by decide, by decide⟩

theorem witness_IssueTakesTheSnapshot : kit.eng = .idle ∧ (flying kit 0#32).eng = .busy (kit.snapshot 0#32) := by decide

theorem witness_StepRunsTheDecodedCommand :
    let s := flying kit 0x63120000#32
    (s.cfg.wf = true ∧ s.inReset = false ∧ s.nextTurn = .engine ∧ s.eng = .busy (kit.snapshot 0x63120000#32) ∧
        decode (kit.snapshot 0x63120000#32).cmd = .ok (.hadd 3 1 2)) ∧
      kit.cfg.wf = true ∧ decode (BitVec.ofNat 32 (0x63120000 % 2 ^ 32)) = .ok (.hadd 3 1 2) := by decide

/-- Both ways the engine gets its turn. -/
theorem witness_CompletionIsEnabledThroughoutBusy :
    let s := kit.issue 0x63120000#32
    (s.cfg.wf = true ∧ s.inReset = false ∧ s.eng = .busy (kit.snapshot 0x63120000#32) ∧ s.turns = []) ∧
      (flying kit 0x63120000#32).turns.head? = some .engine := by decide

/-- A schedule that lets the host write, read, wait and wait for the interrupt before the engine moves. -/
theorem witness_CommandCompletesWithinTheSchedule :
    let s := { kit.issue 0x4F000000#32 with
      turns := [.host, .host, .host, .host, .engine]
      host := [.write 0x10 4 0#32, .read 0x3FFFC 4, .wait, .waitIrq 0] }
    s.cfg.wf = true ∧ s.inReset = false ∧ s.eng.isBusy = true ∧ (∀ turn ∈ s.turns, turn = .host ∨ turn = .engine) ∧
      ∀ op ∈ s.host, op.Safe s.cfg := by
  refine ⟨by decide, by decide, by decide, by decide, ?_⟩
  intro op hop
  simp only [List.mem_cons, List.not_mem_nil, or_false] at hop
  rcases hop with rfl | rfl | rfl | rfl
  · exact ⟨by decide, by decide, by decide, by decide⟩
  · exact ⟨by decide, by decide, by decide, by decide⟩
  · trivial
  · trivial

/-- BUSY, and a step of each kind from it: a host access, the completion, the release of reset. -/
theorem witness_OnlyCompletionOrResetEndsACommand :
    let s := kit.issue 0x63120000#32
    s.eng = .busy (kit.snapshot 0x63120000#32) ∧
      (∃ t, step (hosting s [.read 0x0C 4]) = .next t ∧ t.eng = s.eng) ∧
      (∃ t, step { s with turns := [.engine] } = .next t ∧ t.eng = .idle) ∧
      ∃ t, step { s with inReset := true, turns := [.releaseReset] } = .next t ∧ t.eng = .idle :=
  ⟨by decide, ⟨_, rfl, by decide⟩, ⟨_, rfl, by decide⟩, _, rfl, by decide⟩

/-- Two states with one snapshot in flight and different live registers. -/
theorem witness_OutcomeIsAFunctionOfTheSnapshot :
    let s := flying kit 0x4F000000#32
    let s' := { s with x := Vector.replicate 16 0, k := KeyBank.zero, bitlen := 0#32 }
    let S := kit.snapshot 0x4F000000#32
    s.cfg = s'.cfg ∧ s.eng = .busy S ∧ s'.eng = .busy S ∧ s.x ≠ s'.x ∧
      s.draw S.bitlen.toNat = s'.draw S.bitlen.toNat ∧
      (∃ t, exec (.encrypt 15 0) s = .next t ∧ t.errcode = .ok) ∧
      ∃ t', exec (.encrypt 15 0) s' = .next t' ∧ t'.errcode = .ok :=
  ⟨rfl, rfl, rfl, by decide, by decide, ⟨_, rfl, by decide⟩, _, rfl, by decide⟩

/-- A command that fails, an illegal word, a strict rejection, and a draw that is a multiple of N under a warning. -/
theorem witness_ErrorCompletionWritesNoRegister :
    let range := flying strictKit 0x4FB00000#32
    let blind := flying { kit with entropy := [143] } 0x4FB00000#32
    (flying kit 0x30110000#32).nextTurn = .engine ∧ (flying kit 0x30110000#32).inReset = false ∧
      (flying kit 0x30110000#32).eng = .busy (kit.snapshot 0x30110000#32) ∧
      (∃ t, step (flying kit 0x30110000#32) = .next t ∧ t.errcode = .noinvP2q2) ∧
      (∃ t, step (flying kit 0xF0000000#32) = .next t ∧ t.errcode = .illegalCmd) ∧
      (∃ t, step range = .next t ∧ t.errcode = .range ∧ t.status.wPt = true) ∧
      ∃ t, step blind = .next t ∧ t.errcode = .zeroBlind ∧ t.status.wPt = true :=
  ⟨rfl, rfl, rfl, ⟨_, rfl, by decide⟩, ⟨_, rfl, by decide⟩, ⟨_, rfl, by decide, by decide⟩, _, rfl, by decide,
    by decide⟩

/-- Every clause's conditions, on the strict kit (so the strict bounds are met too). -/
theorem witness_EveryCommandCompletesOnAdmittedOperands :
    let s := flying strictKit 0#32
    let S := strictKit.snapshot 0#32
    s.eng = .busy S ∧ (2 ≤ S.bitlen.toNat ∧ S.bitlen.toNat ≤ s.cfg.nmax) ∧ (1 ≤ S.k.n ∧ S.k.n < 2 ^ S.bitlen.toNat) ∧
      (S.x[1] ≠ 0 ∧ S.x[2] ≠ 0 ∧ S.x[1] * S.x[2] ≤ 2 ^ (2 * s.cfg.nmax)) ∧
      (2 ≤ S.x[1] ∧ 2 ≤ S.x[2] ∧ S.x[1] * S.x[2] < 2 ^ S.bitlen.toNat ∧
        ∃ kb, deriveKey S.x[1] S.x[2] S.bitlen.toNat = .ok kb) ∧
      (S.strict = true ∧ S.x[0] < S.k.n ∧ s.draw S.bitlen.toNat % S.k.n ≠ 0) ∧ (S.k.p2 ≠ 0 ∧ S.k.q2 ≠ 0) ∧
      S.x[3] < S.k.n * S.k.n ∧ S.x[4] < S.k.n * S.k.n ∧ S.x[5] < S.k.n := by
  refine ⟨rfl, by decide, by decide, by decide, ⟨by decide, by decide, by decide, keyK1, by decide⟩, by decide, by decide,
    by decide, by decide, by decide⟩

theorem witness_NopCompletesAndWritesNothing :
    ((0x00000000#32).toNat / 2 ^ 28 = 0 ∧ (0x0FFFFFFF#32).toNat / 2 ^ 28 = 0) ∧
      (flying kit 0#32).eng = .busy (kit.snapshot 0#32) ∧ kit.eng = .idle ∧ kit.status.ovr = false := by decide

theorem witness_CrtExpIsTheSourcesAlgorithm : (1 ≤ 11 ∧ 1 ≤ 13) ∧ 1 ≤ 1 ∧ crtExp 7 10 10 6 11 13 = 56 := by decide

/-- Both error clauses and the success of CRTEXP: X10 = 0; X13 = 65537, so X13² > 2^32; and 11·13. -/
theorem witness_CrtexpRecombinesByGarner :
    (0x1FFFFFFF#32 &&& 0xF0000000#32 = 0x10000000#32) ∧ (flying kit 0#32).eng = .busy (kit.snapshot 0#32) ∧
      (kit.snapshot 0#32).x[10] = 0 ∧
      2 ^ (2 * kit.cfg.nmax) < (kit.snapshot 0#32).x[13] * (kit.snapshot 0#32).x[13] ∧
      (kit.snapshot 0#32).x[1] * (kit.snapshot 0#32).x[2] ≤ 2 ^ (2 * kit.cfg.nmax) := by decide

/-- R128's operands with a true inverse, and with q = 1. -/
theorem witness_CrtexpIsDirectExponentiation :
    let s := flying kit 0#32
    let S := kit.snapshot 0#32
    (s.eng = .busy S ∧ 1 ≤ S.x[1] ∧ 1 ≤ S.x[2] ∧ Nat.gcd S.x[1] S.x[2] = 1 ∧ S.x[1] * S.x[2] ≤ 2 ^ s.cfg.width ∧
        inv S.x[1] S.x[2] = some (S.x[9] % S.x[2]) ∧ S.x[8] = S.x[8]) ∧
      1 ≤ S.x[14] ∧ Nat.gcd S.x[1] S.x[14] = 1 ∧ S.x[1] * S.x[14] ≤ 2 ^ s.cfg.width ∧ S.x[14] = 1 := by decide

theorem witness_LfuncMultipliesAndMasks :
    (0x2FF00000#32 &&& 0xF00FFFFF#32 = 0x20000000#32) ∧ (flying kit 0#32).eng = .busy (kit.snapshot 0#32) := by decide

/-- u = 287 = 1 + 2N, whose quotient is exact, by either bound; and u = 3, whose is not. -/
theorem witness_LfuncIsTheExactQuotient :
    let s := flying kit 0#32
    let S := kit.snapshot 0#32
    s.eng = .busy S ∧ 2 ≤ S.bitlen.toNat ∧ S.bitlen.toNat ≤ s.cfg.nmax ∧ S.k.n % 2 = 1 ∧
      inv S.k.n (2 ^ S.bitlen.toNat) = some S.k.nInv ∧
      (1 ≤ S.x[6] ∧ S.k.n ∣ S.x[6] - 1 ∧ (S.x[6] - 1) / S.k.n < 2 ^ S.bitlen.toNat) ∧
      (S.x[6] < S.k.n * S.k.n ∧ S.k.n < 2 ^ S.bitlen.toNat) ∧
      (1 ≤ S.x[14] ∧ S.k.n ∣ S.x[14] - 1) ∧
      ¬ (S.k.n : Int) ∣ (S.x[5] : Int) - 1 := by decide

theorem witness_LfuncOfZeroIsTheMaskedNegative :
    let s := flying kit 0#32
    let S := kit.snapshot 0#32
    s.eng = .busy S ∧ 2 ≤ S.bitlen.toNat ∧ S.bitlen.toNat ≤ s.cfg.nmax ∧ S.x[10] = 0 := by decide

theorem witness_KeyderiveFollowsTheSteps :
    (0x30FF0000#32 &&& 0xFF00FFFF#32 = 0x30000000#32) ∧ (flying kit 0#32).eng = .busy (kit.snapshot 0#32) := by decide

/-- An even modulus (2·11, NOINV_NINV), and p = q = 11 (NOINV_P2Q2). -/
theorem witness_KeyderiveInverseErrors :
    let s := { kit with x := kit.x.set 0 2 }
    let S := s.snapshot 0#32
    (∃ t, exec (.keyderive 0 1) (flying s 0#32) = .next t ∧ t.errcode = .noinvNinv) ∧
      (∃ t, exec (.keyderive 1 1) (flying s 0#32) = .next t ∧ t.errcode = .noinvP2q2) ∧
      (flying s 0#32).eng = .busy S ∧ 2 ≤ S.bitlen.toNat ∧ S.bitlen.toNat ≤ s.cfg.nmax ∧ 2 ≤ S.x[0] ∧ 2 ≤ S.x[1] ∧
      S.x[0] * S.x[1] < 2 ^ S.bitlen.toNat ∧ S.x[1] * S.x[1] < 2 ^ S.bitlen.toNat :=
  ⟨⟨_, rfl, by decide⟩, ⟨_, rfl, by decide⟩, rfl, by decide, by decide, by decide,
    by decide, by decide, by decide⟩

/-- p = 3 and q = 7 (n = 21, lambda = 6 shares 3 with n): the inverses of steps 3 and 4, worked by hand, and NOINV_MU; beside
it p = 11 and q = 13, whose L(t) = 60 has an inverse modulo 143. -/
theorem witness_KeyderiveMuError :
    let s := flying kit 0#32
    let S := kit.snapshot 0#32
    (s.eng = .busy S ∧ 2 ≤ S.bitlen.toNat ∧ S.bitlen.toNat ≤ s.cfg.nmax ∧ 2 ≤ S.x[5] ∧ 2 ≤ S.x[7] ∧
        S.x[5] * S.x[7] < 2 ^ S.bitlen.toNat ∧ (S.x[5] = 3 ∧ S.x[7] = 7)) ∧
      (61 < 2 ^ 8 ∧ 21 * 61 % 2 ^ 8 = 1 ∧ 11 < 7 * 7 ∧ 3 * 3 * 11 % (7 * 7) = 1) ∧
      (∃ t, exec (.keyderive 5 7) s = .next t ∧ t.errcode = .noinvMu) ∧
      ∃ t, exec (.keyderive 1 2) s = .next t ∧ t.errcode = .ok :=
  ⟨⟨rfl, by decide, by decide, by decide, by decide, by decide, rfl, rfl⟩, by decide, ⟨_, rfl, by decide⟩, _, rfl,
    by decide⟩

/-- KEYDERIVE of 11 and 13 writes K1. -/
theorem derived_k1 : Expected.Derived cfg16 8#32 11 13 keyK1 :=
  ⟨flying kit 0#32, _, kit.snapshot 0#32, 1, 2, rfl, rfl, rfl, rfl, rfl, rfl, by decide, by decide⟩

theorem primes_k1 : Expected.PrimePair 11 13 := ⟨by norm_num, by norm_num, by decide, by decide, by decide⟩

/-- ENCRYPT of 42 with blinding factor 23 writes 9637. -/
theorem encrypted_42 : Expected.Encrypted cfg16 8#32 keyK1 42 23 9637 :=
  ⟨flying kit 0#32, _, kit.snapshot 0#32, 15, 0, rfl, rfl, rfl, rfl, rfl, by decide, rfl, by decide,
    by decide⟩

/-- ENCRYPT of 58 with blinding factor 57 (draw 200) writes 7301. -/
theorem encrypted_58 : Expected.Encrypted cfg16 8#32 keyK1 58 57 7301 :=
  ⟨flying { kit with x := kit.x.set 0 58, entropy := [200] } 0#32, _,
    State.snapshot { kit with x := kit.x.set 0 58 } 0#32, 15, 0, rfl, rfl, rfl, rfl, rfl, by decide, rfl,
    by decide, by decide⟩

/-- Beside them the bound on NINV: the six other registers, and K5, since 2^8 is below 143². -/
theorem witness_CompletedKeyHasItsIdentities :
    Expected.Derived cfg16 8#32 11 13 keyK1 ∧ Expected.PrimePair 11 13 ∧ (4 : KReg) ≠ 5 ∧ (6 : KReg) ≠ 5 ∧
      2 ^ (8#32).toNat ≤ keyK1.n * keyK1.n :=
  ⟨derived_k1, primes_k1, by decide, by decide, by decide⟩

theorem witness_EncryptBlindsThePlaintext :
    (0x4FF00000#32 &&& 0xF00FFFFF#32 = 0x40000000#32) ∧ (flying kit 0#32).eng = .busy (kit.snapshot 0#32) := by decide

/-- m = 200 and m mod N = 57, one draw. -/
theorem witness_OutOfRangePlaintextWraps :
    let s := flying kit 0#32
    let s' := flying { kit with x := kit.x.set 0 57 } 0#32
    let S := kit.snapshot 0#32
    let S' := State.snapshot { kit with x := kit.x.set 0 57 } 0#32
    (2 : Nat) ≤ 2 ∧ s.cfg = s'.cfg ∧ s.eng = .busy S ∧ s'.eng = .busy S' ∧ S.bitlen = S'.bitlen ∧ S.k = S'.k ∧
      S.strict = false ∧ S'.strict = false ∧ s.draw S.bitlen.toNat = s'.draw S.bitlen.toNat ∧ S.k.n ≤ S.x[11] ∧
      S'.x[0] = S.x[11] % S.k.n ∧ (∃ t, exec (.encrypt 15 11) s = .next t ∧ t.errcode = .ok) ∧
      ∃ t', exec (.encrypt 14 0) s' = .next t' :=
  ⟨by decide, rfl, rfl, rfl, rfl, rfl, rfl, rfl, by decide, by decide, by decide, ⟨_, rfl, by decide⟩, _,
    rfl⟩

/-- A warning, with and without the strict policy. -/
theorem witness_PlaintextWarningIsExact :
    (flying strictKit 0#32).eng = .busy (strictKit.snapshot 0#32) ∧ (strictKit.snapshot 0#32).strict = true ∧
      (∃ t, exec (.encrypt 15 11) (flying strictKit 0#32) = .next t ∧ t.status.wPt = true) ∧
      ∃ t, exec (.encrypt 15 11) (flying kit 0#32) = .next t ∧ t.status.wPt = true :=
  ⟨rfl, rfl, ⟨_, rfl, by decide⟩, _, rfl, by decide⟩

/-- Every clause: a ciphertext of exactly N² (X12 = 20449), a constant ≥ N, and a command without warnings. -/
theorem witness_CiphertextAndConstantWarningsAreExact :
    let s := flying kit 0#32
    s.eng = .busy (kit.snapshot 0#32) ∧
      (∃ t, exec (.decrypt 15 12) s = .next t ∧ t.status.wCt = true) ∧
      (∃ t, exec (.hadd 15 3 12) s = .next t ∧ t.status.wCt = true) ∧
      (∃ t, exec (.hmul 15 12 11) s = .next t ∧ t.status.wCt = true ∧ t.status.wK = true) ∧
      (∃ t, exec (.encrypt 15 11) s = .next t ∧ t.status.wPt = true) ∧
      (∃ t, exec .nop s = .next t) ∧ (∃ t, exec (.crtexp 15 7 8 8 9 1 2) s = .next t) ∧
      (∃ t, exec (.lfunc 15 6) s = .next t) ∧ ∃ t, exec (.keyderive 1 2) s = .next t :=
  ⟨rfl, ⟨_, rfl, by decide⟩, ⟨_, rfl, by decide⟩,
    ⟨_, rfl, by decide, by decide⟩, ⟨_, rfl, by decide⟩, ⟨_, rfl⟩, ⟨_, rfl⟩,
    ⟨_, rfl⟩, _, rfl⟩

theorem witness_StrictPolicyRejectsWithRange :
    let s := flying strictKit 0#32
    let S := strictKit.snapshot 0#32
    s.eng = .busy S ∧ S.strict = true ∧ 2 ≤ S.bitlen.toNat ∧ S.bitlen.toNat ≤ s.cfg.nmax ∧ 1 ≤ S.k.n ∧
      S.k.n < 2 ^ S.bitlen.toNat ∧ S.k.n ≤ S.x[11] ∧ (S.k.p2 ≠ 0 ∧ S.k.q2 ≠ 0 ∧ S.k.n * S.k.n ≤ S.x[12]) := by decide

theorem witness_DecryptAppliesLAndMu :
    (0x5FF00000#32 &&& 0xF00FFFFF#32 = 0x50000000#32) ∧ (flying kit 0#32).eng = .busy (kit.snapshot 0#32) := by decide

theorem witness_HaddMultipliesCiphertexts :
    (0x6FFF0000#32 &&& 0xF000FFFF#32 = 0x60000000#32) ∧ (flying kit 0#32).eng = .busy (kit.snapshot 0#32) := by decide

theorem witness_HmulRaisesTheCiphertext :
    (0x7FFF0000#32 &&& 0xF000FFFF#32 = 0x70000000#32) ∧ (flying kit 0#32).eng = .busy (kit.snapshot 0#32) := by decide

/-- Two runs whose key banks differ in K0 to K5. -/
theorem witness_HomomorphicOperatorsReadNoSecret :
    let u : State := { kit with k := ⟨1, 2, 3, 4, 5, 6, 143⟩ }
    let S := kit.snapshot 0#32
    let S' := u.snapshot 0#32
    (flying kit 0#32).eng = .busy S ∧ (flying u 0#32).eng = .busy S' ∧ S'.x = S.x ∧ S'.bitlen = S.bitlen ∧
      S'.strict = S.strict ∧ S'.k.n = S.k.n ∧ (flying u 0#32).cfg = (flying kit 0#32).cfg ∧ S'.k ≠ S.k := by decide

theorem witness_DecryptionInvertsEncryption :
    Expected.PrimePair 11 13 ∧ Expected.Derived cfg16 8#32 11 13 keyK1 ∧
      Expected.Encrypted cfg16 8#32 keyK1 42 23 9637 ∧ Nat.gcd 23 keyK1.n = 1 ∧ 42 < keyK1.n :=
  ⟨primes_k1, derived_k1, encrypted_42, by decide, by decide⟩

theorem witness_AddedCiphertextsDecryptToTheSum :
    let s := flying kit 0#32
    let S := kit.snapshot 0#32
    Expected.PrimePair 11 13 ∧ Expected.Derived cfg16 8#32 11 13 keyK1 ∧
      Expected.Encrypted cfg16 8#32 keyK1 42 23 9637 ∧ Expected.Encrypted cfg16 8#32 keyK1 58 57 7301 ∧
      Nat.gcd 23 keyK1.n = 1 ∧ Nat.gcd 57 keyK1.n = 1 ∧ s.cfg = cfg16 ∧ s.eng = .busy S ∧ S.bitlen = 8#32 ∧
      S.k = keyK1 ∧ S.x[3] = 9637 ∧ S.x[4] = 7301 ∧ ∃ t, exec (.hadd 15 3 4) s = .next t ∧ t.x[15] = 15177 :=
  ⟨primes_k1, derived_k1, encrypted_42, encrypted_58, by decide, by decide, rfl, rfl, rfl, rfl, rfl, rfl, _,
    rfl, by decide⟩

/-- The scalar law's hypotheses, with the strict policy and without it. -/
theorem witness_ScaledCiphertextDecryptsToTheProduct :
    let s := flying strictKit 0#32
    let S := strictKit.snapshot 0#32
    Expected.PrimePair 11 13 ∧ Expected.Derived cfg16 8#32 11 13 keyK1 ∧
      Expected.Encrypted cfg16 8#32 keyK1 42 23 9637 ∧ Nat.gcd 23 keyK1.n = 1 ∧ s.cfg = cfg16 ∧ s.eng = .busy S ∧
      S.bitlen = 8#32 ∧ S.k = keyK1 ∧ S.x[3] = 9637 ∧ (S.strict = true → S.x[5] < keyK1.n) ∧
      (∃ t, exec (.hmul 15 3 5) s = .next t ∧ t.x[15] = 10880) ∧ (kit.snapshot 0#32).strict = false :=
  ⟨primes_k1, derived_k1, encrypted_42, by decide, rfl, rfl, rfl, rfl, rfl, fun _ => by decide,
    ⟨_, rfl, by decide⟩, rfl⟩

/-- A next state of each command of the frame statements. -/
theorem witness_FrameOfXCommands :
    let s := flying kit 0#32
    (∃ t, exec (.crtexp 15 7 8 8 9 1 2) s = .next t) ∧ (∃ t, exec (.lfunc 15 6) s = .next t) ∧
      (∃ t, exec (.encrypt 15 0) s = .next t) ∧ (∃ t, exec (.decrypt 15 3) s = .next t) ∧
      (∃ t, exec (.hadd 15 3 4) s = .next t) ∧ (∃ t, exec (.hmul 15 3 5) s = .next t) ∧
      destX (.hmul 15 3 5) = some 15 ∧ s.x[15] < 2 ^ s.cfg.width :=
  ⟨⟨_, rfl⟩, ⟨_, rfl⟩, ⟨_, rfl⟩, ⟨_, rfl⟩,
    ⟨_, rfl⟩, ⟨_, rfl⟩, rfl, by decide⟩

theorem witness_FrameOfKeyderiveAndNop :
    (∃ t, exec (.keyderive 1 2) (flying kit 0#32) = .next t) ∧ ∃ t, exec .nop (flying kit 0#32) = .next t :=
  ⟨⟨_, rfl⟩, _, rfl⟩

/-- The ends of the reserved ranges, and the last window word. -/
theorem witness_ApertureMapIsTheTable :
    kit.inReset = false ∧ (1023 < 1024 ∧ targetOf (0x10000 + 0x1000 * 15 + 4 * 1023) = .xWord 15 1023 ∧
        targetOf (0x20000 + 0x1000 * 6 + 4 * 1023) = .kWord 6 1023) ∧
      ∀ off ∈ [0x20, 0xFFFC, 0x27000, 0x3FFFC],
        ((0x20 ≤ off ∧ off < 0x10000) ∨ (0x27000 ≤ off ∧ off < 0x40000)) ∧ off % 4 = 0 ∧ targetOf off = .reserved := by
  decide

/-- A read of a defined word while BUSY, and of a destination word of the ENCRYPT in flight. -/
theorem witness_HostReadReturnsTheRegister :
    let s := hosting (kit.issue 0x4F000000#32) [.read (kit.cfg.base + 0x0C) 4]
    let u := hosting (kit.issue 0x4F000000#32) [.read (kit.cfg.base + 0x1F000) 4]
    (Expected.HostTurn s (.read (s.cfg.base + 0x0C) 4) [] ∧ (0x0C < 0x40000 ∧ 0x0C % 4 = 0) ∧
        ¬ Expected.Destination s.cfg (.encrypt 15 0) (targetOf 0x0C)) ∧
      Expected.HostTurn u (.read (u.cfg.base + 0x1F000) 4) [] ∧ (0x1F000 < 0x40000 ∧ 0x1F000 % 4 = 0) ∧
      u.eng = .busy (kit.snapshot 0x4F000000#32) ∧
      decode (kit.snapshot 0x4F000000#32).cmd = .ok (.encrypt 15 0) ∧
      Expected.Destination u.cfg (.encrypt 15 0) (targetOf 0x1F000) := by
  refine ⟨⟨⟨rfl, rfl, rfl, rfl⟩, by decide, ?_⟩, ⟨rfl, rfl, rfl, rfl⟩, by decide, rfl, by decide, 0, by decide, rfl⟩
  rintro ⟨j, -, hj⟩
  exact absurd hj (by simp [targetOf])

/-- A write to each kind of target, idle and busy. -/
theorem witness_HostWriteActsOnItsTarget :
    (∀ off ∈ [0x00, 0x04, 0x08, 0x0C, 0x10, 0x14, 0x18, 0x1C, 0x20, 0x10000, 0x1F000, 0x20000, 0x26000, 0x3FFFC],
      Expected.HostTurn (hosting kit [.write (kit.cfg.base + off) 4 1#32]) (.write (kit.cfg.base + off) 4 1#32) [] ∧
        off < 0x40000 ∧ off % 4 = 0) ∧
      kit.eng = .idle ∧ (kit.issue 0#32).eng = .busy (kit.snapshot 0#32) ∧ targetOf 0x1F000 = .xWord 15 0 ∧
      targetOf 0x26000 = .kWord 6 0 := by
  refine ⟨?_, by decide, by decide, by decide, by decide⟩
  intro off hoff
  refine ⟨⟨(by decide : kit.cfg.wf = true), rfl, rfl, rfl⟩, ?_⟩
  revert off
  decide

/-- The last word of a register and the first beyond it (WORDS = 4), and the last word of a window. -/
theorem witness_BusyWritesAreRejected :
    let s := State.issue { kit with cfg := cfg64 } 0#32
    s.eng = .busy (State.snapshot { kit with cfg := cfg64 } 0#32) ∧ (3 < 1024 ∧ 3 < s.cfg.words) ∧
      (4 < 1024 ∧ ¬ 4 < s.cfg.words) ∧ 1023 < 1024 ∧ ¬ 1023 < s.cfg.words := by decide

/-- Words inside and beyond the register (WORDS = 4). -/
theorem witness_WindowWordsReadBack :
    let s := { kit with cfg := cfg64 }
    s.cfg.wf = true ∧ s.eng = .idle ∧ (3 < 1024 ∧ 3 < s.cfg.words) ∧ 1023 < 1024 ∧ s.cfg.words ≤ 1023 := by decide

/-- A wrong size at offset 0, and a misaligned access at the last word. -/
theorem witness_OtherAccessesGetABusError :
    let s := hosting kit [.read (kit.cfg.base + 0) 2]
    let t := hosting kit [.write (kit.cfg.base + 0x3FFFE) 4 1#32]
    (0 < 0x40000 ∧ (2 ≠ 4 ∨ 0 % 4 ≠ 0) ∧ Expected.HostTurn s (.read (s.cfg.base + 0) 2) []) ∧
      0x3FFFE < 0x40000 ∧ (4 ≠ 4 ∨ 0x3FFFE % 4 ≠ 0) ∧
      Expected.HostTurn t (.write (t.cfg.base + 0x3FFFE) 4 1#32) [] :=
  ⟨⟨by decide, by decide, rfl, rfl, rfl, rfl⟩, by decide, by decide, rfl, rfl, rfl, rfl⟩

/-- Every code of R180 stands in some state. -/
theorem witness_ControlStatusAndErrorBits :
    ∀ e ∈ [ErrCode.ok, .illegalCmd, .bitlen, .key, .zeroModulus, .resultRange, .operand, .range, .noinvNinv, .noinvP2q2,
        .noinvMu, .zeroBlind], ({ kit with errcode := e } : State).errcode = e := fun _ _ => rfl

theorem witness_InterruptIsEnableAndDone :
    (∃ t, exec .nop (flying kit 0#32) = .next t) ∧ kit.eng = .idle ∧ (2#32).getLsbD 1 = true ∧
      (0xFFFFFFFE#32).getLsbD 0 = false :=
  ⟨⟨_, rfl⟩, by decide, by decide, by decide⟩

/-- A host program over four-word registers. -/
def programmed (ops : List HostOp) : State := { kit with cfg := cfg64, host := ops }

theorem witness_LdxLoadsTheRegister :
    let s := programmed (ldx cfg64 0 (2 ^ 128 - 1) ++ [.wait])
    s.cfg.wf = true ∧ s.inReset = false ∧ s.eng = .idle ∧ s.turns = [] ∧ 2 ^ 128 - 1 < 2 ^ s.cfg.width ∧
      s.x[0] < 2 ^ s.cfg.width ∧ s.host = ldx s.cfg 0 (2 ^ 128 - 1) ++ [.wait] := by decide

theorem witness_RdxReadsTheRegister :
    let s := programmed (rdx cfg64 3 ++ [.wait])
    s.cfg.wf = true ∧ s.inReset = false ∧ s.eng = .idle ∧ s.turns = [] ∧ s.x[3] < 2 ^ s.cfg.width ∧
      s.host = rdx s.cfg 3 ++ [.wait] := by decide

theorem witness_PrivateKeyLoadFillsTheBank :
    let s := programmed (loadPrivateKey cfg64 8#32 keyK1)
    s.cfg.wf = true ∧ s.inReset = false ∧ s.eng = .idle ∧ s.turns = [] ∧
      (∀ k : KReg, keyK1.get k < 2 ^ s.cfg.width) ∧ (∀ k : KReg, s.k.get k < 2 ^ s.cfg.width) ∧
      s.host = loadPrivateKey s.cfg 8#32 keyK1 ++ [] :=
  ⟨rfl, rfl, rfl, rfl, by decide, by decide, (List.append_nil _).symm⟩

/-- A poll while BUSY and one in IDLE; a poll under reset on each kind of platform; the wait for a line that `irq` drives, for
another line, and with `irq` low. -/
theorem witness_WaitPollsStatusAndWaitIrqWatchesTheLine :
    let busy := hosting (kit.issue 0#32) [.wait]
    let idle := hosting kit [.wait]
    let reset (bus fault : Bool) := { underReset .wait with
      cfg := { cfg16 with resetAccessBusError := bus, busErrorFaultsHost := fault } }
    let high := hosting { kit with ctrl := ⟨true, false⟩, status := ⟨true, false, false, false, false⟩ } [.waitIrq 0]
    (busy.cfg.wf = true ∧ busy.nextTurn = .host ∧ busy.host = .wait :: [] ∧ busy.inReset = false ∧
        busy.eng = .busy (kit.snapshot 0#32)) ∧
      (idle.cfg.wf = true ∧ idle.nextTurn = .host ∧ idle.host = .wait :: [] ∧ idle.inReset = false ∧ idle.eng = .idle) ∧
      (∀ bus fault, (reset bus fault).cfg.wf = true ∧ (reset bus fault).nextTurn = .host ∧
        (reset bus fault).host = .wait :: [] ∧ (reset bus fault).inReset = true) ∧
      (high.cfg.wf = true ∧ high.nextTurn = .host ∧ high.host = .waitIrq 0 :: [] ∧ 0 = high.cfg.irqLine ∧
        high.ctrl.ie = true ∧ high.status.done = true) ∧
      (1 ≠ high.cfg.irqLine ∧ (hosting high [.waitIrq 1]).host = .waitIrq 1 :: []) ∧
      (hosting kit [.waitIrq 0]).status.done = false := by decide

/-- An inverse, an operand without one, and the smallest modulus. -/
theorem witness_InvIsTheModularInverse :
    2 ≤ 13 ∧ (6 < 13 ∧ 11 * 6 % 13 = 1 ∧ inv 11 13 = some 6) ∧ inv 6 21 = none ∧ 2 ≤ 2 ∧ inv 1 2 = some 1 ∧
      inv 0 2 = none := by decide

end Sys2Proof.Tests
end

section
/-! The statements of the family 00_scope.md: `crtExp` against R20's formula on the integers, and `inv` as R18's unique
modular inverse. -/

namespace Sys2Proof.Machine

/-! ### Garner's formula on the integers (R20) -/

/-- Both lanes are plain powers, and the floored remainder is the integers' remainder by a positive modulus. -/
theorem crtExp_cast (base expP expQ pInvQ : Nat) {p q : Nat} (hp : 0 < p) (hq : 0 < q) :
    (crtExp base expP expQ pInvQ p q : Int) =
      (((base % p) ^ expP % p : Nat) + (p : Int) * pInvQ *
        (((base % q) ^ expQ % q : Nat) - ((base % p) ^ expP % p : Nat))) % ((p : Int) * q) := by
  rw [crtExp, powmod_eq_pow_mod, powmod_eq_pow_mod, floorMod_cast _ (Nat.mul_pos hp hq), Nat.cast_mul]

/-- Settles O25: the value is `crtExp_cast`, the range is `crtExp_lt`. -/
theorem crtExpIsTheSourcesAlgorithm : Obligations.CrtExpIsTheSourcesAlgorithm := by
  intro base expP expQ pInvQ p q hp hq
  exact ⟨crtExp_cast base expP expQ pInvQ hp hq, crtExp_lt base expP expQ pInvQ hp hq⟩

/-! ### The modular inverse is unique and is found (R18) -/

theorem coprime_of_mul_mod_eq_one {a m x : Nat} (hm : 2 ≤ m) (hx : a * x % m = 1) : Nat.Coprime a m :=
  Nat.coprime_of_mul_modEq_one x (hx.trans (Nat.mod_eq_of_lt hm).symm)

/-- `a` is coprime to `m`, so it cancels from `a·x ≡ a·y`. -/
theorem modInverse_unique {a m x y : Nat} (hm : 2 ≤ m) (hxm : x < m) (hx : a * x % m = 1) (hym : y < m)
    (hy : a * y % m = 1) : x = y := by
  have hcancel : x ≡ y [MOD m] :=
    Nat.ModEq.cancel_left_of_coprime (coprime_of_mul_mod_eq_one hm hx).symm (hx.trans hy.symm)
  exact hcancel.eq_of_lt_of_lt hxm hym

theorem inv_eq_some_iff (a : Nat) {m x : Nat} (hm : 2 ≤ m) : inv a m = some x ↔ x < m ∧ a * x % m = 1 := by
  refine ⟨inv_some a hm, fun ⟨hxm, hx⟩ => ?_⟩
  cases h : inv a m with
  | none =>
    have hgcd : Nat.gcd (a % m) m = 1 := (Nat.mod_modEq a m).gcd_eq.trans (coprime_of_mul_mod_eq_one hm hx)
    exact absurd hgcd ((inv_eq_none_iff a (by omega)).mp h)
  | some y =>
    obtain ⟨hym, hy⟩ := inv_some a hm h
    rw [modInverse_unique hm hym hy hxm hx]

theorem inv_exists_iff (a : Nat) {m : Nat} (hm : 0 < m) : (∃ x, inv a m = some x) ↔ Nat.gcd (a % m) m = 1 := by
  rw [← Option.ne_none_iff_exists', ne_eq, inv_eq_none_iff a hm, not_not]

/-- Settles O60: the inverse is found and unique because its operand is coprime to the modulus. -/
theorem invIsTheModularInverse : Obligations.InvIsTheModularInverse := by
  intro a m hm
  have hpos : 0 < m := by omega
  exact ⟨fun x => inv_eq_some_iff a hm, fun x y => modInverse_unique hm, inv_exists_iff a hpos, inv_eq_none_iff a hpos⟩

end Sys2Proof.Machine
end

section
/-! The statements of the family 10_state.md: the reset values and the hardwired registers, the bits of the control
registers, what each agent's turn can do to OVR, DONE and the key bank, the frames of the commands, and the interrupt. -/

namespace Sys2Proof.Machine

/-! ### Reset (R47) and the hardwired registers (R36, R37) -/

theorem reset_x_get (i : XReg) : State.reset.x[i] = 0 := Vector.getElem_replicate i.isLt

/-- Settles O1: the register files by their lookup lemmas, the control registers by evaluation. -/
theorem resetStateIsTheResetTable : Obligations.ResetStateIsTheResetTable :=
  ⟨reset_x_get, keyBank_zero_get, rfl, rfl, rfl, rfl, rfl, rfl, rfl, rfl, rfl, rfl, rfl, rfl⟩

theorem reset_registersInRange : State.reset.RegistersInRange :=
  ⟨fun i => (reset_x_get i).trans_lt (Nat.two_pow_pos _),
    fun k => (keyBank_zero_get k).trans_lt (Nat.two_pow_pos _)⟩

/-- Settles O4: 0 is in every range, no command is in flight, and ERRCODE is OK. -/
theorem resetMeetsTheInvariant : Obligations.ResetMeetsTheInvariant where
  parameters := by decide
  inRange := reset_registersInRange
  busy := fun _ hS => Eng.noConfusion hS
  warnings := ⟨fun he => ErrCode.noConfusion he, fun he _ _ => absurd rfl he⟩

theorem idValue_high : idValue.toNat / 2 ^ 16 = 0x5041 := by decide

theorem idValue_low : idValue.toNat % 2 ^ 16 = 1 := by decide

theorem params_wf_iff (c : Params) :
    c.wf = true ↔ 16 ≤ c.nmax ∧ c.nmax ≤ 16384 ∧ c.nmax % 16 = 0 ∧ c.base % 0x40000 = 0 := by
  simp [Params.wf, and_assoc]

theorem readTarget_cap_toNat {s : State} (hc : s.cfg.wf = true) : (readTarget s .cap).toNat = s.cfg.nmax := by
  obtain ⟨-, hmax, -, -⟩ := (params_wf_iff s.cfg).mp hc
  exact Nat.mod_eq_of_lt (show s.cfg.nmax < 2 ^ 32 by omega)

theorem params_words_eq (c : Params) : c.words = c.nmax / 16 := by unfold Params.words Params.width; omega

/-! ### Completions (R117) -/

/-- What every completion does, whatever the command and its outcome: DONE is set and ENG goes IDLE, and nothing changes
but ERRCODE, the warnings, the destination and the entropy source. -/
structure Completed (s t : State) : Prop where
  cfg : t.cfg = s.cfg
  ctrl : t.ctrl = s.ctrl
  bitlen : t.bitlen = s.bitlen
  lastcmd : t.lastcmd = s.lastcmd
  inReset : t.inReset = s.inReset
  host : t.host = s.host
  turns : t.turns = s.turns
  responses : t.responses = s.responses
  ovr : t.status.ovr = s.status.ovr
  done : t.status.done = true
  idle : t.eng = .idle

theorem finish_completed (s : State) (e : ErrCode) (w : Warns) : Completed s (s.finish e w) := by
  constructor <;> rfl

theorem Completes.completed {i : Instr} {s t : State} (h : Completes i s t) : Completed s t := by
  cases h with
  | error s0 e w hs => rcases hs with rfl | rfl <;> constructor <;> rfl
  | none => exact finish_completed s _ _
  | result s0 rd v w hs => rcases hs with rfl | rfl <;> constructor <;> rfl
  | keys kb => constructor <;> rfl

theorem exec_completes {i : Instr} {s t : State} (h : exec i s = .next t) : Completes i s t := by
  obtain ⟨-, -, hc⟩ := exec_next_cases h
  exact hc

/-- The draw touches no register. -/
theorem completeX_x_of_draw {s s0 : State} (hs : s0 = s ∨ s0 = s.takeDraw) (rd : XReg) (v : Nat) (w : Warns) :
    (s0.completeX rd v w).x = s.x.set rd v := by
  rcases hs with rfl | rfl <;> rfl

/-- The X file changes at most at the destination register (R31). -/
theorem Completes.x_get {i : Instr} {s t : State} (h : Completes i s t) {j : XReg} (hj : destX i ≠ some j) :
    t.x[j] = s.x[j] := by
  cases h with
  | error s0 e w hs => rcases hs with rfl | rfl <;> rfl
  | none => rfl
  | result s0 rd v w hs hd =>
    have hne : j ≠ rd := fun e => hj (e ▸ hd)
    rw [completeX_x_of_draw hs, x_set_get, if_neg hne]
  | keys => rfl

theorem Completes.x_of_no_destX {i : Instr} {s t : State} (h : Completes i s t) (hi : destX i = Option.none) : t.x = s.x :=
  Vector.ext fun j hj => h.x_get (j := ⟨j, hj⟩) (by simp [hi])

/-- A result is within W bits (R123), so the destination stays so. -/
theorem Completes.x_lt {i : Instr} {s t : State} (h : Completes i s t) {j : XReg} (hj : s.x[j] < 2 ^ s.cfg.width) :
    t.x[j] < 2 ^ s.cfg.width := by
  cases h with
  | error s0 e w hs => rcases hs with rfl | rfl <;> exact hj
  | none => exact hj
  | result s0 rd v w hs hd hv =>
    rw [completeX_x_of_draw hs, x_set_get]
    split
    · exact hv
    · exact hj
  | keys => exact hj

/-- The key bank changes only in the OK completion of a command that writes it (R32). -/
theorem Completes.k_changed {i : Instr} {s t : State} (h : Completes i s t) (hk : t.k ≠ s.k) :
    destKeys i = true ∧ t.errcode = .ok := by
  cases h with
  | error s0 e w hs => rcases hs with rfl | rfl <;> exact absurd rfl hk
  | none => exact absurd rfl hk
  | result s0 rd v w hs => rcases hs with rfl | rfl <;> exact absurd rfl hk
  | keys kb hd => exact ⟨hd, rfl⟩

theorem Completes.k_of_not_destKeys {i : Instr} {s t : State} (h : Completes i s t) (hi : destKeys i = false) :
    t.k = s.k := by
  by_contra hk
  obtain ⟨hd, -⟩ := h.k_changed hk
  rw [hi] at hd
  exact Bool.false_ne_true hd

theorem destKeys_iff (i : Instr) : destKeys i = true ↔ ∃ p q, i = .keyderive p q := by
  cases i <;> simp [destKeys]

theorem destKeys_of_destX {i : Instr} {rd : XReg} (h : destX i = some rd) : destKeys i = false := by
  cases i with
  | keyderive p q => exact absurd h (by simp [destX])
  | _ => rfl

/-- Only ENCRYPT asks the entropy source (R152). -/
theorem exec_entropy {i : Instr} {s t : State} (h : exec i s = .next t) (hi : ∀ rd m, i ≠ .encrypt rd m) :
    t.entropy = s.entropy ∧ t.freeIndex = s.freeIndex := by
  cases i with
  | encrypt rd m => exact absurd rfl (hi rd m)
  | nop =>
    obtain ⟨S, -, rfl⟩ := inFlight_eq_next.mp h
    exact ⟨rfl, rfl⟩
  | keyderive p q =>
    obtain ⟨S, -, rfl⟩ := inFlight_eq_next.mp h
    cases deriveKey (S.xReg p) (S.xReg q) S.b <;> split_ifs <;> exact ⟨rfl, rfl⟩
  | _ =>
    obtain ⟨S, -, rfl⟩ := inFlight_eq_next.mp h
    split_ifs <;> exact ⟨rfl, rfl⟩

/-! ### Frames (R31, R32, R117) -/

/-- An aperture word other than STATUS and ERRCODE reads as before a completion where its register is as before. -/
theorem Completed.readTarget_eq {s t : State} (h : Completed s t) {g : Target} (hst : g ≠ .status)
    (herr : g ≠ .errcode) (hx : ∀ i j, g = .xWord i j → t.x[i] = s.x[i])
    (hk : ∀ k j, g = .kWord k j → t.k.get k = s.k.get k) : readTarget t g = readTarget s g := by
  cases g with
  | id => rfl
  | cap => simp only [readTarget, h.cfg]
  | ctrl => simp only [readTarget, h.ctrl]
  | status => exact absurd rfl hst
  | cmd => rfl
  | errcode => exact absurd rfl herr
  | bitlen => exact h.bitlen
  | lastcmd => exact h.lastcmd
  | xWord i j => simp only [readTarget, h.cfg, hx i j rfl]
  | kWord k j => simp only [readTarget, h.cfg, hk k j rfl]
  | reserved => rfl

/-- Settles O46: what every completion keeps, and the X file but for the destination. -/
theorem frameOfXCommands : Obligations.FrameOfXCommands := by
  intro i rd s t hd hx
  have hc := exec_completes hx
  have hf := hc.completed
  have hk : t.k = s.k := hc.k_of_not_destKeys (destKeys_of_destX hd)
  have hother : ∀ j : XReg, j ≠ rd → t.x[j] = s.x[j] := fun j hj =>
    hc.x_get fun e => hj (Option.some.inj (e.symm.trans hd))
  refine ⟨hother, hk, hf.ctrl, hf.bitlen, hf.lastcmd, hf.ovr, hf.cfg, hf.inReset, hf.host, hf.turns, hf.responses,
    exec_entropy hx, fun g hst herr hrd => ?_, hc.x_lt⟩
  refine hf.readTarget_eq hst herr (fun j w hg => hother j ?_) fun k _ _ => by rw [hk]
  rintro rfl
  exact hrd w hg

/-- Settles O47: neither command has an X register as its destination, and NOP no key register. -/
theorem frameOfKeyderiveAndNop : Obligations.FrameOfKeyderiveAndNop := by
  intro i s t hi hx
  have hc := exec_completes hx
  have hf := hc.completed
  have hkeep : t.x = s.x := hc.x_of_no_destX (by rcases hi with rfl | ⟨p, q, rfl⟩ <;> rfl)
  obtain ⟨hent, hfree⟩ := exec_entropy hx (by rcases hi with rfl | ⟨p, q, rfl⟩ <;> simp)
  refine ⟨hkeep, hf.ctrl, hf.bitlen, hf.lastcmd, hf.ovr, hf.cfg, hf.inReset, hf.host, hf.turns, hf.responses, hent,
    hfree, fun hnop => hc.k_of_not_destKeys (hnop ▸ rfl), fun g hst herr hkey => ?_⟩
  exact hf.readTarget_eq hst herr (fun _ _ _ => by rw [hkeep]) fun k w hg => absurd hg (hkey k w)

/-! ### Host writes (R77) -/

/-- STATUS stands at one offset of the map (R72). -/
theorem targetOf_eq_status_iff (off : Nat) : targetOf off = .status ↔ off = 0x0C := by
  refine ⟨fun h => ?_, fun h => h ▸ rfl⟩
  by_contra hne
  unfold targetOf at h
  split_ifs at h

theorem HostWrites.cfg {s u : State} {v : Word} (h : HostWrites s v u) : u.cfg = s.cfg := by cases h <;> rfl

/-- No host write sets DONE (R39). -/
theorem HostWrites.done {s u : State} {v : Word} (h : HostWrites s v u) (hu : u.status.done = true) :
    s.status.done = true := by
  cases h with
  | status =>
    obtain ⟨hd, -⟩ := Bool.and_eq_true_iff.mp hu
    exact hd
  | issued => exact absurd hu Bool.false_ne_true
  | _ => exact hu

/-- A write that acts only while IDLE acts, or is rejected (R48). -/
theorem whenIdle_elim {P : State → Prop} {s t : State} (acts : s.eng = .idle → P t)
    (rejected : P { s with status := setOverrun s.status }) : P (whenIdle s t) := by
  cases hE : s.eng with
  | idle => rw [whenIdle_idle hE]; exact acts hE
  | busy S => rw [whenIdle_busy hE]; exact rejected

/-- A window write replaces a word of the register while IDLE, is ignored, or is rejected (R48, R73, R74). -/
theorem whenRegisterWord_elim {P : State → Prop} {s t : State} {j : Nat}
    (acts : s.eng = .idle → j < s.cfg.words → P t) (ignored : P s)
    (rejected : P { s with status := setOverrun s.status }) : P (whenRegisterWord s j t) := by
  refine whenIdle_elim (fun hE => ?_) rejected
  split
  · next hj => exact acts hE hj
  · exact ignored

theorem memWrite_xWord {s : State} {off : Nat} {i : XReg} {j : Nat} (ht : targetOf off = .xWord i j) (v : Word) :
    memWrite s off v = whenRegisterWord s j { s with x := s.x.set i (setWordAt s.x[i] j v) } := by
  simp only [memWrite, ht]

theorem memWrite_kWord {s : State} {off : Nat} {k : KReg} {j : Nat} (ht : targetOf off = .kWord k j) (v : Word) :
    memWrite s off v = whenRegisterWord s j { s with k := s.k.set k (setWordAt (s.k.get k) j v) } := by
  simp only [memWrite, ht]

/-- A host write that clears OVR writes 1 to bit 2 of STATUS (R39). -/
theorem memWrite_clears_ovr {s : State} {off : Nat} {v : Word} (hs : s.status.ovr = true) :
    (memWrite s off v).status.ovr = false → off = 0x0C ∧ v.getLsbD 2 = true := by
  have hkept : ¬ s.status.ovr = false := by simp [hs]
  have hset : ¬ (setOverrun s.status).ovr = false := by simp
  cases ht : targetOf off with
  | status =>
    simp only [memWrite, ht, writeOneToClear, hs]
    exact fun hu => ⟨(targetOf_eq_status_iff off).mp ht, by simpa using hu⟩
  | cmd | bitlen =>
    simp only [memWrite, ht]
    exact whenIdle_elim (P := fun u => u.status.ovr = false → _) (fun _ hu => absurd hu hkept) fun hu => absurd hu hset
  | xWord _ _ | kWord _ _ =>
    simp only [memWrite, ht]
    exact whenRegisterWord_elim (P := fun u => u.status.ovr = false → _) (fun _ _ hu => absurd hu hkept)
      (fun hu => absurd hu hkept) fun hu => absurd hu hset
  | _ =>
    simp only [memWrite, ht]
    exact fun hu => absurd hu hkept

/-- A host write that changes the key bank is one to a word of a key register while IDLE (R32, R48, R74). -/
theorem memWrite_changes_k {s : State} {off : Nat} {v : Word} :
    (memWrite s off v).k ≠ s.k → s.eng = .idle ∧ ∃ k j, targetOf off = .kWord k j ∧ j < s.cfg.words := by
  cases ht : targetOf off with
  | kWord k j =>
    rw [memWrite_kWord ht]
    exact whenRegisterWord_elim (P := fun u => u.k ≠ s.k → _) (fun hE hj _ => ⟨hE, k, j, rfl, hj⟩) (absurd rfl)
      (absurd rfl)
  | xWord _ _ =>
    rw [memWrite_xWord ht]
    exact whenRegisterWord_elim (P := fun u => u.k ≠ s.k → _) (fun _ _ => absurd rfl) (absurd rfl) (absurd rfl)
  | cmd | bitlen =>
    simp only [memWrite, ht]
    exact whenIdle_elim (P := fun u => u.k ≠ s.k → _) (fun _ => absurd rfl) (absurd rfl)
  | _ =>
    simp only [memWrite, ht]
    exact absurd rfl

/-- Settles O51: the windows by where their offsets lead, the control registers by evaluation. -/
theorem busyWritesAreRejected : Obligations.BusyWritesAreRejected := by
  intro s S v hS
  exact ⟨fun i j hj => (memWrite_xWord (targetOf_xOffset i hj) v).trans (whenRegisterWord_busy hS j _),
    fun k j hj => (memWrite_kWord (targetOf_kOffset k hj) v).trans (whenRegisterWord_busy hS j _),
    whenIdle_busy hS _, whenIdle_busy hS _, rfl, rfl⟩

/-! ### The turn of each agent (R82) -/

theorem admission_eq_accepted_iff {s : State} {addr size off : Nat} :
    admission s addr size = .accepted off ↔
      s.cfg.base ≤ addr ∧ addr < s.cfg.base + apertureSize ∧ s.inReset = false ∧ size = 4 ∧
        (addr - s.cfg.base) % 4 = 0 ∧ off = addr - s.cfg.base := by
  unfold admission
  split_ifs with hout hres hbus hbad
  · exact iff_of_false not_false (by omega)
  · exact iff_of_false not_false (by simp [hres])
  · exact iff_of_false not_false (by simp [hres])
  · exact iff_of_false not_false (by omega)
  · simp only [Admission.accepted.injEq, Bool.eq_false_of_not_eq_true hres, true_and]
    omega

/-- Nothing of the engine, the parameters, the schedule or the reset input differs. -/
def State.EngineKept (s t : State) : Prop :=
  t = { s with host := t.host, responses := t.responses, freeIndex := t.freeIndex }

theorem hostReadThen_engineKept {s t : State} {addr size : Nat} {goesOn : Word → List HostOp}
    (h : hostReadThen s addr size goesOn = .next t) : s.EngineKept t := by
  unfold hostReadThen at h
  split at h
  · exact nomatch h
  · obtain rfl := Host.Outcome.next.inj h
    rfl
  · unfold State.busError at h
    split at h
    · exact nomatch h
    · obtain rfl := Host.Outcome.next.inj h
      rfl
  · next off _ =>
    obtain rfl := Host.Outcome.next.inj h
    rcases memRead_cases s off with ⟨-, hm⟩ | ⟨-, -, hm⟩ <;> rw [hm] <;> rfl

/-- The host's turn reaches the engine only by an accepted write of 4 bytes inside the aperture (R76 to R78). -/
theorem hostStep_cases {s t : State} (h : hostStep s = .next t) :
    s.EngineKept t ∨ ∃ addr v rest, s.host = .write addr 4 v :: rest ∧ s.cfg.base ≤ addr ∧
      t = ((memWrite s (addr - s.cfg.base) v).respond (.write false)).hostRest rest := by
  unfold hostStep at h
  split at h
  · obtain rfl := Host.Outcome.next.inj h
    exact .inl rfl
  · exact .inl (hostReadThen_engineKept h)
  · next addr size v rest hop =>
    unfold hostWrite at h
    split at h
    · exact nomatch h
    · obtain rfl := Host.Outcome.next.inj h
      exact .inl rfl
    · unfold State.busError at h
      split at h
      · exact nomatch h
      · obtain rfl := Host.Outcome.next.inj h
        exact .inl rfl
    · next off ha =>
      obtain ⟨hbase, -, -, rfl, -, rfl⟩ := admission_eq_accepted_iff.mp ha
      exact .inr ⟨addr, v, rest, hop, hbase, (Host.Outcome.next.inj h).symm⟩
  · exact .inl (hostReadThen_engineKept h)
  · obtain rfl := Host.Outcome.next.inj h
    split
    · exact .inl rfl
    · exact .inl rfl

/-- The engine's turn does nothing, or completes the command word in flight, a command or an illegal word (R105, R117). -/
theorem engineStep_cases {s t : State} (h : engineStep s = .next t) :
    t = s ∨ ∃ S, s.eng = .busy S ∧
      ((∃ i, decode S.cmd = .ok i ∧ Completes i s t) ∨ t = s.finish .illegalCmd Warns.none) := by
  unfold engineStep at h
  split at h
  · exact .inl (Host.Outcome.next.inj h).symm
  · split at h
    · exact .inl (Host.Outcome.next.inj h).symm
    · next S hS =>
      split at h
      · next i hi => exact .inr ⟨S, hS, .inl ⟨i, hi, exec_completes h⟩⟩
      · exact .inr ⟨S, hS, .inr (Host.Outcome.next.inj h).symm⟩

theorem engineStep_completed {s t : State} (h : engineStep s = .next t) :
    t = s ∨ s.eng.isBusy = true ∧ Completed s t := by
  rcases engineStep_cases h with rfl | ⟨S, hS, ⟨i, -, hc⟩ | rfl⟩
  · exact .inl rfl
  · exact .inr ⟨by simp [hS], hc.completed⟩
  · exact .inr ⟨by simp [hS], finish_completed s _ _⟩

/-- Releasing an input that is not asserted does nothing (R200). -/
theorem inReset_of_releaseReset_ne {s : State} (h : s.releaseReset ≠ s) : s.inReset = true := by
  by_contra hr
  exact h (if_neg hr)

/-- The release sets no DONE (R47). -/
theorem done_of_releaseReset_done {s : State} (h : s.releaseReset.status.done = true) : s.status.done = true := by
  unfold State.releaseReset at h
  split at h
  · exact absurd h Bool.false_ne_true
  · exact h

theorem releaseReset_cfg (s : State) : s.releaseReset.cfg = s.cfg := by
  unfold State.releaseReset
  split <;> rfl

/-- A step is the turn of one of the two agents, or an edge of the reset input. -/
theorem step_turn_cases {s t : State} (h : step s = .next t) :
    (s.nextTurn = .host ∧ hostStep s.popTurn = .next t) ∨
      (s.nextTurn = .engine ∧ engineStep s.popTurn = .next t) ∨
      (s.nextTurn = .assertReset ∧ t = s.popTurn.assertReset) ∨
      (s.nextTurn = .releaseReset ∧ t = s.popTurn.releaseReset) := by
  unfold step at h
  split at h
  · split at h
    · next hn => exact .inl ⟨hn, h⟩
    · next hn => exact .inr (.inl ⟨hn, h⟩)
    · next hn => exact .inr (.inr (.inl ⟨hn, (Host.Outcome.next.inj h).symm⟩))
    · next hn => exact .inr (.inr (.inr ⟨hn, (Host.Outcome.next.inj h).symm⟩))
  · exact nomatch h

/-! ### What no turn, or only some turns, can change -/

theorem step_cfg {s t : State} (h : step s = .next t) : t.cfg = s.cfg := by
  rcases step_turn_cases h with ⟨-, hh⟩ | ⟨-, he⟩ | ⟨-, rfl⟩ | ⟨-, rfl⟩
  · rcases hostStep_cases hh with hk | ⟨addr, v, rest, -, -, rfl⟩
    · rw [hk]; rfl
    · exact (memWrite_cases s.popTurn _ v).cfg
  · rcases engineStep_completed he with rfl | ⟨-, hf⟩
    · rfl
    · exact hf.cfg
  · rfl
  · exact releaseReset_cfg s.popTurn

/-- Settles O6: the fields by evaluation, and every agent's turn keeps the parameters. -/
theorem idAndCapAreHardwired : Obligations.IdAndCapAreHardwired := by
  refine ⟨fun s => ⟨rfl, idValue_high, idValue_low, fun v => rfl⟩, fun s hc => ?_,
    fun s t h => step_cfg h⟩
  have hcap : (readTarget s (targetOf 0x004)).toNat = s.cfg.nmax := readTarget_cap_toNat hc
  rw [hcap]
  exact ⟨rfl, rfl, params_words_eq s.cfg, fun v => rfl⟩

/-- Settles O8: completions keep OVR, and of the host's operations only the write of STATUS clears it. -/
theorem overrunIsSticky : Obligations.OverrunIsSticky := by
  intro s t h hs ht
  have hkept : ¬ s.status.ovr = false := by simp [hs]
  rcases step_turn_cases h with ⟨hn, hh⟩ | ⟨-, he⟩ | ⟨-, rfl⟩ | ⟨hn, rfl⟩
  · rcases hostStep_cases hh with hk | ⟨addr, v, rest, hop, hbase, rfl⟩
    · rw [hk] at ht
      exact absurd ht hkept
    · obtain ⟨hoff, hbit⟩ := memWrite_clears_ovr (s := s.popTurn) hs ht
      have haddr : addr = s.cfg.base + 0x0C := by rw [← hoff]; exact (Nat.add_sub_cancel' hbase).symm
      exact .inr ⟨hn, v, rest, haddr ▸ hop, hbit⟩
  · rcases engineStep_completed he with rfl | ⟨-, hf⟩
    · exact absurd ht hkept
    · exact absurd (hf.ovr.symm.trans ht) hkept
  · exact absurd ht hkept
  · exact .inl ⟨hn, inReset_of_releaseReset_ne (s := s.popTurn) fun e => hkept (by rwa [e] at ht)⟩

/-- Settles O9: no host write and no edge of reset sets DONE, so the engine's turn completed a command. -/
theorem doneIsSetOnlyByCompletion : Obligations.DoneIsSetOnlyByCompletion := by
  intro s t h hs ht
  have hclear : ¬ s.status.done = true := by simp [hs]
  rcases step_turn_cases h with ⟨-, hh⟩ | ⟨hn, he⟩ | ⟨-, rfl⟩ | ⟨-, rfl⟩
  · rcases hostStep_cases hh with hk | ⟨addr, v, rest, -, -, rfl⟩
    · rw [hk] at ht
      exact absurd ht hclear
    · exact absurd ((memWrite_cases s.popTurn _ v).done ht) hclear
  · rcases engineStep_completed he with rfl | ⟨hbusy, hf⟩
    · exact absurd ht hclear
    · exact ⟨hn, hbusy, hf.idle⟩
  · exact absurd ht hclear
  · exact absurd (done_of_releaseReset_done ht) hclear

/-- Settles O10: the completion of a command that writes keys, a write of a key word, or the release of reset. -/
theorem keyBankHasThreeWriters : Obligations.KeyBankHasThreeWriters := by
  intro s t h hk
  rcases step_turn_cases h with ⟨hn, hh⟩ | ⟨hn, he⟩ | ⟨-, rfl⟩ | ⟨hn, rfl⟩
  · rcases hostStep_cases hh with hkept | ⟨addr, v, rest, hop, -, rfl⟩
    · rw [hkept] at hk
      exact absurd rfl hk
    · obtain ⟨hE, k, j, htarget, hj⟩ := memWrite_changes_k (s := s.popTurn) hk
      exact .inr (.inl ⟨hE, hn, addr, v, rest, k, j, hop, htarget, hj⟩)
  · rcases engineStep_cases he with rfl | ⟨S, hS, ⟨i, hi, hc⟩ | rfl⟩
    · exact absurd rfl hk
    · obtain ⟨hdest, hok⟩ := hc.k_changed hk
      obtain ⟨p, q, rfl⟩ := (destKeys_iff i).mp hdest
      exact .inl ⟨S, p, q, hn, hS, hi, hok⟩
    · exact absurd rfl hk
  · exact absurd rfl hk
  · exact .inr (.inr ⟨hn, inReset_of_releaseReset_ne (s := s.popTurn) fun e => hk (by rw [e]; rfl)⟩)

/-! ### The bits of CTRL, STATUS and ERRCODE (R38, R39, R42), and the interrupt (R46) -/

theorem ctrlWord_toNat (c : Ctrl) : (ctrlWord c).toNat = c.ie.toNat + 2 * c.strict.toNat := by
  obtain ⟨ie, strict⟩ := c
  revert ie strict
  decide

theorem statusWord_toNat (busy : Bool) (st : Status) :
    (statusWord busy st).toNat =
      busy.toNat + 2 * st.done.toNat + 4 * st.ovr.toNat + 256 * st.wPt.toNat + 512 * st.wCt.toNat +
        1024 * st.wK.toNat := by
  obtain ⟨done, ovr, wPt, wCt, wK⟩ := st
  revert busy done ovr wPt wCt wK
  decide

theorem errcodeWord_toNat_le (e : ErrCode) : (errcodeWord e).toNat ≤ 0x0B := by cases e <;> decide

/-- Of a word written to CTRL the two defined bits are kept (R38). -/
theorem ctrlWord_ctrlOfWord (v : Word) : ctrlWord (ctrlOfWord v) = v &&& 3#32 := by
  apply BitVec.eq_of_toNat_eq
  rw [ctrlWord_toNat]
  show (v.toNat.testBit 0).toNat + 2 * (v.toNat.testBit 1).toNat = v.toNat &&& (2 ^ 2 - 1)
  rw [Nat.toNat_testBit, Nat.toNat_testBit, Nat.and_two_pow_sub_one_eq_mod]
  omega

theorem ctrlWord_getLsbD_ie (c : Ctrl) : (ctrlWord c).getLsbD 0 = c.ie := by
  obtain ⟨ie, strict⟩ := c
  revert ie strict
  decide

theorem statusWord_getLsbD_done (busy : Bool) (st : Status) : (statusWord busy st).getLsbD 1 = st.done := by
  obtain ⟨done, ovr, wPt, wCt, wK⟩ := st
  revert busy done ovr wPt wCt wK
  decide

theorem readTarget_errcode {s : State} {e : ErrCode} (h : s.errcode = e) : readTarget s .errcode = errcodeWord e :=
  congrArg errcodeWord h

/-- Settles O54: the two control words bit by bit, the error codes one by one. -/
theorem controlStatusAndErrorBits : Obligations.ControlStatusAndErrorBits := by
  intro s
  exact ⟨ctrlWord_toNat s.ctrl, statusWord_toNat s.eng.isBusy s.status, readTarget_errcode, readTarget_errcode,
    readTarget_errcode, readTarget_errcode, readTarget_errcode, readTarget_errcode, readTarget_errcode,
    readTarget_errcode, readTarget_errcode, readTarget_errcode, readTarget_errcode, readTarget_errcode,
    errcodeWord_toNat_le s.errcode, ctrlWord_ctrlOfWord⟩

theorem exec_irq {i : Instr} {s t : State} (h : exec i s = .next t) : t.irq = s.ctrl.ie := by
  have hf := (exec_completes h).completed
  rw [State.irq, hf.ctrl, hf.done, Bool.and_true]

/-- Settles O55: a completion sets DONE; issue and a write of 1 clear it, and IE = 0 masks it. -/
theorem interruptIsEnableAndDone : Obligations.InterruptIsEnableAndDone := by
  intro s
  refine ⟨?_, fun i t => exec_irq, fun v hE => ?_, fun v hv => ?_, fun v hv => ⟨?_, rfl⟩⟩
  · exact congrArg₂ _ (ctrlWord_getLsbD_ie s.ctrl).symm (statusWord_getLsbD_done s.eng.isBusy s.status).symm
  · have hw : memWrite s 0x010 v = s.issue v := whenIdle_idle hE _
    rw [hw, State.irq, issue_status, clearForIssue_done, Bool.and_false]
  · show (s.ctrl.ie && (s.status.done && !v.getLsbD 1)) = false
    rw [hv, Bool.not_true, Bool.and_false, Bool.and_false]
  · show (v.getLsbD 0 && s.status.done) = false
    rw [hv, Bool.false_and]

end Sys2Proof.Machine
end

section
/-! The statements of the family 20_memory.md: the aperture's map, the host's access to it at the step, the words of the
windows, and the load of the key bank. -/

namespace Sys2Proof.Machine

/-! ### The reserved ranges and the reads (R72, R76) -/

theorem targetOf_reserved {off : Nat} (h : (0x20 ≤ off ∧ off < 0x10000) ∨ (0x27000 ≤ off ∧ off < 0x40000)) :
    targetOf off = .reserved := by
  rcases h with ⟨hlow, hcsr⟩ | ⟨hwindows, -⟩
  · have notCsr : ∀ a, a < 0x20 → off ≠ a := fun a ha => by omega
    simp [targetOf, notCsr, hcsr]
  · rw [targetOf_windows (by omega), if_neg (by omega), if_neg (by omega)]

/-- A target that the model never takes for a destination reads its defined value (R49, R76). -/
theorem memRead_of_not_unspecified {s : State} {off : Nat} (h : readIsUnspecified s (targetOf off) = false) :
    memRead s off = (s, readTarget s (targetOf off)) := if_neg (Bool.eq_false_iff.mp h)

theorem isDestinationWord_iff (c : Params) (i : Instr) (t : Target) :
    isDestinationWord c i t = true ↔ Expected.Destination c i t := by
  have hx : ∀ rd r : XReg, ∀ j, (some rd == some r && decide (j < c.words)) = true ↔
      ∃ j', j' < c.words ∧ Target.xWord r j = .xWord rd j' := fun rd r j => by
    simp only [Bool.and_eq_true, beq_iff_eq, Option.some.injEq, decide_eq_true_eq, Target.xWord.injEq]
    exact ⟨fun ⟨hr, hj⟩ => ⟨j, hj, hr.symm, rfl⟩, fun ⟨_, hj, hr, hjj⟩ => ⟨hr.symm, hjj ▸ hj⟩⟩
  cases t with
  | xWord r j =>
    cases i with
    | nop | keyderive => simp [isDestinationWord, destX, Expected.Destination]
    | _ => exact hx _ r j
  | kWord r j => cases i <;> simp [isDestinationWord, destKeys, Expected.Destination]
  | _ => cases i <;> simp [isDestinationWord, Expected.Destination]

theorem readIsUnspecified_iff (s : State) (t : Target) :
    readIsUnspecified s t = true ↔
      ∃ S i, s.eng = .busy S ∧ decode S.cmd = .ok i ∧ Expected.Destination s.cfg i t := by
  unfold readIsUnspecified
  cases hE : s.eng with
  | idle => simp
  | busy S =>
    cases hd : decode S.cmd with
    | error e => simp [hd]
    | ok i => simp [hd, isDestinationWord_iff]

theorem readIsUnspecified_reserved (s : State) : readIsUnspecified s .reserved = false := by
  refine Bool.eq_false_iff.mpr fun h => ?_
  obtain ⟨S, i, -, -, hdest⟩ := (readIsUnspecified_iff s _).mp h
  cases i <;> simp [Expected.Destination] at hdest

/-! ### The host's access at the step (R76 to R78) -/

theorem step_of_hostTurn {s : State} {op : HostOp} {rest : List HostOp} (h : Expected.HostTurn s op rest) :
    step s = hostStep s.popTurn := by
  obtain ⟨hwf, -, hturn, -⟩ := h
  simp only [step, hwf, hturn, if_true]

theorem step_read {s : State} {addr size : Nat} {rest : List HostOp}
    (h : Expected.HostTurn s (.read addr size) rest) : step s = hostRead s.popTurn addr size rest := by
  have ⟨_, _, _, hhost⟩ := h
  simp only [step_of_hostTurn h, hostStep, popTurn_host, hhost]

theorem step_write {s : State} {addr size : Nat} {v : Word} {rest : List HostOp}
    (h : Expected.HostTurn s (.write addr size v) rest) : step s = hostWrite s.popTurn addr size v rest := by
  have ⟨_, _, _, hhost⟩ := h
  simp only [step_of_hostTurn h, hostStep, popTurn_host, hhost]

theorem admission_accepted {s : State} {off : Nat} (hr : s.inReset = false) (hoff : off < 0x40000)
    (halign : off % 4 = 0) : admission s (s.cfg.base + off) 4 = .accepted off := by
  have hsub : s.cfg.base + off - s.cfg.base = off := Nat.add_sub_cancel_left _ _
  exact admission_eq_accepted_iff.mpr
    ⟨Nat.le_add_right _ _, Nat.add_lt_add_left hoff _, hr, rfl, hsub.symm ▸ halign, hsub.symm⟩

theorem admission_busError {s : State} {off size : Nat} (hr : s.inReset = false) (hoff : off < 0x40000)
    (hbad : size ≠ 4 ∨ off % 4 ≠ 0) : admission s (s.cfg.base + off) size = .busError := by
  have hinside : ¬ (s.cfg.base + off < s.cfg.base ∨ s.cfg.base + apertureSize ≤ s.cfg.base + off) := by
    unfold apertureSize; omega
  rw [admission, if_neg hinside, if_neg (by simp [hr]), Nat.add_sub_cancel_left, if_pos hbad]

/-- Settles O48: the map by `targetOf`'s lemmas; a reserved offset is no destination, so its read is the defined 0. -/
theorem apertureMapIsTheTable : Obligations.ApertureMapIsTheTable := by
  refine ⟨rfl, rfl, rfl, rfl, rfl, rfl, rfl, rfl, fun i j => targetOf_xOffset i, fun k j => targetOf_kOffset k,
    fun off hoff => ?_, fun s off => ?_⟩
  · have ht := targetOf_reserved hoff
    refine ⟨ht, fun s v => ⟨by simp only [memWrite, ht], ?_, fun hr => admission_accepted hr (by omega)⟩⟩
    rw [memRead_of_not_unspecified (ht ▸ readIsUnspecified_reserved s), ht]
    rfl
  · rcases memRead_cases s off with ⟨-, hm⟩ | ⟨-, -, hm⟩ <;> rw [hm]

/-- Settles O49: the access is accepted, and the read is unspecified exactly at the destination in flight. -/
theorem hostReadReturnsTheRegister : Obligations.HostReadReturnsTheRegister := by
  intro s off rest h hoff halign after
  have ⟨_, hr, _, _⟩ := h
  have hstep : step s = .next (((memRead s.popTurn off).1.respond (.read (memRead s.popTurn off).2 false)).hostRest
      rest) := by
    have hacc : admission s.popTurn (s.cfg.base + off) 4 = .accepted off := admission_accepted hr hoff halign
    rw [step_read h, hostRead, hostReadThen, hacc]
  rw [hstep]
  refine ⟨fun hdefined => ?_, fun S i hS hi hdest => ?_⟩
  · have hu : readIsUnspecified s.popTurn (targetOf off) = false := Bool.eq_false_iff.mpr fun hu => by
      obtain ⟨S, i, hS, hi, hdest⟩ := (readIsUnspecified_iff _ _).mp hu
      exact hdefined S i hS hi hdest
    rw [memRead_of_not_unspecified hu]
    rfl
  · have hu : readIsUnspecified s.popTurn (targetOf off) = true := (readIsUnspecified_iff _ _).mpr ⟨S, i, hS, hi, hdest⟩
    rw [memRead, if_pos hu]
    exact ⟨_, rfl⟩

/-- Settles O53: the access is answered with a bus error before it has an effect. -/
theorem otherAccessesGetABusError : Obligations.OtherAccessesGetABusError := by
  intro s off size v rest hoff hbad answer
  have hadm : s.inReset = false → admission s.popTurn (s.cfg.base + off) size = .busError :=
    fun hr => admission_busError hr hoff hbad
  refine ⟨fun h => ?_, fun h => ?_⟩
  · have ⟨_, hr, _, _⟩ := h
    rw [step_read h, hostRead, hostReadThen, hadm hr]
    rfl
  · have ⟨_, hr, _, _⟩ := h
    rw [step_write h, hostWrite, hadm hr]
    rfl

/-! ### The effect of a write by its target (R77) -/

/-- `s` with other agents around the engine: what the host has left to do, the schedule, and the responses so far. -/
def State.withAgents (s : State) (ops : List HostOp) (ts : List Turn) (rs : List Response) : State :=
  { s with host := ops, turns := ts, responses := rs }

theorem whenIdle_withAgents (s t : State) (ops : List HostOp) (ts : List Turn) (rs : List Response) :
    whenIdle (s.withAgents ops ts rs) (t.withAgents ops ts rs) = (whenIdle s t).withAgents ops ts rs := by
  unfold whenIdle State.withAgents
  cases s.eng <;> rfl

theorem whenRegisterWord_withAgents (s t : State) (j : Nat) (ops : List HostOp) (ts : List Turn) (rs : List Response) :
    whenRegisterWord (s.withAgents ops ts rs) j (t.withAgents ops ts rs) =
      (whenRegisterWord s j t).withAgents ops ts rs := by
  rw [whenRegisterWord, whenRegisterWord, ← whenIdle_withAgents, apply_ite (fun u : State => u.withAgents ops ts rs)]
  rfl

/-- The agents around the engine play no part in the effect of a write (R77). -/
theorem memWrite_withAgents (s : State) (off : Nat) (v : Word) (ops : List HostOp) (ts : List Turn)
    (rs : List Response) : memWrite (s.withAgents ops ts rs) off v = (memWrite s off v).withAgents ops ts rs := by
  unfold memWrite
  cases targetOf off with
  | cmd => exact whenIdle_withAgents s (s.issue v) ops ts rs
  | bitlen => exact whenIdle_withAgents s { s with bitlen := v } ops ts rs
  | xWord i j => exact whenRegisterWord_withAgents s { s with x := s.x.set i (setWordAt s.x[i] j v) } j ops ts rs
  | kWord k j => exact whenRegisterWord_withAgents s { s with k := s.k.set k (setWordAt (s.k.get k) j v) } j ops ts rs
  | _ => rfl

/-- An accepted write at the step: the write's effect, and the host goes on. -/
theorem step_write_accepted {s : State} {off : Nat} {v : Word} {rest : List HostOp}
    (h : Expected.HostTurn s (.write (s.cfg.base + off) 4 v) rest) (hoff : off < 0x40000) (halign : off % 4 = 0) :
    step s = .next ((memWrite s off v).withAgents rest s.turns.tail (.write false :: s.responses)) := by
  have ⟨_, hr, _, _⟩ := h
  have hacc : admission s.popTurn (s.cfg.base + off) 4 = .accepted off := admission_accepted hr hoff halign
  have hpop : memWrite s.popTurn off v = (memWrite s off v).withAgents s.host s.turns.tail s.responses :=
    memWrite_withAgents s off v _ _ _
  rw [step_write h, hostWrite, hacc]
  simp only [hpop]
  rfl

/-- A big register after a write of `v` to word `j` of its window while IDLE (R73, R74). -/
def windowWrite (c : Params) (x j : Nat) (v : Word) : Nat := if j < c.words then setWordAt x j v else x

theorem windowWrite_eq (c : Params) (x j : Nat) (v : Word) :
    windowWrite c x j v =
      if j < c.words then x - x / 2 ^ (32 * j) % 2 ^ 32 * 2 ^ (32 * j) + v.toNat * 2 ^ (32 * j) else x := by
  have hword : bits x (32 * j + 31) (32 * j) = x / 2 ^ (32 * j) % 2 ^ 32 := by simp [bits]
  rw [windowWrite, setWordAt, hword]

theorem windowWrite_beyond {c : Params} {j : Nat} (hj : c.words ≤ j) (x : Nat) (v : Word) : windowWrite c x j v = x :=
  if_neg (by omega)

theorem keyBank_ext {a b : KeyBank} (h : ∀ k : KReg, a.get k = b.get k) : a = b := by
  obtain ⟨⟩ := a
  obtain ⟨⟩ := b
  simp only [KeyBank.mk.injEq]
  exact ⟨h 0, h 1, h 2, h 3, h 4, h 5, h 6⟩

@[simp] theorem keyBank_set_get (kb : KeyBank) (k : KReg) : kb.set k (kb.get k) = kb := by
  refine keyBank_ext fun l => ?_
  rw [keyBank_get_set]
  split_ifs with hl
  · rw [hl]
  · rfl

@[simp] theorem keyBank_set_set (kb : KeyBank) (k : KReg) (v w : Nat) : (kb.set k v).set k w = kb.set k w := by
  refine keyBank_ext fun l => ?_
  simp only [keyBank_get_set]
  split_ifs <;> rfl

theorem memWrite_xWord_idle {s : State} {off : Nat} {i : XReg} {j : Nat} (ht : targetOf off = .xWord i j)
    (hE : s.eng = .idle) (v : Word) : memWrite s off v = { s with x := s.x.set i (windowWrite s.cfg s.x[i] j v) } := by
  rw [memWrite_xWord ht, whenRegisterWord_idle hE, windowWrite]
  split_ifs
  · rfl
  · rw [Fin.getElem_fin, Vector.set_getElem_self]

theorem memWrite_kWord_idle {s : State} {off : Nat} {k : KReg} {j : Nat} (ht : targetOf off = .kWord k j)
    (hE : s.eng = .idle) (v : Word) :
    memWrite s off v = { s with k := s.k.set k (windowWrite s.cfg (s.k.get k) j v) } := by
  rw [memWrite_kWord ht, whenRegisterWord_idle hE, windowWrite]
  split_ifs
  · rfl
  · rw [keyBank_set_get]

/-- While BUSY a write to BITLEN, CMD or a window has no effect but OVR (R48). -/
theorem memWrite_busy {s : State} {S : Snapshot} (hS : s.eng = .busy S) {off : Nat} (v : Word)
    (ht : targetOf off = .bitlen ∨ targetOf off = .cmd ∨ (∃ i j, targetOf off = .xWord i j) ∨
      ∃ k j, targetOf off = .kWord k j) : memWrite s off v = { s with status := setOverrun s.status } := by
  rcases ht with ht | ht | ⟨i, j, ht⟩ | ⟨k, j, ht⟩
  · simp only [memWrite, ht, whenIdle_busy hS]
  · simp only [memWrite, ht, whenIdle_busy hS]
  · rw [memWrite_xWord ht, whenRegisterWord_busy hS]
  · rw [memWrite_kWord ht, whenRegisterWord_busy hS]

/-- Settles O50: the step is the write's effect, and each target's effect is `memWrite` at that target. -/
theorem hostWriteActsOnItsTarget : Obligations.HostWriteActsOnItsTarget := by
  intro s off v rest h hoff halign
  refine ⟨memWrite s off v, step_write_accepted h hoff halign, fun hro => ?_, fun ht => ?_, fun ht => ?_,
    fun hE => ⟨fun ht => ?_, fun ht => ?_, fun i j ht => ?_, fun k j ht => ?_⟩, fun S hS ht => ?_⟩
  · rcases hro with ht | ht | ht | ht | ht <;> simp only [memWrite, ht]
  · simp only [memWrite, ht, ctrlOfWord]
  · simp only [memWrite, ht, writeOneToClear]
  · simp only [memWrite, ht, whenIdle_idle hE]
  · simp only [memWrite, ht, whenIdle_idle hE]
  · rw [memWrite_xWord_idle ht hE, windowWrite_eq]
  · rw [memWrite_kWord_idle ht hE, windowWrite_eq]
  · refine memWrite_busy hS v (ht.imp_right (Or.imp_right (Or.imp ?_ ?_)))
    · exact fun ⟨i, j, _, hx⟩ => ⟨i, j, hx⟩
    · exact fun ⟨k, j, _, hk⟩ => ⟨k, j, hk⟩

/-! ### The words of a window (R73, R74) -/

theorem windowWord_toNat (c : Params) (x j : Nat) :
    (windowWord c x j).toNat = if j < c.words then x / 2 ^ (32 * j) % 2 ^ 32 else 0 := by
  rw [windowWord]
  split_ifs
  · exact wordAt_toNat x j
  · rfl

theorem windowWord_windowWrite (c : Params) (x j l : Nat) (v : Word) :
    windowWord c (windowWrite c x j v) l =
      if l = j then if j < c.words then v else 0#32 else windowWord c x l := by
  by_cases hj : j < c.words
  · rw [windowWrite, if_pos hj]
    by_cases hl : l = j
    · rw [if_pos hl, if_pos hj, hl, windowWord, if_pos hj, wordAt_setWordAt_same]
    · rw [if_neg hl, windowWord, windowWord, wordAt_setWordAt_ne x v hl]
  · rw [windowWrite, if_neg hj]
    by_cases hl : l = j
    · rw [if_pos hl, if_neg hj, hl, windowWord, if_neg hj]
    · rw [if_neg hl]

/-- After the write of one word of an X window the aperture reads as before, but for that word. -/
theorem readTarget_windowWrite_x (s : State) (i : XReg) (j : Nat) (v : Word) (g : Target) :
    readTarget { s with x := s.x.set i (windowWrite s.cfg s.x[i] j v) } g =
      if g = .xWord i j then if j < s.cfg.words then v else 0#32 else readTarget s g := by
  cases g with
  | xWord l m =>
    simp only [readTarget, Target.xWord.injEq, x_set_get]
    by_cases hl : l = i
    · subst hl; simp [windowWord_windowWrite]
    · simp [hl]
  | _ => rfl

/-- After the write of one word of a K window the aperture reads as before, but for that word. -/
theorem readTarget_windowWrite_k (s : State) (k : KReg) (j : Nat) (v : Word) (g : Target) :
    readTarget { s with k := s.k.set k (windowWrite s.cfg (s.k.get k) j v) } g =
      if g = .kWord k j then if j < s.cfg.words then v else 0#32 else readTarget s g := by
  cases g with
  | kWord l m =>
    simp only [readTarget, Target.kWord.injEq, keyBank_get_set]
    by_cases hl : l = k
    · subst hl; simp [windowWord_windowWrite]
    · simp [hl]
  | _ => rfl

/-- Settles O52: the written word reads back, and every other word of the aperture as before. -/
theorem windowWordsReadBack : Obligations.WindowWordsReadBack := by
  intro s v j _ hE hj
  refine ⟨fun i => ?_, fun k => ?_⟩
  · have ht : memWrite s (0x10000 + 0x1000 * i.val + 4 * j) v = _ := memWrite_xWord_idle (targetOf_xOffset i hj) hE v
    simp only [ht]
    refine ⟨windowWord_toNat s.cfg _ j, ?_, fun g hg => ?_, fun hbeyond => ?_⟩
    · rw [readTarget_windowWrite_x, if_pos rfl]
    · rw [readTarget_windowWrite_x, if_neg hg]
    · rw [windowWrite_beyond hbeyond, Fin.getElem_fin, Vector.set_getElem_self]
  · have ht : memWrite s (0x20000 + 0x1000 * k.val + 4 * j) v = _ := memWrite_kWord_idle (targetOf_kOffset k hj) hE v
    simp only [ht]
    refine ⟨windowWord_toNat s.cfg _ j, ?_, fun g hg => ?_, fun hbeyond => ?_⟩
    · rw [readTarget_windowWrite_k, if_pos rfl]
    · rw [readTarget_windowWrite_k, if_neg hg]
    · rw [windowWrite_beyond hbeyond, keyBank_set_get]

/-! ### The host's runs of writes (R89, R108) -/

theorem run_succ {s t : State} (h : step s = .next t) (n : Nat) :
    Host.Core.run core (n + 1) s = Host.Core.run core n t := by
  have hcore : core.step s = .next t := h
  simp only [Host.Core.run, hcore]

theorem withAgents_self {s : State} {ops : List HostOp} {ts : List Turn} (hops : s.host = ops) (hts : s.turns = ts) :
    s.withAgents ops ts s.responses = s := by
  subst hops hts
  rfl

/-- The engine accepts and is idle, and the schedule is spent, so that the host moves until it issues a command. -/
def State.Ready (s : State) : Prop := s.cfg.wf = true ∧ s.inReset = false ∧ s.eng = .idle ∧ s.turns = []

theorem State.Ready.hostTurn {s : State} (h : s.Ready) (op : HostOp) (rest : List HostOp) (rs : List Response) :
    Expected.HostTurn (s.withAgents (op :: rest) [] rs) op rest := by
  obtain ⟨hwf, hr, hE, -⟩ := h
  exact ⟨hwf, hr, by simp [State.nextTurn, State.withAgents, hE], rfl⟩

theorem memWrite_ready {s : State} {off : Nat} (h : s.Ready) (hcmd : targetOf off ≠ .cmd) (v : Word) :
    (memWrite s off v).Ready := by
  have ⟨_, _, hE, _⟩ := h
  cases ht : targetOf off with
  | cmd => exact absurd ht hcmd
  | bitlen => simp only [memWrite, ht, whenIdle_idle hE]; exact h
  | xWord i j => rw [memWrite_xWord_idle ht hE]; exact h
  | kWord k j => rw [memWrite_kWord_idle ht hE]; exact h
  | _ => simp only [memWrite, ht]; exact h

/-- The host's writes of words `v` at offsets `off`, in order. -/
def writeOps (c : Params) (ws : List (Nat × Word)) : List HostOp := ws.map fun w => wr c w.1 w.2

/-- The effects of writes, in order. -/
def writeAll (s : State) (ws : List (Nat × Word)) : State := ws.foldl (fun u w => memWrite u w.1 w.2) s

/-- An aligned offset inside the aperture where a write issues no command. -/
def IsDataOffset (off : Nat) : Prop := off < 0x40000 ∧ off % 4 = 0 ∧ targetOf off ≠ .cmd

/-- A run of a host's writes is their effects in order, one a step. -/
theorem run_writeOps (ws : List (Nat × Word)) {s : State} (rest : List HostOp) (rs : List Response) (h : s.Ready)
    (hws : ∀ w ∈ ws, IsDataOffset w.1) :
    ∃ rs', Host.Core.run core ws.length (s.withAgents (writeOps s.cfg ws ++ rest) [] rs) =
      .next ((writeAll s ws).withAgents rest [] rs') := by
  induction ws generalizing s rs with
  | nil => exact ⟨rs, rfl⟩
  | cons w ws ih =>
    obtain ⟨hw, hws⟩ := List.forall_mem_cons.mp hws
    obtain ⟨hoff, halign, hcmd⟩ := hw
    have hstep : step (s.withAgents (writeOps s.cfg (w :: ws) ++ rest) [] rs) =
        .next ((memWrite s w.1 w.2).withAgents (writeOps s.cfg ws ++ rest) [] (.write false :: rs)) :=
      (step_write_accepted (h.hostTurn _ _ rs) hoff halign).trans (by rw [memWrite_withAgents]; rfl)
    have hcfg : (memWrite s w.1 w.2).cfg = s.cfg := (memWrite_cases s w.1 w.2).cfg
    obtain ⟨rs', hrun⟩ := ih (.write false :: rs) (memWrite_ready h hcmd w.2) hws
    exact ⟨rs', (run_succ hstep ws.length).trans (hcfg ▸ hrun)⟩

/-! ### Word by word into a big register (R73) -/

/-- The register `x` with the words `js` of `v` written to it, in order. -/
def writeWords (v x : Nat) (js : List Nat) : Nat := js.foldl (fun y j => setWordAt y j (wordAt v j)) x

theorem wordAt_writeWords (v : Nat) (js : List Nat) (x l : Nat) :
    wordAt (writeWords v x js) l = if l ∈ js then wordAt v l else wordAt x l := by
  induction js generalizing x with
  | nil => rfl
  | cons j js ih =>
    rw [writeWords, List.foldl_cons, ← writeWords, ih]
    by_cases hl : l = j
    · simp [hl, wordAt_setWordAt_same]
    · simp [hl, wordAt_setWordAt_ne]

theorem writeWords_lt {n v x : Nat} {js : List Nat} (hjs : ∀ j ∈ js, j < n) (hx : x < 2 ^ (32 * n)) :
    writeWords v x js < 2 ^ (32 * n) := by
  induction js generalizing x with
  | nil => exact hx
  | cons j js ih =>
    obtain ⟨hj, hjs⟩ := List.forall_mem_cons.mp hjs
    exact ih hjs (setWordAt_lt _ hx hj)

theorem mod_eq_of_wordAt_eq {a b : Nat} (n : Nat) (h : ∀ j < n, wordAt a j = wordAt b j) :
    a % 2 ^ (32 * n) = b % 2 ^ (32 * n) := by
  induction n with
  | zero => simp [Nat.mod_one]
  | succ n ih =>
    rw [Nat.mul_succ, pow_add, Nat.mod_mul, Nat.mod_mul, ih fun j hj => h j (by omega), ← wordAt_toNat, ← wordAt_toNat,
      h n (by omega)]

/-- All words written, the register holds the value. -/
theorem writeWords_range {n v x : Nat} (hv : v < 2 ^ (32 * n)) (hx : x < 2 ^ (32 * n)) :
    writeWords v x (List.range n) = v := by
  have hlt : writeWords v x (List.range n) < 2 ^ (32 * n) := writeWords_lt (fun j => List.mem_range.mp) hx
  have hwords : ∀ j < n, wordAt (writeWords v x (List.range n)) j = wordAt v j := fun j hj => by
    rw [wordAt_writeWords, if_pos (List.mem_range.mpr hj)]
  have hmod := mod_eq_of_wordAt_eq n hwords
  rwa [Nat.mod_eq_of_lt hlt, Nat.mod_eq_of_lt hv] at hmod

theorem params_width_eq {c : Params} (hc : c.wf = true) : c.width = 32 * c.words := by
  obtain ⟨-, -, hmul, -⟩ := (params_wf_iff c).mp hc
  rw [params_words_eq, Params.width]
  omega

/-- A window holds every word of its register (R72, R73). -/
theorem params_words_le {c : Params} (hc : c.wf = true) : c.words ≤ 1024 := by
  obtain ⟨-, hmax, -, -⟩ := (params_wf_iff c).mp hc
  rw [params_words_eq]
  omega

/-! ### The key loads (R89) -/

/-- The writes of words `js` of `v` to the window of key register k. -/
def keyWordWrites (k : KReg) (v : Nat) (js : List Nat) : List (Nat × Word) := js.map fun j => (kOffset k j, wordAt v j)

theorem isDataOffset_of_mem_keyWordWrites {k : KReg} {v : Nat} {js : List Nat} (hjs : ∀ j ∈ js, j < 1024)
    {w : Nat × Word} (hw : w ∈ keyWordWrites k v js) : IsDataOffset w.1 := by
  obtain ⟨j, hj, rfl⟩ := List.mem_map.mp hw
  have hj := hjs j hj
  have hk := k.isLt
  refine ⟨?_, ?_, ?_⟩
  · show kOffset k j < 0x40000
    unfold kOffset; omega
  · show kOffset k j % 4 = 0
    unfold kOffset; omega
  · show targetOf (kOffset k j) ≠ .cmd
    rw [targetOf_kOffset k hj]
    exact Target.noConfusion

theorem writeAll_keyWordWrites {s : State} (hwf : s.cfg.wf = true) (hE : s.eng = .idle) (k : KReg) (v : Nat)
    {js : List Nat} (hjs : ∀ j ∈ js, j < s.cfg.words) :
    writeAll s (keyWordWrites k v js) = { s with k := s.k.set k (writeWords v (s.k.get k) js) } := by
  induction js generalizing s with
  | nil => show s = { s with k := s.k.set k (s.k.get k) }; rw [keyBank_set_get]
  | cons j js ih =>
    obtain ⟨hj, hjs⟩ := List.forall_mem_cons.mp hjs
    have hwrite : memWrite s (kOffset k j) (wordAt v j) =
        { s with k := s.k.set k (setWordAt (s.k.get k) j (wordAt v j)) } := by
      rw [memWrite_kWord_idle (targetOf_kOffset k (hj.trans_le (params_words_le hwf))) hE, windowWrite, if_pos hj]
    show writeAll (memWrite s (kOffset k j) (wordAt v j)) (keyWordWrites k v js) = _
    rw [hwrite]
    refine (ih (s := { s with k := s.k.set k (setWordAt (s.k.get k) j (wordAt v j)) }) hwf hE hjs).trans ?_
    simp only [keyBank_get_set, if_true, keyBank_set_set]
    rfl

/-- The writes of `ldk` for each key register of `ks`, from the bank `kb`. -/
def keyWrites (c : Params) (kb : KeyBank) (ks : List KReg) : List (Nat × Word) :=
  ks.flatMap fun k => keyWordWrites k (kb.get k) (List.range c.words)

theorem keyWrites_length (c : Params) (kb : KeyBank) (ks : List KReg) :
    (keyWrites c kb ks).length = ks.length * c.words := by
  simp [keyWrites, keyWordWrites, List.length_flatMap]

/-- The bank `old` with the key registers `ks` as in `kb`. -/
def copyKeys (kb old : KeyBank) (ks : List KReg) : KeyBank := ks.foldl (fun u k => u.set k (kb.get k)) old

theorem copyKeys_get (kb : KeyBank) (ks : List KReg) (old : KeyBank) (l : KReg) :
    (copyKeys kb old ks).get l = if l ∈ ks then kb.get l else old.get l := by
  induction ks generalizing old with
  | nil => rfl
  | cons k ks ih =>
    rw [copyKeys, List.foldl_cons, ← copyKeys, ih, keyBank_get_set]
    by_cases hl : l = k <;> simp [hl]

theorem copyKeys_all (kb old : KeyBank) : copyKeys kb old (List.finRange 7) = kb :=
  keyBank_ext fun l => by rw [copyKeys_get, if_pos (List.mem_finRange l)]

theorem writeAll_keyWrites {s : State} (hwf : s.cfg.wf = true) (hE : s.eng = .idle) {kb : KeyBank}
    (hkb : ∀ k, kb.get k < 2 ^ s.cfg.width) (hold : ∀ k, s.k.get k < 2 ^ s.cfg.width) (ks : List KReg) :
    writeAll s (keyWrites s.cfg kb ks) = { s with k := copyKeys kb s.k ks } := by
  induction ks generalizing s with
  | nil => rfl
  | cons k ks ih =>
    have hload : writeAll s (keyWordWrites k (kb.get k) (List.range s.cfg.words)) =
        { s with k := s.k.set k (kb.get k) } := by
      rw [writeAll_keyWordWrites hwf hE k _ fun j => List.mem_range.mp,
        writeWords_range (params_width_eq hwf ▸ hkb k) (params_width_eq hwf ▸ hold k)]
    have hrest : ∀ l, (s.k.set k (kb.get k)).get l < 2 ^ s.cfg.width := fun l => by
      rw [keyBank_get_set]
      split_ifs
      · exact hkb k
      · exact hold l
    rw [keyWrites, List.flatMap_cons, writeAll, List.foldl_append, ← writeAll, ← writeAll, hload]
    exact ih (s := { s with k := s.k.set k (kb.get k) }) hwf hE hkb hrest

/-- The writes of `loadPrivateKey`: BITLEN, then the whole bank. -/
def privateKeyWrites (c : Params) (b : Word) (kb : KeyBank) : List (Nat × Word) :=
  (0x18, b) :: keyWrites c kb (List.finRange 7)

theorem loadPrivateKey_eq_writeOps (c : Params) (b : Word) (kb : KeyBank) :
    loadPrivateKey c b kb = writeOps c (privateKeyWrites c b kb) := by
  simp [loadPrivateKey, writeOps, privateKeyWrites, keyWrites, keyWordWrites, ldk, List.map_flatMap, Function.comp_def]

theorem privateKeyWrites_length (c : Params) (b : Word) (kb : KeyBank) :
    (privateKeyWrites c b kb).length = 1 + 7 * c.words := by
  rw [privateKeyWrites, List.length_cons, keyWrites_length, List.length_finRange, Nat.add_comm]

theorem isDataOffset_bitlen : IsDataOffset 0x18 := ⟨by decide, by decide, by decide⟩

theorem isDataOffset_of_mem_privateKeyWrites {c : Params} (hc : c.wf = true) {b : Word} {kb : KeyBank}
    {w : Nat × Word} (hw : w ∈ privateKeyWrites c b kb) : IsDataOffset w.1 := by
  rcases List.mem_cons.mp hw with rfl | hw
  · exact isDataOffset_bitlen
  · obtain ⟨k, -, hw⟩ := List.mem_flatMap.mp hw
    exact isDataOffset_of_mem_keyWordWrites (fun j hj => (List.mem_range.mp hj).trans_le (params_words_le hc)) hw

theorem writeAll_privateKeyWrites {s : State} (hwf : s.cfg.wf = true) (hE : s.eng = .idle) (b : Word) {kb : KeyBank}
    (hkb : ∀ k, kb.get k < 2 ^ s.cfg.width) (hold : ∀ k, s.k.get k < 2 ^ s.cfg.width) :
    writeAll s (privateKeyWrites s.cfg b kb) = { s with bitlen := b, k := kb } := by
  have hbitlen : memWrite s 0x18 b = { s with bitlen := b } := whenIdle_idle hE _
  show writeAll (memWrite s 0x18 b) (keyWrites s.cfg kb (List.finRange 7)) = _
  rw [hbitlen]
  exact (writeAll_keyWrites (s := { s with bitlen := b }) hwf hE hkb hold _).trans (by rw [copyKeys_all])

/-- Settles O58: the run is the writes' effects in order, and each register's words together are its value. -/
theorem privateKeyLoadFillsTheBank : Obligations.PrivateKeyLoadFillsTheBank := by
  intro s b kb rest hwf hr hE hturns hkb hold hhost
  obtain ⟨rs, hrun⟩ := run_writeOps (privateKeyWrites s.cfg b kb) rest s.responses ⟨hwf, hr, hE, hturns⟩
    fun w => isDataOffset_of_mem_privateKeyWrites hwf
  rw [loadPrivateKey_eq_writeOps] at hhost
  rw [withAgents_self hhost hturns, privateKeyWrites_length, writeAll_privateKeyWrites hwf hE b hkb hold] at hrun
  exact ⟨rs, hrun.trans (by rw [State.withAgents, hturns])⟩

end Sys2Proof.Machine
end

section
/-! The statements of the family 30_encoding.md: the fields of a word and the rows of the opcode table, the completion of
a word of no row, and the host's pseudo-operations. -/

namespace Sys2Proof

/-! ### Fields of a row (R104) -/

/-- The fields are those of a command with opcode `o`: its number, and zero wherever its format uses no field. -/
def Fields.IsRow (f : Fields) (o : Opcode) : Prop := f.op = opcodeNumber o ∧ o.format.mustBeZeroClear f = true

theorem opcodeOf_eq_some_iff {op : Fin 16} {o : Opcode} : opcodeOf op = some o ↔ op = opcodeNumber o :=
  ⟨fun h => (opcodeNumber_of_opcodeOf h).symm, fun h => h ▸ opcodeOf_opcodeNumber o⟩

theorem opcodeOf_eq_none_iff (op : Fin 16) : opcodeOf op = none ↔ 8 ≤ op.val := by
  revert op; decide

theorem decodeFields_eq_ok_iff {f : Fields} {i : Instr} :
    decodeFields f = .ok i ↔ ∃ o, f.IsRow o ∧ bindOperands o f = i := by
  unfold decodeFields
  constructor
  · intro h
    split at h
    · exact nomatch h
    · next o ho =>
      split at h
      · next hz => exact ⟨o, ⟨opcodeOf_eq_some_iff.mp ho, hz⟩, Except.ok.inj h⟩
      · exact nomatch h
  · rintro ⟨o, ⟨hop, hz⟩, rfl⟩
    simp only [hop, opcodeOf_opcodeNumber, hz, if_true]

/-! ### Encoding and decoding (R101 to R107) -/

theorem fieldsOfInstr_isRow (i : Instr) : (fieldsOfInstr i).IsRow i.opcode := by
  cases i <;> exact ⟨rfl, rfl⟩

theorem bindOperands_fieldsOfInstr (i : Instr) : bindOperands i.opcode (fieldsOfInstr i) = i := by cases i <;> rfl

theorem opcode_bindOperands (o : Opcode) (f : Fields) : (bindOperands o f).opcode = o := by cases o <;> rfl

theorem fieldsOfInstr_bindOperands {f : Fields} {o : Opcode} (h : f.IsRow o) :
    fieldsOfInstr (bindOperands o f) = f := by
  obtain ⟨op, rd, rs1, rs2, rs3, rs4, rs5, rs6⟩ := f
  obtain ⟨hop, hz⟩ := h
  obtain rfl : op = opcodeNumber o := hop
  cases o <;>
    simp only [Opcode.format, Format.mustBeZeroClear, Bool.and_eq_true, beq_iff_eq] at hz <;>
    simp [bindOperands, fieldsOfInstr, hz]

theorem decode_encode (i : Instr) : decode (encode i) = .ok i := by
  rw [decode, encode, fieldsOf_wordOf]
  exact decodeFields_eq_ok_iff.mpr ⟨i.opcode, fieldsOfInstr_isRow i, bindOperands_fieldsOfInstr i⟩

theorem decodeBytes_encode (i : Instr) (rest : List Byte) :
    decodeBytes (bytesOf (encode i) ++ rest) = .ok (i, rest) := by
  rw [decodeBytes_bytesOf, decode_encode]

theorem tableWord_toNat (w : Word) : tableWord 32 w.toNat = w := by
  rw [tableWord, Nat.mod_eq_of_lt w.isLt, BitVec.ofNat_toNat, BitVec.setWidth_eq]

/-- Settles O11: the fields of an encoded word are the command's fields, and the bytes of a word are the word. -/
theorem decodeOfEncodeIsTheCommand : Obligations.DecodeOfEncodeIsTheCommand := by
  intro i rest
  have htable : decodeBytes (bytesOf (encode i)) = .ok (i, []) := by
    simpa only [List.append_nil] using decodeBytes_encode i []
  refine ⟨decode_encode i, decodeBytes_encode i rest, ?_⟩
  rw [decodeTableWord, tableWord_toNat, htable]

/-- Settles O12: the fields of a word that decodes are those its command is assembled from. -/
theorem encodeOfDecodeIsTheWord : Obligations.EncodeOfDecodeIsTheWord := by
  intro w i h
  obtain ⟨o, hrow, rfl⟩ := decodeFields_eq_ok_iff.mp h
  rw [encode, fieldsOfInstr_bindOperands hrow, wordOf_fieldsOf]

/-! ### The masks of the opcode table (R104) -/

theorem fieldsOf_injective : Function.Injective fieldsOf :=
  Function.LeftInverse.injective wordOf_fieldsOf

/-- The fieldwise conjunction. -/
def Fields.and (f g : Fields) : Fields :=
  ⟨f.op &&& g.op, f.rd &&& g.rd, f.rs1 &&& g.rs1, f.rs2 &&& g.rs2, f.rs3 &&& g.rs3, f.rs4 &&& g.rs4, f.rs5 &&& g.rs5,
    f.rs6 &&& g.rs6⟩

theorem fieldsOf_and (w m : Word) : fieldsOf (w &&& m) = (fieldsOf w).and (fieldsOf m) := by
  simp only [fieldsOf, Fields.and, BitVec.extractLsb'_and, BitVec.toFin_and]

/-- The fields of a format's mask: all ones at the opcode and at every must-be-zero field. -/
def Format.maskFields : Format → Fields
  | .z => ⟨15, 15, 15, 15, 15, 15, 15, 15⟩
  | .c7 => ⟨15, 0, 0, 0, 0, 0, 0, 0⟩
  | .r1 => ⟨15, 0, 0, 15, 15, 15, 15, 15⟩
  | .r2 => ⟨15, 0, 0, 0, 15, 15, 15, 15⟩
  | .p2 => ⟨15, 15, 0, 0, 15, 15, 15, 15⟩

theorem fieldsOf_matchMask (o : Opcode) : fieldsOf (matchMask o) = o.format.maskFields := by cases o <;> decide

theorem fieldsOf_matchValue (o : Opcode) : fieldsOf (matchValue o) = ⟨opcodeNumber o, 0, 0, 0, 0, 0, 0, 0⟩ := by
  cases o <;> decide

theorem and_maskFields_iff (f : Fields) (fmt : Format) (n : Fin 16) :
    f.and fmt.maskFields = ⟨n, 0, 0, 0, 0, 0, 0, 0⟩ ↔ f.op = n ∧ fmt.mustBeZeroClear f = true := by
  have kept : ∀ a : Fin 16, a &&& 15 = a := by decide
  have dropped : ∀ a : Fin 16, a &&& 0 = 0 := by decide
  cases fmt <;> simp [Fields.and, Format.maskFields, Format.mustBeZeroClear, kept, dropped, and_assoc]

/-- A word matches a row of the table exactly when its fields are of that row. -/
theorem matches_iff_isRow (w : Word) (o : Opcode) : w &&& matchMask o = matchValue o ↔ (fieldsOf w).IsRow o := by
  rw [← fieldsOf_injective.eq_iff, fieldsOf_and, fieldsOf_matchMask, fieldsOf_matchValue, and_maskFields_iff]
  rfl

theorem matches_iff_decode (w : Word) (o : Opcode) :
    w &&& matchMask o = matchValue o ↔ decode w = .ok (bindOperands o (fieldsOf w)) := by
  rw [matches_iff_isRow, decode, decodeFields_eq_ok_iff]
  constructor
  · exact fun h => ⟨o, h, rfl⟩
  · rintro ⟨p, hrow, hbind⟩
    have hp : p = o := by rw [← opcode_bindOperands p (fieldsOf w), hbind, opcode_bindOperands]
    exact hp ▸ hrow

theorem decode_of_no_row {w : Word} (h : ∀ o : Opcode, w &&& matchMask o ≠ matchValue o) :
    ∃ r, decode w = .error r := by
  cases hd : decode w with
  | error r => exact ⟨r, rfl⟩
  | ok i =>
    obtain ⟨o, hrow, -⟩ := decodeFields_eq_ok_iff.mp hd
    exact absurd ((matches_iff_isRow w o).mpr hrow) (h o)

theorem fieldsOf_op_val (w : Word) : (fieldsOf w).op.val = w.toNat / 2 ^ 28 := by
  have h := w.isLt
  show (w.extractLsb' 28 4).toNat = _
  rw [BitVec.extractLsb'_toNat, Nat.shiftRight_eq_div_pow]
  omega

/-- The words of no row: a reserved OP, or a must-be-zero field that is not zero (R105). -/
theorem no_row_iff (w : Word) :
    (∀ o : Opcode, w &&& matchMask o ≠ matchValue o) ↔
      8 ≤ w.toNat / 2 ^ 28 ∨
        ∃ o : Opcode, (opcodeNumber o).val = w.toNat / 2 ^ 28 ∧ o.format.mustBeZeroClear (fieldsOf w) = false := by
  simp only [ne_eq, matches_iff_isRow, ← fieldsOf_op_val]
  cases ho : opcodeOf (fieldsOf w).op with
  | none =>
    refine iff_of_true (fun o ⟨hop, _⟩ => ?_) (.inl ((opcodeOf_eq_none_iff _).mp ho))
    exact nomatch ho.symm.trans (opcodeOf_eq_some_iff.mpr hop)
  | some o =>
    have hop := opcodeOf_eq_some_iff.mp ho
    have hsmall : ¬ 8 ≤ (fieldsOf w).op.val := by rw [← opcodeOf_eq_none_iff, ho]; exact nofun
    constructor
    · exact fun h => .inr ⟨o, congrArg Fin.val hop.symm, Bool.eq_false_iff.mpr fun hz => h o ⟨hop, hz⟩⟩
    · rintro (h | ⟨p, hp, hz⟩) q ⟨hq, hqz⟩
      · exact hsmall h
      · have hpq : some p = some q := by
          rw [← opcodeOf_opcodeNumber p, ← opcodeOf_opcodeNumber q, ← hq, Fin.ext hp]
        obtain rfl := Option.some.inj hpq
        exact absurd hqz (by simp [hz])

/-- Each field is four bits of the word at its place (R101). -/
theorem fieldsOf_eq_of_val {w : Word} {rd a b c d e f : XReg} (hrd : rd.val = w.toNat / 2 ^ 24 % 16)
    (ha : a.val = w.toNat / 2 ^ 20 % 16) (hb : b.val = w.toNat / 2 ^ 16 % 16) (hc : c.val = w.toNat / 2 ^ 12 % 16)
    (hd : d.val = w.toNat / 2 ^ 8 % 16) (he : e.val = w.toNat / 2 ^ 4 % 16) (hf : f.val = w.toNat % 16) :
    fieldsOf w = ⟨(fieldsOf w).op, rd, a, b, c, d, e, f⟩ := by
  have field : ∀ (n : Nat) (r : XReg), r.val = w.toNat / 2 ^ n % 16 → (w.extractLsb' n 4).toFin = r := fun n r hr =>
    Fin.ext (by
      show (w.extractLsb' n 4).toNat = _
      rw [BitVec.extractLsb'_toNat, Nat.shiftRight_eq_div_pow, hr])
  have hf0 : f.val = w.toNat / 2 ^ 0 % 16 := by rw [hf, pow_zero, Nat.div_one]
  simp only [fieldsOf, field 24 rd hrd, field 20 a ha, field 16 b hb, field 12 c hc, field 8 d hd, field 4 e he,
    field 0 f hf0]

/-- Settles O13: a word's row is read off its fields, and a word of no row has no decoded command. -/
theorem decodingIsTheOpcodeTable : Obligations.DecodingIsTheOpcodeTable := by
  intro w rd a b c d e f hrd ha hb hc hd he hf
  have row : ∀ o : Opcode, w &&& matchMask o = matchValue o ↔
      decode w = .ok (bindOperands o ⟨(fieldsOf w).op, rd, a, b, c, d, e, f⟩) := fun o =>
    fieldsOf_eq_of_val hrd ha hb hc hd he hf ▸ matches_iff_decode w o
  exact ⟨row .nop, row .crtexp, row .lfunc, row .keyderive, row .encrypt, row .decrypt, row .hadd, row .hmul,
    decode_of_no_row, fun hop => (no_row_iff w).mpr (.inl hop)⟩

end Sys2Proof

namespace Sys2Proof.Machine

/-! ### A word of no row, from issue to completion (R105) -/

theorem memWrite_cmd_idle {s : State} (hE : s.eng = .idle) (v : Word) : memWrite s 0x010 v = s.issue v :=
  whenIdle_idle hE _

theorem step_of_engineTurn {s : State} (hwf : s.cfg.wf = true) (hturn : s.nextTurn = .engine) :
    step s = engineStep s.popTurn := by
  simp only [step, hwf, hturn, if_true]

theorem engineStep_illegal {s : State} {S : Snapshot} {r : Illegal} (hr : s.inReset = false) (hS : s.eng = .busy S)
    (hd : decode S.cmd = .error r) : engineStep s = .next (s.errorCompletion .illegalCmd Warns.none) := by
  simp only [engineStep, hr, hS, hd, Bool.false_eq_true, if_false]

/-- Settles O14: a word of no row does not decode, and the completion of such a word reads no register. -/
theorem illegalWordCompletesWithIllegalCmd : Obligations.IllegalWordCompletesWithIllegalCmd := by
  refine ⟨no_row_iff, fun v hv => ⟨fun s hE => ?_, fun s S hwf hr hturn hS hcmd => ?_⟩⟩
  · rw [memWrite_cmd_idle hE]
    exact ⟨rfl, rfl⟩
  · obtain ⟨r, hd⟩ := decode_of_no_row hv
    rw [step_of_engineTurn hwf hturn, engineStep_illegal (s := s.popTurn) hr hS (hcmd ▸ hd)]
    rfl

/-! ### Written-out words (R101, R104, R107) -/

theorem issueLine_eq (c : Params) {text : String} {w : Word} (h : assemble text = some w) :
    issueLine c text = some (.write (c.base + 0x010) 4 w) := by
  rw [issueLine, h]
  rfl

/-- Settles O15: the words and lines by evaluation of the decoder and the assembler. -/
theorem writtenOutWordsDecode : Obligations.WrittenOutWordsDecode :=
  ⟨by decide, by decide, by decide, by decide, by decide, by decide, by decide, by decide, by decide, by decide,
    by decide, by decide, by decide, by decide, fun c _ _ => issueLine_eq c⟩

/-! ### `ldx` (R108) -/

/-- The writes of words `js` of `v` to the window of X[i]. -/
def xWordWrites (i : XReg) (v : Nat) (js : List Nat) : List (Nat × Word) := js.map fun j => (xOffset i j, wordAt v j)

theorem ldx_eq_writeOps (c : Params) (i : XReg) (v : Nat) :
    ldx c i v = writeOps c (xWordWrites i v (List.range c.words)) := by
  simp [ldx, writeOps, xWordWrites, Function.comp_def]

theorem xOffset_inside (i : XReg) {j : Nat} (hj : j < 1024) : xOffset i j < 0x40000 ∧ xOffset i j % 4 = 0 := by
  have hi := i.isLt
  unfold xOffset
  omega

theorem isDataOffset_xOffset (i : XReg) {j : Nat} (hj : j < 1024) : IsDataOffset (xOffset i j) := by
  obtain ⟨hoff, halign⟩ := xOffset_inside i hj
  exact ⟨hoff, halign, by rw [targetOf_xOffset i hj]; exact Target.noConfusion⟩

theorem writeAll_xWordWrites {s : State} (hwf : s.cfg.wf = true) (hE : s.eng = .idle) (i : XReg) (v : Nat)
    {js : List Nat} (hjs : ∀ j ∈ js, j < s.cfg.words) :
    writeAll s (xWordWrites i v js) = { s with x := s.x.set i (writeWords v s.x[i] js) } := by
  induction js generalizing s with
  | nil => simp [xWordWrites, writeAll, writeWords]
  | cons j js ih =>
    obtain ⟨hj, hjs⟩ := List.forall_mem_cons.mp hjs
    have hwrite : memWrite s (xOffset i j) (wordAt v j) =
        { s with x := s.x.set i (setWordAt s.x[i] j (wordAt v j)) } := by
      rw [memWrite_xWord_idle (targetOf_xOffset i (hj.trans_le (params_words_le hwf))) hE, windowWrite, if_pos hj]
    show writeAll (memWrite s (xOffset i j) (wordAt v j)) (xWordWrites i v js) = _
    rw [hwrite]
    refine (ih (s := { s with x := s.x.set i (setWordAt s.x[i] j (wordAt v j)) }) hwf hE hjs).trans ?_
    simp only [x_set_get, if_true, Vector.set_set]
    rfl

/-- Settles O56: the run is the writes' effects in order, and the register's words together are its value. -/
theorem ldxLoadsTheRegister : Obligations.LdxLoadsTheRegister := by
  intro s i v rest hwf hr hE hturns hv hold hhost
  have hinside : ∀ w ∈ xWordWrites i v (List.range s.cfg.words), IsDataOffset w.1 := fun w hw => by
    obtain ⟨j, hj, rfl⟩ := List.mem_map.mp hw
    exact isDataOffset_xOffset i ((List.mem_range.mp hj).trans_le (params_words_le hwf))
  obtain ⟨rs, hrun⟩ := run_writeOps _ rest s.responses ⟨hwf, hr, hE, hturns⟩ hinside
  have hlength : (xWordWrites i v (List.range s.cfg.words)).length = s.cfg.words := by simp [xWordWrites]
  rw [ldx_eq_writeOps] at hhost
  rw [withAgents_self hhost hturns, hlength, writeAll_xWordWrites hwf hE i v fun j => List.mem_range.mp,
    writeWords_range (params_width_eq hwf ▸ hv) (params_width_eq hwf ▸ hold)] at hrun
  exact ⟨rs, hrun.trans (by rw [State.withAgents, hturns])⟩

/-! ### `rdx` (R108) -/

/-- In IDLE an accepted read at the step answers the defined value. -/
theorem step_read_idle {s : State} {off : Nat} {rest : List HostOp}
    (h : Expected.HostTurn s (.read (s.cfg.base + off) 4) rest) (hE : s.eng = .idle) (hoff : off < 0x40000)
    (halign : off % 4 = 0) :
    step s =
      .next (s.withAgents rest s.turns.tail (.read (readTarget s (targetOf off)) false :: s.responses)) := by
  obtain ⟨hdefined, -⟩ := hostReadReturnsTheRegister s off rest h hoff halign
  exact hdefined fun S _ hS => nomatch hE.symm.trans hS

/-- A run of a host's reads in IDLE answers the defined values in order, one a step. -/
theorem run_readOps (offs : List Nat) {s : State} (rest : List HostOp) (rs : List Response) (h : s.Ready)
    (hoffs : ∀ off ∈ offs, off < 0x40000 ∧ off % 4 = 0) :
    Host.Core.run core offs.length (s.withAgents (offs.map (rd s.cfg) ++ rest) [] rs) =
      .next (s.withAgents rest []
        ((offs.map fun off => Response.read (readTarget s (targetOf off)) false).reverse ++ rs)) := by
  induction offs generalizing rs with
  | nil => rfl
  | cons off offs ih =>
    obtain ⟨⟨hoff, halign⟩, hoffs⟩ := List.forall_mem_cons.mp hoffs
    have ⟨_, _, hE, _⟩ := h
    have hstep : step (s.withAgents ((off :: offs).map (rd s.cfg) ++ rest) [] rs) =
        .next (s.withAgents (offs.map (rd s.cfg) ++ rest) [] (.read (readTarget s (targetOf off)) false :: rs)) :=
      step_read_idle (h.hostTurn _ _ rs) hE hoff halign
    refine (run_succ hstep offs.length).trans ((ih _ hoffs).trans ?_)
    simp only [List.map_cons, List.reverse_cons, List.append_assoc, List.singleton_append]

theorem wordAt_succ (v j : Nat) : wordAt v (j + 1) = wordAt (v / 2 ^ 32) j := by
  apply BitVec.eq_of_toNat_eq
  rw [wordAt_toNat, wordAt_toNat, Nat.div_div_eq_div_mul, ← pow_add, Nat.mul_succ, Nat.add_comm]

/-- The low words of a value, each at its place, sum to the value modulo their width (R108). -/
theorem valueOfWords_range (n v : Nat) : valueOfWords ((List.range n).map (wordAt v)) = v % 2 ^ (32 * n) := by
  induction n generalizing v with
  | zero => simp [valueOfWords, Nat.mod_one]
  | succ n ih =>
    have htail : (List.range n).map (wordAt v ∘ Nat.succ) = (List.range n).map (wordAt (v / 2 ^ 32)) :=
      List.map_congr_left fun j _ => wordAt_succ v j
    have hhead : (wordAt v 0).toNat = v % 2 ^ 32 := by simp [wordAt_toNat]
    rw [List.range_succ_eq_map, List.map_cons, List.map_map, htail, valueOfWords, ih, hhead, Nat.mul_succ,
      Nat.add_comm (32 * n), pow_add, Nat.mod_mul]

theorem readTarget_xOffset (s : State) (i : XReg) {j : Nat} (hwf : s.cfg.wf = true) (hj : j < s.cfg.words) :
    readTarget s (targetOf (xOffset i j)) = wordAt s.x[i] j := by
  rw [targetOf_xOffset i (hj.trans_le (params_words_le hwf))]
  exact if_pos hj

/-- Settles O57: the run answers the words of the register's window in order. -/
theorem rdxReadsTheRegister : Obligations.RdxReadsTheRegister := by
  intro s i rest hwf hr hE hturns hx hhost
  refine ⟨(List.range s.cfg.words).map (wordAt s.x[i]), ?_, ?_⟩
  · rw [valueOfWords_range, ← params_width_eq hwf, Nat.mod_eq_of_lt hx]
  · have hinside : ∀ off ∈ (List.range s.cfg.words).map (xOffset i), off < 0x40000 ∧ off % 4 = 0 :=
        fun off hoff => by
          obtain ⟨j, hj, rfl⟩ := List.mem_map.mp hoff
          exact xOffset_inside i ((List.mem_range.mp hj).trans_le (params_words_le hwf))
    have hwords : (List.range s.cfg.words).map (fun j => Response.read (readTarget s (targetOf (xOffset i j))) false) =
        (List.range s.cfg.words).map fun j => Response.read (wordAt s.x[i] j) false :=
      List.map_congr_left fun j hj => by rw [readTarget_xOffset s i hwf (List.mem_range.mp hj)]
    have hops : rdx s.cfg i = ((List.range s.cfg.words).map (xOffset i)).map (rd s.cfg) := by
      simp [rdx, Function.comp_def]
    have hrun := run_readOps _ rest s.responses ⟨hwf, hr, hE, hturns⟩ hinside
    rw [hops] at hhost
    rw [withAgents_self hhost hturns, List.length_map, List.length_range, List.map_map, Function.comp_def,
      hwords] at hrun
    rw [hrun, List.map_map, State.withAgents, hturns]
    rfl

/-! ### The host's waits (R84, R108, R186) -/

theorem statusWord_getLsbD_busy (busy : Bool) (st : Status) : (statusWord busy st).getLsbD 0 = busy := by
  obtain ⟨done, ovr, wPt, wCt, wK⟩ := st
  revert busy done ovr wPt wCt wK
  decide

theorem readIsUnspecified_status (s : State) : readIsUnspecified s .status = false := by
  refine Bool.eq_false_iff.mpr fun h => ?_
  obtain ⟨S, i, -, -, hdest⟩ := (readIsUnspecified_iff s _).mp h
  cases i <;> simp [Expected.Destination] at hdest

/-- A STATUS read out of reset receives STATUS, whatever is in flight. -/
theorem memRead_status (s : State) : memRead s 0x0C = (s, readTarget s .status) :=
  memRead_of_not_unspecified (readIsUnspecified_status s)

/-- Under reset an access inside the aperture is held off or answered with a bus error (R200). -/
theorem admission_inReset {s : State} {off : Nat} (hr : s.inReset = true) (hoff : off < 0x40000) (size : Nat) :
    admission s (s.cfg.base + off) size = if s.cfg.resetAccessBusError then .busError else .held := by
  have hinside : ¬ (s.cfg.base + off < s.cfg.base ∨ s.cfg.base + apertureSize ≤ s.cfg.base + off) := by
    unfold apertureSize; omega
  rw [admission, if_neg hinside, if_pos hr]

theorem afterPoll_status (s : State) (rest : List HostOp) :
    afterPoll (readTarget s .status) rest = if s.eng.isBusy then .wait :: rest else rest := by
  rw [afterPoll, readTarget, statusWord_getLsbD_busy]

theorem step_of_host {s : State} (hwf : s.cfg.wf = true) (hturn : s.nextTurn = .host) :
    step s = hostStep s.popTurn := by
  simp only [step, hwf, hturn, if_true]

theorem hostStep_wait {s : State} {rest : List HostOp} (h : s.host = .wait :: rest) :
    hostStep s = hostReadThen s (s.cfg.base + 0x0C) 4 fun v => afterPoll v rest := by
  simp only [hostStep, h]

theorem hostStep_waitIrq {s : State} {line : Nat} {rest : List HostOp} (h : s.host = .waitIrq line :: rest) :
    hostStep s = .next (if s.irqAt line then s.hostRest rest else s) := by
  simp only [hostStep, h]

/-- A poll out of reset: STATUS is received, and the wait goes on while a command is in flight (R108). -/
theorem hostStep_wait_polls {s : State} {rest : List HostOp} (h : s.host = .wait :: rest) (hr : s.inReset = false) :
    hostStep s = .next (s.withAgents (if s.eng.isBusy then .wait :: rest else rest) s.turns
      (.read (readTarget s .status) false :: s.responses)) := by
  rw [hostStep_wait h, hostReadThen, admission_accepted hr (by decide) (by decide)]
  simp only [memRead_status, afterPoll_status]
  rfl

/-- A poll under reset: held off, a host fault, or 0 received and the wait ended (R78, R200; logs 4, 5, 28). -/
theorem hostStep_wait_inReset {s : State} {rest : List HostOp} (h : s.host = .wait :: rest) (hr : s.inReset = true) :
    hostStep s =
      if s.cfg.resetAccessBusError then
        if s.cfg.busErrorFaultsHost then .fault .hostBusError
        else .next (s.withAgents rest s.turns (.read 0#32 true :: s.responses))
      else .next s := by
  rw [hostStep_wait h, hostReadThen, admission_inReset hr (by decide)]
  cases s.cfg.resetAccessBusError with
  | false => rfl
  | true => rfl

theorem irqAt_iff (s : State) (line : Nat) :
    s.irqAt line = true ↔ line = s.cfg.irqLine ∧ s.ctrl.ie = true ∧ s.status.done = true := by
  simp [State.irqAt, State.irq]

/-- Settles O59: a poll tests the BUSY bit of the STATUS it received; the interrupt wait tests the line's level. -/
theorem waitPollsStatusAndWaitIrqWatchesTheLine : Obligations.WaitPollsStatusAndWaitIrqWatchesTheLine := by
  intro s rest hwf hturn goesOn
  refine ⟨fun hwait => ⟨fun hr => ⟨fun S hS => ⟨?_, ?_⟩, fun hE => ⟨?_, ?_⟩⟩, fun hr => ?_⟩, fun line hirq => ?_⟩
  · rw [step_of_host hwf hturn, hostStep_wait_polls (s := s.popTurn) hwait hr, popTurn_eng, hS]
    rfl
  · rw [readTarget, statusWord_getLsbD_busy, hS, isBusy_busy]
  · rw [step_of_host hwf hturn, hostStep_wait_polls (s := s.popTurn) hwait hr, popTurn_eng, hE]
    rfl
  · rw [readTarget, statusWord_getLsbD_busy, hE, isBusy_idle]
  · have hheld : goesOn (.wait :: rest) [] = .next s.popTurn := by simp only [goesOn, ← hwait]; rfl
    rw [step_of_host hwf hturn, hostStep_wait_inReset (s := s.popTurn) hwait hr, hheld]
    rfl
  · have hstays : goesOn (.waitIrq line :: rest) [] = .next s.popTurn := by simp only [goesOn, ← hirq]; rfl
    rw [step_of_host hwf hturn, hostStep_waitIrq (s := s.popTurn) hirq, hstays, apply_ite Host.Outcome.next]
    simp only [irqAt_iff]
    rfl

end Sys2Proof.Machine
end

section
/-! The statements of the family 40_command_lifecycle.md: issue, the completion step and what it depends on, progress
under every schedule, and the end of a command. -/

namespace Sys2Proof.Machine

/-! ### Issue (R115) -/

/-- Settles O16: while IDLE the write is the issue, which clears DONE; while BUSY it is rejected. -/
theorem issueTakesTheSnapshot : Obligations.IssueTakesTheSnapshot := by
  refine fun s v => ⟨fun hE => ?_, fun S hS => whenIdle_busy hS _⟩
  rw [memWrite_cmd_idle hE]
  refine ⟨rfl, ?_, ?_⟩
  · rw [State.irq, issue_status, clearForIssue_done, Bool.and_false]
  · rw [readTarget, statusWord_getLsbD_busy, issue_eng, isBusy_busy]

/-! ### The completion step (R117, R118) -/

/-- While BUSY every command has a completion (R117). -/
theorem exec_of_busy (i : Instr) {s : State} {S : Snapshot} (hS : s.eng = .busy S) : ∃ t, exec i s = .next t := by
  cases i <;> exact ⟨_, inFlight_busy hS _⟩

theorem engineStep_legal {s : State} {S : Snapshot} {i : Instr} (hr : s.inReset = false) (hS : s.eng = .busy S)
    (hd : decode S.cmd = .ok i) : engineStep s = exec i s := by
  simp only [engineStep, hr, hS, hd, Bool.false_eq_true, if_false]

/-- Settles O17: out of reset the engine's turn is the completion of the word in flight. -/
theorem stepRunsTheDecodedCommand : Obligations.StepRunsTheDecodedCommand :=
  ⟨fun _ _ _ hwf hr hturn hS hd =>
      (step_of_engineTurn hwf hturn).trans (engineStep_legal (s := State.popTurn _) hr hS hd),
    fun s nbits w _ hwf hd =>
      (step_of_engineTurn (s := s.withFetchWord nbits w) hwf rfl).trans
        (engineStep_legal (s := (s.withFetchWord nbits w).popTurn) rfl rfl hd)⟩

/-- The engine's turn completes the word in flight, a command or an illegal word (R105, R117). -/
theorem engineStep_of_busy {s : State} {S : Snapshot} (hr : s.inReset = false) (hS : s.eng = .busy S) :
    ∃ t, engineStep s = .next t ∧ Completed s t := by
  cases hd : decode S.cmd with
  | ok i =>
    obtain ⟨t, hx⟩ := exec_of_busy i hS
    exact ⟨t, (engineStep_legal hr hS hd).trans hx, (exec_completes hx).completed⟩
  | error e => exact ⟨_, engineStep_illegal hr hS hd, finish_completed s _ _⟩

/-- While BUSY the engine moves when the schedule says so, or is spent (log 6). -/
theorem nextTurn_engine {s : State} {S : Snapshot} (hr : s.inReset = false) (hS : s.eng = .busy S)
    (hturns : s.turns = [] ∨ s.turns.head? = some .engine) : s.nextTurn = .engine := by
  unfold State.nextTurn
  split
  · next hts => simpa [hts] using hturns
  · simp [hS, hr]

/-- Settles O18: the engine has the turn, and its turn completes the word in flight. -/
theorem completionIsEnabledThroughoutBusy : Obligations.CompletionIsEnabledThroughoutBusy := by
  intro s S hwf hr hS hturns
  obtain ⟨t, hstep, hc⟩ := engineStep_of_busy (s := s.popTurn) hr hS
  exact ⟨t, (step_of_engineTurn hwf (nextTurn_engine hr hS hturns)).trans hstep, hc.idle, hc.done, hc.lastcmd⟩

/-! ### The host's turn while a command is in flight (R48, R82) -/

/-- While BUSY a host write reaches CTRL and STATUS alone (R48). -/
theorem HostWrites.of_busy {s u : State} {v : Word} {S : Snapshot} (h : HostWrites s v u) (hS : s.eng = .busy S) :
    u = { s with ctrl := u.ctrl, status := u.status } := by
  cases h with
  | ignored | ctrl | status | rejected => rfl
  | issued hE | bitlen hE | xWord hE | kWord hE => exact nomatch hE.symm.trans hS

/-- Nothing differs but CTRL, STATUS, and what the host's turn uses: its operations, responses and the free counter. -/
def State.InFlightKept (s t : State) : Prop :=
  t = { s with ctrl := t.ctrl, status := t.status, host := t.host, responses := t.responses, freeIndex := t.freeIndex }

theorem State.EngineKept.inFlightKept {s t : State} (h : s.EngineKept t) : s.InFlightKept t := by
  rw [State.InFlightKept, h]

/-- While BUSY the host's turn cancels nothing (R48, R120). -/
theorem hostStep_of_busy {s t : State} {S : Snapshot} (hS : s.eng = .busy S) (h : hostStep s = .next t) :
    s.InFlightKept t := by
  rcases hostStep_cases h with hk | ⟨addr, v, rest, -, -, rfl⟩
  · exact hk.inFlightKept
  · rw [State.InFlightKept, (memWrite_cases s (addr - s.cfg.base) v).of_busy hS]
    rfl

/-! ### The end of a command (R120, R200) -/

theorem ctrlWord_reset : ctrlWord ⟨false, false⟩ = 0#32 := by decide

theorem statusWord_reset : statusWord false ⟨false, false, false, false, false⟩ = 0#32 := by decide

theorem errcodeWord_ok : errcodeWord .ok = 0#32 := by decide

/-- The release of an asserted reset leaves every register at its value of R47, whatever was in flight (R200). -/
theorem resetTable_releaseReset {s : State} (hr : s.inReset = true) : Expected.ResetTable s.releaseReset := by
  rw [State.releaseReset, if_pos hr]
  exact ⟨reset_x_get, keyBank_zero_get, rfl, rfl, ctrlWord_reset, rfl, rfl, statusWord_reset, rfl, errcodeWord_ok, rfl,
    rfl, rfl, rfl⟩

/-- Settles O20: the host's turn and the assertion of reset keep the snapshot; the engine's turn completes it. -/
theorem onlyCompletionOrResetEndsACommand : Obligations.OnlyCompletionOrResetEndsACommand := by
  intro s t S hS h
  rcases step_turn_cases h with ⟨-, hh⟩ | ⟨hn, he⟩ | ⟨-, rfl⟩ | ⟨hn, rfl⟩
  · rw [hostStep_of_busy (s := s.popTurn) hS hh]
    exact .inl hS
  · rcases engineStep_completed he with rfl | ⟨-, hc⟩
    · exact .inl hS
    · exact .inr (.inl ⟨hn, hc.idle, hc.done⟩)
  · exact .inl hS
  · cases hr : s.inReset with
    | true => exact .inr (.inr ⟨hn, rfl, resetTable_releaseReset (s := s.popTurn) hr⟩)
    | false =>
      left
      rw [State.releaseReset, if_neg (by simp [hr])]
      exact hS

/-! ### Progress under every schedule (R118, R197) -/

/-- The host's turn goes on while its operations are ones the aperture accepts, and it is left with such operations. -/
theorem hostStep_of_safe {s : State} (hr : s.inReset = false) (hsafe : ∀ op ∈ s.host, op.Safe s.cfg) :
    ∃ t, hostStep s = .next t ∧ ∀ op ∈ t.host, op ∈ s.host := by
  cases hh : s.host with
  | nil => exact ⟨s, by simp only [hostStep, hh], fun _ ho => hh ▸ ho⟩
  | cons op rest =>
    have htail : ∀ o ∈ rest, o ∈ op :: rest := fun _ => List.mem_cons_of_mem op
    have hop : op.Safe s.cfg := hsafe op (hh ▸ List.mem_cons_self)
    cases op with
    | read addr size =>
      obtain ⟨hlow, hhigh, hsize, halign⟩ := hop
      have hacc := admission_eq_accepted_iff.mpr ⟨hlow, hhigh, hr, hsize, halign, rfl⟩
      exact ⟨_, by simp only [hostStep, hh, hostRead, hostReadThen, hacc]; rfl, htail⟩
    | write addr size v =>
      obtain ⟨hlow, hhigh, hsize, halign⟩ := hop
      have hacc := admission_eq_accepted_iff.mpr ⟨hlow, hhigh, hr, hsize, halign, rfl⟩
      exact ⟨_, by simp only [hostStep, hh, hostWrite, hacc]; rfl, htail⟩
    | wait =>
      refine ⟨_, hostStep_wait_polls hh hr, ?_⟩
      simp only [State.withAgents]
      split
      · exact fun _ => id
      · exact htail
    | waitIrq line =>
      refine ⟨_, hostStep_waitIrq hh, ?_⟩
      split
      · exact htail
      · exact fun _ ho => hh ▸ ho

/-- A command is in flight, reset is not asserted, and the host's operations are ones the aperture accepts. -/
structure State.Underway (s : State) : Prop where
  parameters : s.cfg.wf = true
  outOfReset : s.inReset = false
  busy : ∃ S, s.eng = .busy S
  safe : ∀ op ∈ s.host, op.Safe s.cfg

/-- The host's turn leaves the command under way, with the turn used. -/
theorem State.Underway.hostTurn {s : State} (h : s.Underway) (hturn : s.nextTurn = .host) :
    ∃ t, step s = .next t ∧ t.Underway ∧ t.turns = s.turns.tail := by
  obtain ⟨hwf, hr, ⟨S, hS⟩, hsafe⟩ := h
  obtain ⟨t, hstep, hhost⟩ := hostStep_of_safe (s := s.popTurn) hr hsafe
  have hkept : s.popTurn.InFlightKept t := hostStep_of_busy hS hstep
  have hcfg : t.cfg = s.cfg := by rw [hkept]; rfl
  refine ⟨t, (step_of_host hwf hturn).trans hstep, ⟨hcfg ▸ hwf, ?_, ⟨S, ?_⟩, ?_⟩, ?_⟩
  · rw [hkept]; exact hr
  · rw [hkept]; exact hS
  · exact fun op hop => hcfg ▸ hsafe op (hhost op hop)
  · rw [hkept]; rfl

/-- Some number of steps, at most `m`, reaches a state with ENG IDLE and DONE set. -/
def State.CompletesWithin (s : State) (m : Nat) : Prop :=
  ∃ n, n ≤ m ∧ ∃ t, Host.Core.run core n s = .next t ∧ t.eng = .idle ∧ t.status.done = true

theorem State.CompletesWithin.of_step {s u : State} {m : Nat} (hstep : step s = .next u) (h : u.CompletesWithin m) :
    s.CompletesWithin (m + 1) := by
  obtain ⟨n, hn, t, hrun, hdone⟩ := h
  exact ⟨n + 1, Nat.succ_le_succ hn, t, (run_succ hstep n).trans hrun, hdone⟩

/-- The engine's turn is the completion (R118). -/
theorem State.Underway.engineTurn {s : State} (h : s.Underway)
    (hturns : s.turns = [] ∨ s.turns.head? = some .engine) (m : Nat) : s.CompletesWithin (m + 1) := by
  obtain ⟨hwf, hr, ⟨S, hS⟩, -⟩ := h
  obtain ⟨t, hstep, hidle, hdone, -⟩ := completionIsEnabledThroughoutBusy s S hwf hr hS hturns
  exact ⟨1, Nat.le_add_left 1 m, t, run_succ hstep 0, hidle, hdone⟩

/-- A command under way completes once the schedule comes to the engine or is spent: induction on the schedule. -/
theorem State.Underway.completesWithin {s : State} (h : s.Underway)
    (hturns : ∀ turn ∈ s.turns, turn = .host ∨ turn = .engine) : s.CompletesWithin (s.turns.length + 1) := by
  induction hts : s.turns generalizing s with
  | nil => exact h.engineTurn (.inl hts) _
  | cons turn ts ih =>
    rw [hts] at hturns
    obtain ⟨hturn, hrest⟩ := List.forall_mem_cons.mp hturns
    rcases hturn with rfl | rfl
    · obtain ⟨u, hstep, hu, htail⟩ := h.hostTurn (by simp only [State.nextTurn, hts])
      have huts : u.turns = ts := by rw [htail, hts, List.tail_cons]
      exact .of_step hstep (ih hu (huts ▸ hrest) huts)
    · exact h.engineTurn (.inr (by rw [hts, List.head?_cons])) _

/-- Settles O19: the command is under way, and stays so until its completion. -/
theorem commandCompletesWithinTheSchedule : Obligations.CommandCompletesWithinTheSchedule := by
  intro s hwf hr hbusy hturns hsafe
  refine State.Underway.completesWithin ⟨hwf, hr, ?_, hsafe⟩ hturns
  cases hS : s.eng with
  | idle => simp [hS] at hbusy
  | busy S => exact ⟨S, rfl⟩

/-! ### What the outcome depends on (R116) -/

/-- Two completions of `i` agree in code, warnings and, where the code is OK, in the destination. -/
structure SameOutcome (i : Instr) (t t' : State) : Prop where
  errcode : t.errcode = t'.errcode
  wPt : t.status.wPt = t'.status.wPt
  wCt : t.status.wCt = t'.status.wCt
  wK : t.status.wK = t'.status.wK
  result : t.errcode = .ok → ∀ rd, destX i = some rd → t.x[rd] = t'.x[rd]
  keys : t.errcode = .ok → destKeys i = true → t.k = t'.k

namespace SameOutcome

variable {i : Instr} (s s' : State)

theorem errorCompletion {e : ErrCode} (w : Warns) (he : e ≠ .ok) :
    SameOutcome i (s.errorCompletion e w) (s'.errorCompletion e w) :=
  ⟨rfl, rfl, rfl, rfl, fun hok => absurd hok he, fun hok => absurd hok he⟩

theorem completeNone : SameOutcome .nop s.completeNone s'.completeNone :=
  ⟨rfl, rfl, rfl, rfl, fun _ _ hd => (nomatch hd), fun _ hd => (nomatch hd)⟩

theorem completeX {rd : XReg} (hd : destX i = some rd) (v : Nat) (w : Warns) :
    SameOutcome i (s.completeX rd v w) (s'.completeX rd v w) := by
  refine ⟨rfl, rfl, rfl, rfl, fun _ r hr => ?_, fun _ hk => ?_⟩
  · obtain rfl : rd = r := Option.some.inj (hd.symm.trans hr)
    simp only [completeX_x, x_set_get, if_true]
  · exact absurd (hk.symm.trans (destKeys_of_destX hd)) (by decide)

theorem completeKeys {p q : XReg} (kb : KeyBank) :
    SameOutcome (.keyderive p q) (s.completeKeys kb) (s'.completeKeys kb) :=
  ⟨rfl, rfl, rfl, rfl, fun _ _ hd => (nomatch hd), fun _ _ => rfl⟩

variable {s s'}

/-- Two completions that make the same check agree when they agree past it. -/
theorem check {c c' : Prop} [Decidable c] [Decidable c'] {e : ErrCode} {w : Warns} {u u' : State} (hc : c ↔ c')
    (hu : SameOutcome i u u') (he : e ≠ .ok := by decide) :
    SameOutcome i (if c then s.errorCompletion e w else u) (if c' then s'.errorCompletion e w else u') := by
  by_cases h : c
  · rw [if_pos h, if_pos (hc.mp h)]
    exact .errorCompletion s s' w he
  · rwa [if_neg h, if_neg (mt hc.mpr h)]

theorem of_inFlight {S : Snapshot} {t t' : State} {run run' : Snapshot → State} (hS : s.eng = .busy S)
    (hS' : s'.eng = .busy S) (h : s.inFlight run = .next t) (h' : s'.inFlight run' = .next t')
    (hrun : SameOutcome i (run S) (run' S)) : SameOutcome i t t' := by
  obtain rfl := Host.Outcome.next.inj ((inFlight_busy hS run).symm.trans h)
  obtain rfl := Host.Outcome.next.inj ((inFlight_busy hS' run').symm.trans h')
  exact hrun

end SameOutcome

theorem deriveKey_error_ne_ok {p q b : Nat} {e : ErrCode} (h : deriveKey p q b = .error e) : e ≠ .ok := by
  rcases deriveKey_error h with rfl | rfl | rfl <;> decide

/-- Two completions of one command on one snapshot make the same checks and compute the same result. -/
theorem exec_sameOutcome {i : Instr} {s s' t t' : State} {S : Snapshot} (hcfg : s.cfg = s'.cfg)
    (hS : s.eng = .busy S) (hS' : s'.eng = .busy S)
    (hdraw : (∃ rd m, i = .encrypt rd m) → s.draw S.b = s'.draw S.b) (h : exec i s = .next t)
    (h' : exec i s' = .next t') : SameOutcome i t t' := by
  have hbit : ¬ BitlenOk s.cfg S.b ↔ ¬ BitlenOk s'.cfg S.b := by rw [hcfg]
  cases i with
  | nop => exact .of_inFlight hS hS' h h' (.completeNone s s')
  | crtexp rd base expP expQ pInvQ p q =>
    exact .of_inFlight hS hS' h h' <| .check .rfl <| .check (by rw [hcfg]) (.completeX s s' rfl _ _)
  | lfunc rd u => exact .of_inFlight hS hS' h h' <| .check hbit (.completeX s s' rfl _ _)
  | keyderive p q =>
    refine .of_inFlight hS hS' h h' <| .check hbit <| .check .rfl <| .check .rfl ?_
    cases hd : deriveKey (S.xReg p) (S.xReg q) S.b with
    | error e => exact .errorCompletion s s' _ (deriveKey_error_ne_ok hd)
    | ok kb => exact .completeKeys s s' kb
  | encrypt rd m =>
    refine .of_inFlight hS hS' h h' <| .check hbit <| .check .rfl <| .check .rfl ?_
    rw [hdraw ⟨rd, m, rfl⟩]
    exact .check .rfl (.completeX s.takeDraw s'.takeDraw rfl _ _)
  | decrypt rd c =>
    exact .of_inFlight hS hS' h h' <| .check hbit <| .check .rfl <| .check .rfl <| .check .rfl
      (.completeX s s' rfl _ _)
  | hadd rd c1 c2 | hmul rd c1 c2 =>
    exact .of_inFlight hS hS' h h' <| .check hbit <| .check .rfl <| .check .rfl (.completeX s s' rfl _ _)

/-- Settles O21: the two completions have the same outcome. -/
theorem outcomeIsAFunctionOfTheSnapshot : Obligations.OutcomeIsAFunctionOfTheSnapshot := by
  intro i s s' t t' S hcfg hS hS' hdraw h h'
  obtain ⟨herr, hwPt, hwCt, hwK, hx, hk⟩ := exec_sameOutcome hcfg hS hS' hdraw h h'
  exact ⟨herr, hwPt, hwCt, hwK, hx, hk⟩

/-! ### The commands' normal completion (R117, R180, R181) -/

theorem exec_nop {s : State} {S : Snapshot} (hS : s.eng = .busy S) : exec .nop s = .next s.completeNone :=
  inFlight_busy hS _

section
variable {s : State} {S : Snapshot} (hS : s.eng = .busy S)
include hS

theorem exec_crtexp_ok {p q : XReg} (rd base expP expQ pInvQ : XReg) (hp : S.x[p] ≠ 0) (hq : S.x[q] ≠ 0)
    (hfit : S.x[p] * S.x[q] ≤ 2 ^ s.cfg.width) :
    exec (.crtexp rd base expP expQ pInvQ p q) s = .next (s.completeX rd
      (crtExp S.x[base] S.x[expP] S.x[expQ] S.x[pInvQ] S.x[p] S.x[q]) Warns.none) := by
  refine (inFlight_busy hS _).trans ?_
  rw [if_neg (not_or.mpr ⟨hp, hq⟩), if_neg (Nat.not_lt.mpr hfit)]

variable (hb : BitlenOk s.cfg S.b)
include hb

theorem exec_lfunc_ok (rd u : XReg) :
    exec (.lfunc rd u) s = .next (s.completeX rd (lFunction S.x[u] S.k.nInv S.b) Warns.none) := by
  refine (inFlight_busy hS _).trans ?_
  rw [if_neg (not_not.mpr hb)]

theorem exec_keyderive_ok {p q : XReg} {kb : KeyBank} (hp : 2 ≤ S.x[p]) (hq : 2 ≤ S.x[q])
    (hn : S.x[p] * S.x[q] < 2 ^ S.b) (hd : deriveKey S.x[p] S.x[q] S.b = .ok kb) :
    exec (.keyderive p q) s = .next (s.completeKeys kb) := by
  refine (inFlight_busy hS _).trans ?_
  rw [if_neg (not_not.mpr hb), if_neg (not_or.mpr ⟨Nat.not_lt.mpr hp, Nat.not_lt.mpr hq⟩), if_neg (Nat.not_le.mpr hn)]
  simp only [hd]

variable (hk : KeyOk S.k.n S.b)
include hk

theorem exec_encrypt_ok {rd m : XReg} (hw : strictRejects S (encryptWarns S.x[m] S.k.n) = false)
    (hr : s.draw S.b % S.k.n ≠ 0) :
    exec (.encrypt rd m) s = .next (s.takeDraw.completeX rd (cipher (s.draw S.b % S.k.n) S.x[m] S.k.n)
      (encryptWarns S.x[m] S.k.n)) := by
  refine (inFlight_busy hS _).trans ?_
  rw [if_neg (not_not.mpr hb), if_neg (not_not.mpr hk), if_neg (Bool.eq_false_iff.mp hw), if_neg hr]

theorem exec_decrypt_ok {rd c : XReg} (hp : S.k.p2 ≠ 0) (hq : S.k.q2 ≠ 0)
    (hw : strictRejects S (decryptWarns S.x[c] S.k.n) = false) :
    exec (.decrypt rd c) s = .next (s.completeX rd (plain S.x[c] S.k S.b) (decryptWarns S.x[c] S.k.n)) := by
  refine (inFlight_busy hS _).trans ?_
  rw [if_neg (not_not.mpr hb), if_neg (not_not.mpr hk), if_neg (not_or.mpr ⟨hp, hq⟩), if_neg (Bool.eq_false_iff.mp hw)]

theorem exec_hadd_ok {rd c1 c2 : XReg} (hw : strictRejects S (haddWarns S.x[c1] S.x[c2] S.k.n) = false) :
    exec (.hadd rd c1 c2) s = .next (s.completeX rd (S.x[c1] * S.x[c2] % (S.k.n * S.k.n))
      (haddWarns S.x[c1] S.x[c2] S.k.n)) := by
  refine (inFlight_busy hS _).trans ?_
  rw [if_neg (not_not.mpr hb), if_neg (not_not.mpr hk), if_neg (Bool.eq_false_iff.mp hw)]

theorem exec_hmul_ok {rd c1 k : XReg} (hw : strictRejects S (hmulWarns S.x[c1] S.x[k] S.k.n) = false) :
    exec (.hmul rd c1 k) s = .next (s.completeX rd (powmod S.x[c1] S.x[k] (S.k.n * S.k.n))
      (hmulWarns S.x[c1] S.x[k] S.k.n)) := by
  refine (inFlight_busy hS _).trans ?_
  rw [if_neg (not_not.mpr hb), if_neg (not_not.mpr hk), if_neg (Bool.eq_false_iff.mp hw)]

end

/-- The strict policy rejects nothing when no operand is out of range (R182). -/
theorem strictRejects_eq_false {S : Snapshot} {w : Warns} (h : S.strict = true → w = Warns.none) :
    strictRejects S w = false := by
  cases hs : S.strict with
  | false => rw [strictRejects, hs, Bool.false_and]
  | true => rw [strictRejects, h hs]; exact Bool.and_false _

theorem encryptWarns_eq_none {m n : Nat} (hm : m < n) : encryptWarns m n = Warns.none := by
  simp [encryptWarns, Warns.none, hm]

theorem decryptWarns_eq_none {c n : Nat} (hc : c < n * n) : decryptWarns c n = Warns.none := by
  simp [decryptWarns, Warns.none, hc]

theorem haddWarns_eq_none {c1 c2 n : Nat} (h1 : c1 < n * n) (h2 : c2 < n * n) : haddWarns c1 c2 n = Warns.none := by
  simp [haddWarns, Warns.none, h1, h2]

theorem hmulWarns_eq_none {c k n : Nat} (hc : c < n * n) (hk : k < n) : hmulWarns c k n = Warns.none := by
  simp [hmulWarns, Warns.none, hc, hk]

/-- A completion with code OK ends with ENG IDLE and DONE set, as every completion does (R117). -/
theorem ends_ok_of_exec {i : Instr} {s t : State} (h : exec i s = .next t) (he : t.errcode = .ok) :
    ∃ u, exec i s = .next u ∧ u.errcode = .ok ∧ u.eng = .idle ∧ u.status.done = true :=
  have hc := (exec_completes h).completed
  ⟨t, h, he, hc.idle, hc.done⟩

/-- Settles O23: each command's completion on such operands is its success. -/
theorem everyCommandCompletesOnAdmittedOperands : Obligations.EveryCommandCompletesOnAdmittedOperands := by
  intro s S hS ok b bitlenOk keyOk
  refine ⟨ends_ok_of_exec (exec_nop hS) rfl, fun rd _ _ _ _ p q hp hq hfit => ?_, fun rd u hb => ?_,
    fun p q hb hp hq hn ⟨kb, hd⟩ => ?_, fun rd m hb hk hw hr => ?_, fun rd c hb hk hp hq hw => ?_,
    fun rd a c hb hk hw => ?_, fun rd a c hb hk hw => ?_⟩
  · exact ends_ok_of_exec (exec_crtexp_ok hS _ _ _ _ _ hp hq hfit) rfl
  · exact ends_ok_of_exec (exec_lfunc_ok hS hb rd u) rfl
  · exact ends_ok_of_exec (exec_keyderive_ok hS hb hp hq hn hd) rfl
  · exact ends_ok_of_exec
      (exec_encrypt_ok hS hb hk (strictRejects_eq_false fun hs => encryptWarns_eq_none (hw hs)) hr) rfl
  · exact ends_ok_of_exec
      (exec_decrypt_ok hS hb hk hp hq (strictRejects_eq_false fun hs => decryptWarns_eq_none (hw hs))) rfl
  · exact ends_ok_of_exec
      (exec_hadd_ok hS hb hk (strictRejects_eq_false fun hs => have ⟨ha, hc⟩ := hw hs; haddWarns_eq_none ha hc)) rfl
  · exact ends_ok_of_exec
      (exec_hmul_ok hS hb hk (strictRejects_eq_false fun hs => have ⟨ha, hc⟩ := hw hs; hmulWarns_eq_none ha hc)) rfl

/-! ### NOP (R104, R119) -/

/-- The command words of NOP's opcode: 0 alone is legal (R104, R119). -/
theorem decode_of_op_zero {w : Word} (hop : w.toNat / 2 ^ 28 = 0) :
    decode w = if w = 0#32 then .ok .nop else .error (.mustBeZero .nop) := by
  split_ifs with hw
  · rw [hw]; exact decode_encode .nop
  · have hrow : (fieldsOf w).op = opcodeNumber .nop := Fin.ext ((fieldsOf_op_val w).trans hop)
    rw [decode, decodeFields, hrow, opcodeOf_opcodeNumber]
    refine if_neg fun hz => hw ?_
    exact (encodeOfDecodeIsTheWord w .nop (decodeFields_eq_ok_iff.mpr ⟨.nop, ⟨hrow, hz⟩, rfl⟩)).symm.trans (by decide)

/-- Settles O24: NOP's one word, its completion in flight, and its issue and completion in one. -/
theorem nopCompletesAndWritesNothing : Obligations.NopCompletesAndWritesNothing := by
  refine ⟨fun w => decode_of_op_zero, fun s S hS => exec_nop hS, fun s hE hovr => ?_⟩
  rw [memWrite_cmd_idle hE]
  have hstatus : readTarget (s.issue 0#32).completeNone .status = 2#32 := by
    show statusWord false ⟨true, s.status.ovr, false, false, false⟩ = 2#32
    rw [hovr]
    decide
  exact ⟨rfl, _, exec_nop rfl, rfl, hstatus, rfl, rfl, rfl, rfl⟩

end Sys2Proof.Machine
end

section
/-! The statements of the family 41_crt_engine.md: the machine invariant and every step, CRTEXP, and the identities of a
derived key. -/

namespace Sys2Proof.Machine

/-! ### The clauses of the invariant (R48, R184) -/

theorem busyConsistent_of_idle {s : State} (hE : s.eng = .idle) : s.BusyConsistent :=
  fun _ hS => nomatch hE.symm.trans hS

theorem warningsExplained_of_ok {s : State} (hok : s.errcode = .ok) : s.WarningsExplained :=
  ⟨fun he => (nomatch hok.symm.trans he), fun he _ _ => absurd hok he⟩

/-- ERRCODE and the three warnings are all the clause speaks of. -/
theorem State.WarningsExplained.congr {s t : State} (h : s.WarningsExplained) (herr : t.errcode = s.errcode)
    (hPt : t.status.wPt = s.status.wPt) (hCt : t.status.wCt = s.status.wCt) (hK : t.status.wK = s.status.wK) :
    t.WarningsExplained := by
  rwa [State.WarningsExplained, herr, hPt, hCt, hK]

/-! ### Host writes keep the invariant (R48, R77, R79) -/

theorem HostWrites.registersInRange {s u : State} {v : Word} (h : HostWrites s v u) (hc : s.cfg.wf = true)
    (hr : s.RegistersInRange) : u.RegistersInRange := by
  obtain ⟨hx, hk⟩ := hr
  cases h with
  | xWord _ i j hj =>
    refine ⟨fun l => ?_, hk⟩
    show (s.x.set i (setWordAt s.x[i] j v))[l] < _
    rw [x_set_get]
    split
    · exact setWordAt_lt_width hc (hx i) hj v
    · exact hx l
  | kWord _ k j hj =>
    refine ⟨hx, fun l => ?_⟩
    show (s.k.set k (setWordAt (s.k.get k) j v)).get l < _
    rw [keyBank_get_set]
    split
    · exact setWordAt_lt_width hc (hk k) hj v
    · exact hk l
  | _ => exact ⟨hx, hk⟩

/-- While BUSY only CTRL, OVR and DONE can be written, and DONE is only cleared; issue takes the snapshot (R115). -/
theorem HostWrites.busyConsistent {s u : State} {v : Word} (h : HostWrites s v u) (hb : s.BusyConsistent) :
    u.BusyConsistent := by
  cases h with
  | ignored | ctrl | rejected => exact hb
  | status =>
    intro S hS
    obtain ⟨hx, hk, hbit, hcmd, herr, hdone, hwarns⟩ := hb S hS
    have hclear : (writeOneToClear v s.status).done = false := by rw [writeOneToClear, hdone, Bool.false_and]
    exact ⟨hx, hk, hbit, hcmd, herr, hclear, hwarns⟩
  | issued =>
    intro S hS
    obtain rfl := Eng.busy.inj hS
    exact ⟨rfl, rfl, rfl, rfl, rfl, rfl, rfl, rfl, rfl⟩
  | bitlen hE | xWord hE | kWord hE => exact busyConsistent_of_idle hE

theorem HostWrites.warningsExplained {s u : State} {v : Word} (h : HostWrites s v u) (hw : s.WarningsExplained) :
    u.WarningsExplained := by
  cases h with
  | issued => exact warningsExplained_of_ok rfl
  | _ => exact hw.congr rfl rfl rfl rfl

theorem HostWrites.inv {s u : State} {v : Word} (h : HostWrites s v u) (hs : s.Inv) : u.Inv where
  parameters := h.cfg ▸ hs.parameters
  inRange := h.registersInRange hs.parameters hs.inRange
  busy := h.busyConsistent hs.busy
  warnings := h.warningsExplained hs.warnings

/-! ### Completions keep the invariant (R117, R123, R184) -/

theorem Completes.k_lt {i : Instr} {s t : State} (h : Completes i s t) (hs : ∀ k : KReg, s.k.get k < 2 ^ s.cfg.width)
    (k : KReg) : t.k.get k < 2 ^ s.cfg.width := by
  cases h with
  | error s0 e w hs0 => rcases hs0 with rfl | rfl <;> exact hs k
  | none => exact hs k
  | result s0 rd v w hs0 => rcases hs0 with rfl | rfl <;> exact hs k
  | keys kb hd hk => exact hk k

theorem Completes.registersInRange {i : Instr} {s t : State} (h : Completes i s t) (hr : s.RegistersInRange) :
    t.RegistersInRange := by
  obtain ⟨hx, hk⟩ := hr
  rw [State.RegistersInRange, h.completed.cfg]
  exact ⟨fun j => h.x_lt (hx j), h.k_lt hk⟩

theorem finish_warningsExplained (s : State) {e : ErrCode} {w : Warns} (hrange : e = .range → w.any = true)
    (hearly : e ≠ .range → e ≠ .zeroBlind → w = Warns.none) : (s.finish e w).WarningsExplained := by
  refine ⟨hrange, fun _ hnr hnz => ?_⟩
  obtain rfl := hearly hnr hnz
  exact ⟨rfl, rfl, rfl⟩

theorem Completes.warningsExplained {i : Instr} {s t : State} (h : Completes i s t) : t.WarningsExplained := by
  cases h with
  | error s0 e w _ _ _ hrange _ hearly => exact finish_warningsExplained s0 hrange hearly
  | none | result | keys => exact warningsExplained_of_ok rfl

theorem Completes.inv {i : Instr} {s t : State} (h : Completes i s t) (hs : s.Inv) : t.Inv where
  parameters := h.completed.cfg ▸ hs.parameters
  inRange := h.registersInRange hs.inRange
  busy := busyConsistent_of_idle h.completed.idle
  warnings := h.warningsExplained

/-- The completion of an illegal word keeps the invariant (R105). -/
theorem finish_illegalCmd_inv {s : State} (hs : s.Inv) : (s.finish .illegalCmd Warns.none).Inv where
  parameters := hs.parameters
  inRange := hs.inRange
  busy := busyConsistent_of_idle rfl
  warnings := finish_warningsExplained s nofun fun _ _ => rfl

/-! ### Every turn keeps the invariant (R82) -/

theorem State.EngineKept.inv {s t : State} (h : s.EngineKept t) (hs : s.Inv) : t.Inv := by
  obtain ⟨hc, hr, hb, hw⟩ := hs
  rw [h]
  exact ⟨hc, hr, hb, hw⟩

theorem hostStep_inv {s t : State} (h : hostStep s = .next t) (hs : s.Inv) : t.Inv := by
  rcases hostStep_cases h with hk | ⟨addr, v, rest, -, -, rfl⟩
  · exact hk.inv hs
  · obtain ⟨hc, hr, hb, hw⟩ := (memWrite_cases s (addr - s.cfg.base) v).inv hs
    exact ⟨hc, hr, hb, hw⟩

theorem engineStep_inv {s t : State} (h : engineStep s = .next t) (hs : s.Inv) : t.Inv := by
  rcases engineStep_cases h with rfl | ⟨S, -, ⟨i, -, hc⟩ | rfl⟩
  · exact hs
  · exact hc.inv hs
  · exact finish_illegalCmd_inv hs

/-- The values of the reset table meet the invariant under any legal parameters (R47, R200). -/
theorem resetEngine_inv {s : State} (hc : s.cfg.wf = true) : s.resetEngine.Inv where
  parameters := hc
  inRange := ⟨fun i => (reset_x_get i).trans_lt (Nat.two_pow_pos _),
    fun k => (keyBank_zero_get k).trans_lt (Nat.two_pow_pos _)⟩
  busy := busyConsistent_of_idle rfl
  warnings := warningsExplained_of_ok rfl

theorem releaseReset_inv {s : State} (hs : s.Inv) : s.releaseReset.Inv := by
  unfold State.releaseReset
  split
  · obtain ⟨hc, hr, hb, hw⟩ := resetEngine_inv hs.parameters
    exact ⟨hc, hr, hb, hw⟩
  · exact hs

/-- Settles O5: the invariant speaks of no agent around the engine, and each agent's turn keeps it. -/
theorem everyStepKeepsTheInvariant : Obligations.EveryStepKeepsTheInvariant := by
  intro s t ⟨hc, hr, hb, hw⟩ h
  have hpop : s.popTurn.Inv := ⟨hc, hr, hb, hw⟩
  rcases step_turn_cases h with ⟨-, hh⟩ | ⟨-, he⟩ | ⟨-, rfl⟩ | ⟨-, rfl⟩
  · exact hostStep_inv hh hpop
  · exact engineStep_inv he hpop
  · exact ⟨hc, hr, hb, hw⟩
  · exact releaseReset_inv hpop

/-! ### CRTEXP (R125) -/

/-- The value of `crtExp` is Garner's formula, evaluated on the integers (R20). -/
theorem crtExp_eq_toNat (base expP expQ pInvQ : Nat) {p q : Nat} (hp : 0 < p) (hq : 0 < q) :
    crtExp base expP expQ pInvQ p q =
      ((((base % p) ^ expP % p : Nat) + (p : Int) * pInvQ *
        (((base % q) ^ expQ % q : Nat) - ((base % p) ^ expP % p : Nat))) % ((p : Int) * q)).toNat := by
  rw [← crtExp_cast base expP expQ pInvQ hp hq, Int.toNat_natCast]

/-- Settles O26: the word by its row of the table, the completion by CRTEXP's two checks and Garner's formula. -/
theorem crtexpRecombinesByGarner : Obligations.CrtexpRecombinesByGarner := by
  refine ⟨fun w => (matches_iff_decode w .crtexp).mp, ?_⟩
  intro s S rd s1 s2 s3 s4 s5 s6 hS p q yp yq
  refine (inFlight_busy hS _).trans (congrArg Host.Outcome.next ?_)
  refine ite_congr rfl (fun _ => rfl) fun hzero => ite_congr rfl (fun _ => rfl) fun _ => ?_
  obtain ⟨hp, hq⟩ := not_or.mp hzero
  rw [crtExp_eq_toNat _ _ _ _ (Nat.pos_of_ne_zero hp) (Nat.pos_of_ne_zero hq)]
  rfl

/-! ### A derived key (R141, R142) -/

/-- A derivation succeeds exactly when its three inverses exist, and the bank is then made of them (R141). -/
theorem deriveKey_eq_ok_iff {p q b : Nat} {kb : KeyBank} :
    deriveKey p q b = .ok kb ↔
      ∃ nInv p2invq2 mu, inv (p * q) (2 ^ b) = some nInv ∧ inv (p * p) (q * q) = some p2invq2 ∧
        inv (lFunction (keyT p q p2invq2) nInv b) (p * q) = some mu ∧
        kb = ⟨lcmNat (p - 1) (q - 1), mu, p * p, q * q, p2invq2, nInv, p * q⟩ := by
  unfold deriveKey
  constructor
  · intro h
    split at h
    · exact nomatch h
    next nInv hNinv =>
      split at h
      · exact nomatch h
      next p2invq2 hP2 =>
        split at h
        · exact nomatch h
        next mu hMu => exact ⟨nInv, p2invq2, mu, hNinv, hP2, hMu, (Except.ok.inj h).symm⟩
  · rintro ⟨nInv, p2invq2, mu, hNinv, hP2, hMu, rfl⟩
    simp only [hNinv, hP2, hMu]

/-- A KEYDERIVE that ended OK passed its checks and wrote the derived bank (R141). -/
theorem deriveKey_of_exec_ok {s t : State} {S : Snapshot} {p q : XReg} (hS : s.eng = .busy S)
    (h : exec (.keyderive p q) s = .next t) (hok : t.errcode = .ok) :
    BitlenOk s.cfg S.b ∧ 2 ≤ S.x[p] ∧ 2 ≤ S.x[q] ∧ S.x[p] * S.x[q] < 2 ^ S.b ∧
      deriveKey S.x[p] S.x[q] S.b = .ok t.k := by
  obtain rfl := Host.Outcome.next.inj ((inFlight_busy hS _).symm.trans h)
  split at hok
  · exact nomatch hok
  next hb =>
    split at hok
    · exact nomatch hok
    next hoperand =>
      split at hok
      · exact nomatch hok
      next hkey =>
        obtain ⟨hp, hq⟩ := not_or.mp hoperand
        refine ⟨not_not.mp hb, Nat.not_lt.mp hp, Nat.not_lt.mp hq, Nat.not_le.mp hkey, ?_⟩
        rw [if_neg hb, if_neg hoperand, if_neg hkey]
        cases hd : deriveKey (S.xReg p) (S.xReg q) S.b with
        | error e =>
          simp only [hd] at hok
          exact absurd hok (deriveKey_error_ne_ok hd)
        | ok kb => rfl

/-- What a KEYDERIVE that ended OK says of its operands and its bank (R141). -/
theorem deriveKey_of_derived {c : Params} {b : Word} {p q : Nat} {kb : KeyBank} (h : Expected.Derived c b p q kb) :
    BitlenOk c b.toNat ∧ 2 ≤ p ∧ 2 ≤ q ∧ p * q < 2 ^ b.toNat ∧ deriveKey p q b.toNat = .ok kb := by
  obtain ⟨s, t, S, rp, rq, rfl, hS, rfl, rfl, rfl, hx, hok, rfl⟩ := h
  exact deriveKey_of_exec_ok hS hx hok

theorem lcmNat_pred_lt_mul {p q : Nat} (hp : 2 ≤ p) (hq : 2 ≤ q) : lcmNat (p - 1) (q - 1) < p * q :=
  calc lcmNat (p - 1) (q - 1) = Nat.lcm (p - 1) (q - 1) := lcmNat_eq_natLcm _ _
    _ ≤ (p - 1) * (q - 1) := Nat.le_of_dvd (Nat.mul_pos (by omega) (by omega)) (Nat.lcm_dvd_mul _ _)
    _ < p * q := Nat.mul_lt_mul'' (by omega) (by omega)

/-- `(1 + n)^k ≡ 1 + k·n` modulo `n²`: of the binomial sum the first two terms remain. -/
theorem one_add_pow_modEq_sq (n k : Nat) : (1 + n) ^ k ≡ 1 + k * n [MOD n * n] := by
  obtain ⟨d, hd⟩ := sq_dvd_add_pow_sub_sub (n : Int) 1 k
  rw [one_pow, one_pow, one_mul] at hd
  refine (Int.natCast_modEq_iff.mp (Int.modEq_iff_dvd.mpr ⟨d, ?_⟩)).symm
  push_cast
  linear_combination hd

/-- With coprime squares as its moduli, step 6's power of the generator is `1 + lambda·n` (R142). -/
theorem keyT_eq {p q c : Nat} (hp : 2 ≤ p) (hq : 2 ≤ q) (hc : p * p * c % (q * q) = 1) :
    keyT p q c = (1 + lcmNat (p - 1) (q - 1) * (p * q)) % (p * q * (p * q)) := by
  have hp2 : 1 ≤ p * p := Nat.mul_pos (by omega) (by omega)
  have hq2 : 2 ≤ q * q := hq.trans (Nat.le_mul_of_pos_left q (by omega))
  have hinverse : p * p * c ≡ 1 [MOD q * q] := hc.trans (Nat.mod_eq_of_lt hq2).symm
  have hsquares : p * p * (q * q) = p * q * (p * q) := mul_mul_mul_comm p p q q
  rw [keyT, crtExp_eq_pow_mod _ _ _ hp2 (by omega) (coprime_of_mul_mod_eq_one hq2 hc) hinverse, hsquares]
  exact one_add_pow_modEq_sq _ _

/-- L of that power is lambda: `1 + lambda·n` is below `n²`, and lambda below `2^b` (R142). -/
theorem lFunction_keyT {p q c nInv b : Nat} (hp : 2 ≤ p) (hq : 2 ≤ q) (hn : p * q < 2 ^ b)
    (hc : p * p * c % (q * q) = 1) (hnInv : p * q * nInv % 2 ^ b = 1) :
    lFunction (keyT p q c) nInv b = lcmNat (p - 1) (q - 1) := by
  have hlam : lcmNat (p - 1) (q - 1) < p * q := lcmNat_pred_lt_mul hp hq
  have hfour : 2 * 2 ≤ p * q := Nat.mul_le_mul hp hq
  have hbelow : 1 + lcmNat (p - 1) (q - 1) * (p * q) < p * q * (p * q) :=
    calc 1 + lcmNat (p - 1) (q - 1) * (p * q) < (lcmNat (p - 1) (q - 1) + 1) * (p * q) := by
          rw [Nat.add_mul]; omega
      _ ≤ p * q * (p * q) := Nat.mul_le_mul_right _ hlam
  have hinverse : p * q * nInv ≡ 1 [MOD 2 ^ b] := hnInv.trans (Nat.mod_eq_of_lt (by omega)).symm
  rw [keyT_eq hp hq hc, Nat.mod_eq_of_lt hbelow, lFunction_one_add_mul hinverse (hlam.trans hn)]

/-- `2^b · 2^b` fits a register when BITLEN is legal (R183). -/
theorem two_pow_mul_self_le_width {c : Params} {b : Nat} (hb : BitlenOk c b) : 2 ^ b * 2 ^ b ≤ 2 ^ c.width := by
  rw [Params.width, two_mul, pow_add]
  exact Nat.mul_le_mul (two_pow_le_of_bitlenOk hb) (two_pow_le_of_bitlenOk hb)

/-- Every field of a derived key is below `n²`, NINV where `2^b` is at most `n²` (R123; log 29). -/
theorem deriveKey_lt_sq {p q b : Nat} {kb : KeyBank} (hp : 2 ≤ p) (hq : 2 ≤ q) (h : deriveKey p q b = .ok kb)
    {k : KReg} (hk : k ≠ 5 ∨ 2 ^ b ≤ p * q * (p * q)) : kb.get k < p * q * (p * q) := by
  obtain ⟨hNinv, hothers⟩ := deriveKey_ranges hp hq h
  by_cases h5 : k = 5
  · subst h5
    exact hNinv.trans_le (hk.resolve_left (absurd rfl))
  · exact hothers k h5

/-- Settles O33: each inverse is R18's, and the values of t, L(t) and mu need no more of p and q than that their squares
are coprime, as they are when the derivation succeeded. -/
theorem completedKeyHasItsIdentities : Obligations.CompletedKeyHasItsIdentities := by
  intro cfg b p q kb h
  obtain ⟨hb, hp, hq, hn, hd⟩ := deriveKey_of_derived h
  obtain ⟨nInv, c, mu, hNinv, hP2, hMu, rfl⟩ := deriveKey_eq_ok_iff.mp hd
  have hfour : 2 * 2 ≤ p * q := Nat.mul_le_mul hp hq
  obtain ⟨hNinvLt, hNinv⟩ := inv_some _ (by omega) hNinv
  obtain ⟨hcLt, hc⟩ := inv_some _ (hq.trans (Nat.le_mul_of_pos_left q (by omega))) hP2
  obtain ⟨hmuLt, hmu⟩ := inv_some _ (by omega) hMu
  have hL : lFunction (keyT p q c) nInv b.toNat = lcmNat (p - 1) (q - 1) := lFunction_keyT hp hq hn hc hNinv
  refine ⟨rfl, hn, hNinv, hc, hNinvLt, hcLt, hmuLt, rfl, rfl, lcmNat_eq_natLcm _ _, ?_, fun k => ⟨?_, ?_⟩, fun _ =>
    ⟨keyT_eq hp hq hc, hL.trans ?_, ?_⟩⟩
  · rwa [Nat.mul_comm] at hmu
  · exact (deriveKey_lt hp hq hn hd k).trans_le (two_pow_mul_self_le_width hb)
  · exact deriveKey_lt_sq hp hq hd
  · exact (Nat.mod_eq_of_lt (lcmNat_pred_lt_mul hp hq)).symm
  · rwa [hL] at hmu

end Sys2Proof.Machine
end

section
/-! The statements of the family 42_key_derivation.md: KEYDERIVE's checks and inverses in the rule's order, and which
operands each missing inverse belongs to. -/

namespace Sys2Proof.Machine

/-! ### The derivation's outcomes (R141) -/

/-- The L-function, evaluated on the integers (R19). -/
theorem lFunction_eq_toNat (u nInv b : Nat) :
    lFunction u nInv b = ((((u : Int) - 1) * (nInv : Int)) % (2 ^ b : Int)).toNat := by
  rw [lFunction, floorMod, Nat.cast_pow, Nat.cast_ofNat]

theorem keyT_eq_crtExp_natLcm (p q c : Nat) :
    keyT p q c = crtExp (1 + p * q) (Nat.lcm (p - 1) (q - 1)) (Nat.lcm (p - 1) (q - 1)) c (p * p) (q * q) := by
  rw [keyT, lcmNat_eq_natLcm]

/-- A derivation fails with the code of the first inverse that is missing, in the order n, p², L(t) (R138, R141). -/
theorem deriveKey_eq_error_iff {p q b : Nat} {e : ErrCode} :
    deriveKey p q b = .error e ↔
      (inv (p * q) (2 ^ b) = none ∧ e = .noinvNinv) ∨
      (∃ nInv, inv (p * q) (2 ^ b) = some nInv ∧ inv (p * p) (q * q) = none ∧ e = .noinvP2q2) ∨
      ∃ nInv c, inv (p * q) (2 ^ b) = some nInv ∧ inv (p * p) (q * q) = some c ∧
        inv (lFunction (keyT p q c) nInv b) (p * q) = none ∧ e = .noinvMu := by
  unfold deriveKey
  cases inv (p * q) (2 ^ b) with
  | none => simp [eq_comm]
  | some nInv =>
    cases inv (p * p) (q * q) with
    | none => simp [eq_comm]
    | some c => cases hMu : inv (lFunction (keyT p q c) nInv b) (p * q) <;> simp [hMu, eq_comm]

/-! ### KEYDERIVE's completion (R141) -/

/-- The completion with a derivation's outcome: the whole key bank, or an error (R141). -/
def State.completeDerived (s : State) : Except ErrCode KeyBank → State
  | .error e => s.errorCompletion e Warns.none
  | .ok kb => s.completeKeys kb

/-- KEYDERIVE is its three checks and then the completion with the derivation's outcome (R141). -/
theorem exec_keyderive_eq {s : State} {S : Snapshot} (hS : s.eng = .busy S) (p q : XReg) :
    exec (.keyderive p q) s =
      .next
        (if ¬ BitlenOk s.cfg S.b then s.errorCompletion .bitlen Warns.none
        else if S.x[p] < 2 ∨ S.x[q] < 2 then s.errorCompletion .operand Warns.none
        else if 2 ^ S.b ≤ S.x[p] * S.x[q] then s.errorCompletion .key Warns.none
        else s.completeDerived (deriveKey S.x[p] S.x[q] S.b)) :=
  inFlight_busy hS _

/-- Settles O31: the word by its row of the table, the completion by KEYDERIVE's three checks and, past them, by the
derivation's outcome for each inverse missing or found. -/
theorem keyderiveFollowsTheSteps : Obligations.KeyderiveFollowsTheSteps := by
  refine ⟨fun w => (matches_iff_decode w .keyderive).mp, ?_⟩
  intro s S s1 s2 hS
  refine (exec_keyderive_eq hS s1 s2).trans (congrArg Host.Outcome.next ?_)
  have hbitlen : (¬ BitlenOk s.cfg S.b) = (S.b < 2 ∨ s.cfg.nmax < S.b) := by rw [not_and_or, not_le, not_le]
  refine ite_congr hbitlen (fun _ => rfl) fun _ => ite_congr rfl (fun _ => rfl) fun _ =>
    ite_congr rfl (fun _ => rfl) fun _ => ?_
  simp only [← lFunction_eq_toNat, ← keyT_eq_crtExp_natLcm]
  cases hNinv : inv (S.x[s1] * S.x[s2]) (2 ^ S.bitlen.toNat) with
  | none => exact congrArg s.completeDerived (deriveKey_eq_error_iff.mpr (.inl ⟨hNinv, rfl⟩))
  | some nInv =>
    cases hP2 : inv (S.x[s1] * S.x[s1]) (S.x[s2] * S.x[s2]) with
    | none => exact congrArg s.completeDerived (deriveKey_eq_error_iff.mpr (.inr (.inl ⟨nInv, hNinv, hP2, rfl⟩)))
    | some c =>
      dsimp only
      cases hMu : inv (lFunction (keyT S.x[s1] S.x[s2] c) nInv S.bitlen.toNat) (S.x[s1] * S.x[s2]) with
      | none =>
        exact congrArg s.completeDerived (deriveKey_eq_error_iff.mpr (.inr (.inr ⟨nInv, c, hNinv, hP2, hMu, rfl⟩)))
      | some mu =>
        rw [← lcmNat_eq_natLcm]
        exact congrArg s.completeDerived (deriveKey_eq_ok_iff.mpr ⟨nInv, c, mu, hNinv, hP2, hMu, rfl⟩)

/-! ### When an inverse is missing (R18, 90_conflicts.md C9) -/

theorem inv_eq_none_iff_gcd (a : Nat) {m : Nat} (hm : 0 < m) : inv a m = none ↔ Nat.gcd a m ≠ 1 := by
  rw [inv_eq_none_iff a hm, (Nat.mod_modEq a m).gcd_eq]

theorem inv_two_pow_eq_none_iff (n : Nat) {b : Nat} (hb : 0 < b) : inv n (2 ^ b) = none ↔ n % 2 = 0 := by
  rw [inv_eq_none_iff_gcd n (Nat.two_pow_pos b), ne_eq, ← Nat.coprime_iff_gcd_eq_one, Nat.coprime_pow_right_iff hb,
    Nat.coprime_two_right, Nat.not_odd_iff]

theorem inv_mul_self_eq_none_iff (p : Nat) {q : Nat} (hq : 0 < q) :
    inv (p * p) (q * q) = none ↔ Nat.gcd p q ≠ 1 := by
  rw [inv_eq_none_iff_gcd _ (Nat.mul_pos hq hq), ne_eq, ← Nat.coprime_iff_gcd_eq_one, ← sq, ← sq,
    Nat.coprime_pow_left_iff two_pos, Nat.coprime_pow_right_iff two_pos, Nat.coprime_iff_gcd_eq_one]

section
variable {p q b : Nat}

theorem deriveKey_eq_noinvNinv_iff (hb : 0 < b) : deriveKey p q b = .error .noinvNinv ↔ p * q % 2 = 0 := by
  simp [deriveKey_eq_error_iff, inv_two_pow_eq_none_iff _ hb]

theorem deriveKey_eq_noinvP2q2_iff (hb : 0 < b) (hq : 0 < q) :
    deriveKey p q b = .error .noinvP2q2 ↔ p * q % 2 = 1 ∧ Nat.gcd p q ≠ 1 := by
  have hodd : (∃ nInv, inv (p * q) (2 ^ b) = some nInv) ↔ p * q % 2 = 1 := by
    rw [← Option.ne_none_iff_exists', ne_eq, inv_two_pow_eq_none_iff _ hb, Nat.mod_two_not_eq_zero]
  simp [deriveKey_eq_error_iff, hodd, inv_mul_self_eq_none_iff p hq]

/-- NOINV_MU is neither of the two earlier errors, so neither condition of theirs holds. -/
theorem odd_and_coprime_of_deriveKey_eq_noinvMu (hb : 0 < b) (hq : 0 < q)
    (h : deriveKey p q b = .error .noinvMu) : p * q % 2 = 1 ∧ Nat.gcd p q = 1 := by
  have hodd : p * q % 2 = 1 := (Nat.mod_two_eq_zero_or_one _).resolve_left fun heven =>
    nomatch h.symm.trans ((deriveKey_eq_noinvNinv_iff hb).mpr heven)
  refine ⟨hodd, not_not.mp fun hg => ?_⟩
  exact nomatch h.symm.trans ((deriveKey_eq_noinvP2q2_iff hb hq).mpr ⟨hodd, hg⟩)

theorem deriveKey_eq_noinvMu_iff {nInv c : Nat} (hpq : 0 < p * q) (hNinv : inv (p * q) (2 ^ b) = some nInv)
    (hP2 : inv (p * p) (q * q) = some c) :
    deriveKey p q b = .error .noinvMu ↔ Nat.gcd (lFunction (keyT p q c) nInv b) (p * q) ≠ 1 := by
  simp [deriveKey_eq_error_iff, hNinv, hP2, inv_eq_none_iff_gcd _ hpq]

end

theorem completeDerived_errcode_iff (s : State) (d : Except ErrCode KeyBank) {e : ErrCode} (he : e ≠ .ok) :
    (s.completeDerived d).errcode = e ↔ d = .error e := by
  cases d with
  | error e' => exact (Except.error.injEq e' e).symm ▸ .rfl
  | ok kb => exact iff_of_false he.symm nofun

/-- Settles O32: past the checks the code is the derivation's, and each inverse is missing exactly where its operand and
its modulus share a factor. -/
theorem keyderiveInverseErrors : Obligations.KeyderiveInverseErrors := by
  intro s t S s1 s2 hS h hb hnmax hp hq hn b p q n
  rw [exec_keyderive_eq hS, if_neg (not_not.mpr ⟨hb, hnmax⟩),
    if_neg (not_or.mpr ⟨Nat.not_lt.mpr hp, Nat.not_lt.mpr hq⟩), if_neg (Nat.not_le.mpr hn)] at h
  obtain rfl := Host.Outcome.next.inj h
  have hcode : ∀ e : ErrCode, e ≠ .ok → ((s.completeDerived (deriveKey p q b)).errcode = e ↔ _) := fun _ =>
    completeDerived_errcode_iff s _
  have hbpos : 0 < b := two_pos.trans_le hb
  have hqpos : 0 < q := two_pos.trans_le hq
  refine ⟨(hcode .noinvNinv nofun).trans (deriveKey_eq_noinvNinv_iff hbpos),
    (hcode .noinvP2q2 nofun).trans (deriveKey_eq_noinvP2q2_iff hbpos hqpos),
    fun hmu => odd_and_coprime_of_deriveKey_eq_noinvMu hbpos hqpos ((hcode .noinvMu nofun).mp hmu), ?_⟩
  intro nInv c hNinvLt hNinv hcLt hc lam u
  have hNinvFound : inv (p * q) (2 ^ b) = some nInv :=
    (inv_eq_some_iff _ (Nat.le_self_pow hbpos.ne' 2)).mpr ⟨hNinvLt, hNinv⟩
  have hP2Found : inv (p * p) (q * q) = some c :=
    (inv_eq_some_iff _ (hq.trans (Nat.le_mul_of_pos_left q hqpos))).mpr ⟨hcLt, hc⟩
  have hu : u = keyT p q c := (keyT_eq_crtExp_natLcm p q c).symm
  rw [← lFunction_eq_toNat, hu]
  exact (hcode .noinvMu nofun).trans
    (deriveKey_eq_noinvMu_iff (Nat.mul_pos (two_pos.trans_le hp) hqpos) hNinvFound hP2Found)

end Sys2Proof.Machine
end

section
/-! The statements of the family 43_encrypt.md: ENCRYPT's checks in the rule's order, the draw past them, and W_PT. -/

namespace Sys2Proof.Machine

/-! ### ENCRYPT's completion (R155) -/

/-- The draw is below 2^b, whatever the entropy source answers (R152). -/
theorem draw_lt (s : State) (b : Nat) : s.draw b < 2 ^ b := Nat.mod_lt _ (Nat.two_pow_pos b)

/-- The ciphertext with R16's power for the modular exponentiation (R150). -/
theorem cipher_eq_pow_mod (r m n : Nat) : cipher r m n = r ^ n % (n * n) * (1 + m * n) % (n * n) := by
  rw [cipher, powmod_eq_pow_mod]

/-- ENCRYPT's one warning is W_PT, so the strict policy rejects exactly the plaintexts m ≥ N (R157, R182). -/
theorem strictRejects_encryptWarns_iff (S : Snapshot) (m n : Nat) :
    strictRejects S (encryptWarns m n) = true ↔ S.strict = true ∧ n ≤ m := by
  simp [strictRejects, encryptWarns, Warns.any]

/-- ENCRYPT is its three checks, the draw, and then ZERO_BLIND or the ciphertext (R155). -/
theorem exec_encrypt_eq {s : State} {S : Snapshot} (hS : s.eng = .busy S) (rd m : XReg) :
    exec (.encrypt rd m) s =
      .next
        (if ¬ BitlenOk s.cfg S.b then s.errorCompletion .bitlen Warns.none
        else if ¬ KeyOk S.k.n S.b then s.errorCompletion .key Warns.none
        else if strictRejects S (encryptWarns S.x[m] S.k.n) then
          s.errorCompletion .range (encryptWarns S.x[m] S.k.n)
        else if s.draw S.b % S.k.n = 0 then s.takeDraw.errorCompletion .zeroBlind (encryptWarns S.x[m] S.k.n)
        else s.takeDraw.completeX rd (cipher (s.draw S.b % S.k.n) S.x[m] S.k.n) (encryptWarns S.x[m] S.k.n)) :=
  inFlight_busy hS _

/-- Settles O34: the word by its row of the table, the draw by its bound, the completion check by check. -/
theorem encryptBlindsThePlaintext : Obligations.EncryptBlindsThePlaintext := by
  refine ⟨fun w => (matches_iff_decode w .encrypt).mp, draw_lt, ?_⟩
  intro s S rd s1 hS b n m r w
  refine (exec_encrypt_eq hS rd s1).trans (congrArg Host.Outcome.next ?_)
  have hbitlen : (¬ BitlenOk s.cfg b) = (b < 2 ∨ s.cfg.nmax < b) := by rw [not_and_or, not_le, not_le]
  have hkey : (¬ KeyOk n b) = (n = 0 ∨ n ≥ 2 ^ b) := by rw [not_and_or, not_le, Nat.lt_one_iff, not_lt]
  have hstrict := propext (strictRejects_encryptWarns_iff S m n)
  refine ite_congr hbitlen (fun _ => rfl) fun _ => ite_congr hkey (fun _ => rfl) fun _ =>
    ite_congr hstrict (fun _ => rfl) fun _ => ite_congr rfl (fun _ => rfl) fun _ => ?_
  rw [cipher_eq_pow_mod]
  rfl

/-! ### The plaintext warning (R157) -/

theorem encryptWarns_wPt_iff (m n : Nat) : (encryptWarns m n).wPt = true ↔ n ≤ m := decide_eq_true_iff

/-- Settles O36: the first two checks end ENCRYPT without a warning; past them it ends with `encryptWarns`, and under
STRICT a set W_PT leaves RANGE as the only completion. -/
theorem plaintextWarningIsExact : Obligations.PlaintextWarningIsExact := by
  intro s t S rd s1 hS h
  rw [exec_encrypt_eq hS] at h
  obtain rfl := Host.Outcome.next.inj h
  by_cases hb : BitlenOk s.cfg S.b
  case neg =>
    rw [if_pos hb]
    exact ⟨iff_of_false Bool.false_ne_true fun ⟨hbitlen, _⟩ => hb hbitlen, fun _ hw => absurd hw Bool.false_ne_true⟩
  by_cases hk : KeyOk S.k.n S.b
  case neg =>
    rw [if_neg (not_not.mpr hb), if_pos hk]
    exact ⟨iff_of_false Bool.false_ne_true fun ⟨_, hkey, _⟩ => hk hkey, fun _ hw => absurd hw Bool.false_ne_true⟩
  have hwPt : (encryptWarns S.x[s1] S.k.n).wPt = true ↔ BitlenOk s.cfg S.b ∧ KeyOk S.k.n S.b ∧ S.k.n ≤ S.x[s1] :=
    (encryptWarns_wPt_iff _ _).trans ⟨fun hm => ⟨hb, hk, hm⟩, fun ⟨_, _, hm⟩ => hm⟩
  rw [if_neg (not_not.mpr hb), if_neg (not_not.mpr hk)]
  by_cases hr : strictRejects S (encryptWarns S.x[s1] S.k.n) = true
  · rw [if_pos hr]
    exact ⟨hwPt, fun _ _ => rfl⟩
  · have hlax : S.strict = true → (encryptWarns S.x[s1] S.k.n).wPt ≠ true := fun hs hw =>
      hr ((strictRejects_encryptWarns_iff ..).mpr ⟨hs, (encryptWarns_wPt_iff ..).mp hw⟩)
    rw [if_neg hr]
    split <;> exact ⟨hwPt, fun hs hw => absurd hw (hlax hs)⟩

end Sys2Proof.Machine
end

section
/-! The statements of the family 44_decrypt.md: LFUNC and its value at 0, DECRYPT's checks in the rule's order and its
plaintext, and the warnings each command ends with. -/

namespace Sys2Proof.Machine

/-! ### The two checks, failing (R183) -/

theorem not_bitlenOk_iff {c : Params} {b : Nat} : ¬ BitlenOk c b ↔ b < 2 ∨ c.nmax < b := by
  rw [not_and_or, not_le, not_le]

theorem not_keyOk_iff {n b : Nat} : ¬ KeyOk n b ↔ n = 0 ∨ n ≥ 2 ^ b := by
  rw [not_and_or, not_le, Nat.lt_one_iff, not_lt]

/-! ### LFUNC (R162, R163) -/

/-- LFUNC is its one check and then the L-function (R163). -/
theorem exec_lfunc_eq {s : State} {S : Snapshot} (hS : s.eng = .busy S) (rd u : XReg) :
    exec (.lfunc rd u) s =
      .next
        (if ¬ BitlenOk s.cfg S.b then s.errorCompletion .bitlen Warns.none
        else s.completeX rd (lFunction S.x[u] S.k.nInv S.b) Warns.none) :=
  inFlight_busy hS _

/-- Settles O28: the word by its row of the table, the completion by LFUNC's one check and the L-function. -/
theorem lfuncMultipliesAndMasks : Obligations.LfuncMultipliesAndMasks := by
  refine ⟨fun w => (matches_iff_decode w .lfunc).mp, ?_⟩
  intro s S rd u hS b
  refine (exec_lfunc_eq hS rd u).trans (congrArg Host.Outcome.next ?_)
  refine ite_congr (propext not_bitlenOk_iff) (fun _ => rfl) fun _ => ?_
  rw [lFunction_eq_toNat]
  rfl

/-- The floored remainder of a negative number: `-a` and `m - a % m` differ by a multiple of `m` (R15). -/
theorem floorMod_neg_natCast (a : Nat) {m : Nat} (hm : 0 < m) : floorMod (-(a : Int)) m = (m - a % m) % m := by
  have hmod : -(a : Int) ≡ ((m - a % m : Nat) : Int) [ZMOD m] := by
    rw [Nat.cast_sub (Nat.mod_lt a hm).le, Int.natCast_emod]
    calc -(a : Int) ≡ -((a : Int) % m) [ZMOD m] := (Int.mod_modEq _ _).symm.neg
      _ ≡ m - (a : Int) % m [ZMOD m] := by rw [sub_eq_neg_add]; exact Int.add_modEq_right.symm
  rw [← floorMod_natCast, floorMod, floorMod, hmod.eq]

/-- `L(0) = -NINV mod 2^b` (R162). -/
theorem lFunction_zero (nInv b : Nat) : lFunction 0 nInv b = (2 ^ b - nInv % 2 ^ b) % 2 ^ b := by
  rw [lFunction, Nat.cast_zero, zero_sub, neg_one_mul, floorMod_neg_natCast nInv (Nat.two_pow_pos b)]

/-- Settles O30: with a legal BITLEN LFUNC writes the L-function's value, here at 0. -/
theorem lfuncOfZeroIsTheMaskedNegative : Obligations.LfuncOfZeroIsTheMaskedNegative := by
  intro s S rd u hS hb hnmax hu
  rw [exec_lfunc_ok hS ⟨hb, hnmax⟩, hu, lFunction_zero]
  rfl

/-! ### DECRYPT (R165) -/

/-- DECRYPT is its three checks, the strict policy, and then the plaintext (R165). -/
theorem exec_decrypt_eq {s : State} {S : Snapshot} (hS : s.eng = .busy S) (rd c : XReg) :
    exec (.decrypt rd c) s =
      .next
        (if ¬ BitlenOk s.cfg S.b then s.errorCompletion .bitlen Warns.none
        else if ¬ KeyOk S.k.n S.b then s.errorCompletion .key Warns.none
        else if S.k.p2 = 0 ∨ S.k.q2 = 0 then s.errorCompletion .zeroModulus Warns.none
        else if strictRejects S (decryptWarns S.x[c] S.k.n) then
          s.errorCompletion .range (decryptWarns S.x[c] S.k.n)
        else s.completeX rd (plain S.x[c] S.k S.b) (decryptWarns S.x[c] S.k.n)) :=
  inFlight_busy hS _

/-- DECRYPT's one warning is W_CT, so the strict policy rejects exactly the ciphertexts c ≥ N² (R166, R182). -/
theorem strictRejects_decryptWarns_iff (S : Snapshot) (c n : Nat) :
    strictRejects S (decryptWarns c n) = true ↔ S.strict = true ∧ n * n ≤ c := by
  simp [strictRejects, decryptWarns, Warns.any]

/-- Settles O39: the word by its row of the table, the completion check by check, the plaintext with its L-function on
the integers. -/
theorem decryptAppliesLAndMu : Obligations.DecryptAppliesLAndMu := by
  refine ⟨fun w => (matches_iff_decode w .decrypt).mp, ?_⟩
  intro s S rd s1 hS b n c w t u
  refine (exec_decrypt_eq hS rd s1).trans (congrArg Host.Outcome.next ?_)
  have hstrict := propext (strictRejects_decryptWarns_iff S c n)
  refine ite_congr (propext not_bitlenOk_iff) (fun _ => rfl) fun _ => ite_congr (propext not_keyOk_iff) (fun _ => rfl)
    fun _ => ite_congr rfl (fun _ => rfl) fun _ => ite_congr hstrict (fun _ => rfl) fun _ => ?_
  rw [plain, lFunction_eq_toNat]
  rfl

/-! ### The warnings a command ends with (R157, R166, R171, R173, R174, R181) -/

/-- The warnings of a command in flight: its warning conditions where the checks before them passed, else none (R181). -/
def Snapshot.warns (S : Snapshot) (c : Params) : Instr → Warns
  | .encrypt _ m => if BitlenOk c S.b ∧ KeyOk S.k.n S.b then encryptWarns S.x[m] S.k.n else Warns.none
  | .decrypt _ a =>
    if BitlenOk c S.b ∧ KeyOk S.k.n S.b ∧ S.k.p2 ≠ 0 ∧ S.k.q2 ≠ 0 then decryptWarns S.x[a] S.k.n else Warns.none
  | .hadd _ a b => if BitlenOk c S.b ∧ KeyOk S.k.n S.b then haddWarns S.x[a] S.x[b] S.k.n else Warns.none
  | .hmul _ a k => if BitlenOk c S.b ∧ KeyOk S.k.n S.b then hmulWarns S.x[a] S.x[k] S.k.n else Warns.none
  | .nop | .crtexp .. | .lfunc .. | .keyderive .. => Warns.none

theorem ite_status {c : Prop} [Decidable c] {u v : State} {st : Status} (hu : u.status = st) (hv : v.status = st) :
    (if c then u else v).status = st := by
  split <;> assumption

/-- A check before the warnings: a command that fails it ends with none, one that passes it goes on (R181). -/
theorem check_status {c c' : Prop} [Decidable c] [Decidable c'] {s u : State} {e : ErrCode} {w : Warns} (hc : c' ↔ ¬ c)
    (hu : u.status = setForCompletion w s.status) :
    (if c then s.errorCompletion e Warns.none else u).status =
      setForCompletion (if c' then w else Warns.none) s.status := by
  by_cases h : c
  · rw [if_pos h, if_neg (mt hc.mp (not_not.mpr h))]
    rfl
  · rw [if_neg h, if_pos (hc.mpr h), hu]

theorem completeDerived_status (s : State) (d : Except ErrCode KeyBank) :
    (s.completeDerived d).status = setForCompletion Warns.none s.status := by
  cases d <;> rfl

/-- Every command ends with DONE set, its warnings, and OVR as it was (R117, R181). -/
theorem exec_status {i : Instr} {s t : State} {S : Snapshot} (hS : s.eng = .busy S) (h : exec i s = .next t) :
    t.status = setForCompletion (S.warns s.cfg i) s.status := by
  cases i with
  | nop =>
    obtain rfl := Host.Outcome.next.inj ((exec_nop hS).symm.trans h)
    rfl
  | crtexp rd base expP expQ pInvQ p q =>
    obtain rfl := Host.Outcome.next.inj ((inFlight_busy hS _).symm.trans h)
    exact ite_status rfl (ite_status rfl rfl)
  | lfunc rd u =>
    obtain rfl := Host.Outcome.next.inj ((exec_lfunc_eq hS rd u).symm.trans h)
    exact ite_status rfl rfl
  | keyderive p q =>
    obtain rfl := Host.Outcome.next.inj ((exec_keyderive_eq hS p q).symm.trans h)
    exact ite_status rfl (ite_status rfl (ite_status rfl (completeDerived_status s _)))
  | encrypt rd m =>
    obtain rfl := Host.Outcome.next.inj ((exec_encrypt_eq hS rd m).symm.trans h)
    rw [Snapshot.warns, ite_and]
    exact check_status not_not.symm (check_status not_not.symm (ite_status rfl (ite_status rfl rfl)))
  | decrypt rd c =>
    obtain rfl := Host.Outcome.next.inj ((exec_decrypt_eq hS rd c).symm.trans h)
    rw [Snapshot.warns, ite_and, ite_and (P := KeyOk S.k.n S.b)]
    exact check_status not_not.symm (check_status not_not.symm (check_status not_or.symm (ite_status rfl rfl)))
  | hadd rd c1 c2 | hmul rd c1 c2 =>
    obtain rfl := Host.Outcome.next.inj ((inFlight_busy hS _).symm.trans h)
    rw [Snapshot.warns, ite_and]
    exact check_status not_not.symm (check_status not_not.symm (ite_status rfl rfl))

section
variable (f : Warns → Bool) (hf : f Warns.none = false) (c : Prop) [Decidable c]
include hf

/-- Behind the checks `c`, a flag is set exactly where they pass and its own condition holds (R181). -/
theorem flag_ite_none_iff (w : Warns) : f (if c then w else Warns.none) = true ↔ c ∧ f w = true := by
  split <;> simp [*]

theorem flag_ite_none_eq_false {w : Warns} (hw : f w = false) : f (if c then w else Warns.none) = false := by
  split <;> assumption

end

/-- Settles O37: each command ends with `Snapshot.warns`, whose flags are the conditions past the checks. -/
theorem ciphertextAndConstantWarningsAreExact : Obligations.CiphertextAndConstantWarningsAreExact := by
  intro s t S hS bitlenOk keyOk n2
  refine ⟨fun rd c h => ?_, fun rd a c h => ?_, fun rd a k h => ?_, fun rd m h => ?_, fun i hi h => ?_⟩
  all_goals rw [exec_status hS h]
  · exact ⟨(flag_ite_none_iff Warns.wCt rfl _ _).trans (by simp [decryptWarns, bitlenOk, keyOk, n2, and_assoc]),
      flag_ite_none_eq_false Warns.wPt rfl _ rfl, flag_ite_none_eq_false Warns.wK rfl _ rfl⟩
  · exact ⟨(flag_ite_none_iff Warns.wCt rfl _ _).trans (by simp [haddWarns, bitlenOk, keyOk, n2, and_assoc]),
      flag_ite_none_eq_false Warns.wPt rfl _ rfl, flag_ite_none_eq_false Warns.wK rfl _ rfl⟩
  · exact ⟨(flag_ite_none_iff Warns.wCt rfl _ _).trans (by simp [hmulWarns, bitlenOk, keyOk, n2, and_assoc]),
      (flag_ite_none_iff Warns.wK rfl _ _).trans (by simp [hmulWarns, bitlenOk, keyOk, and_assoc]),
      flag_ite_none_eq_false Warns.wPt rfl _ rfl⟩
  · exact ⟨(flag_ite_none_iff Warns.wPt rfl _ _).trans (by simp [encryptWarns, bitlenOk, keyOk, and_assoc]),
      flag_ite_none_eq_false Warns.wCt rfl _ rfl, flag_ite_none_eq_false Warns.wK rfl _ rfl⟩
  · rcases hi with rfl | ⟨_, _, _, _, _, _, _, rfl⟩ | ⟨_, _, rfl⟩ | ⟨_, _, rfl⟩ <;> exact ⟨rfl, rfl, rfl⟩

end Sys2Proof.Machine
end

section
/-! The statements of the family 45_homomorphic.md: the checks HADD and HMUL share, their two results with the warnings,
and two runs whose key banks share only N. -/

namespace Sys2Proof.Machine

/-! ### The completion HADD and HMUL share (R171, R173) -/

/-- The three checks of R171 and R173, and past them the result `v`, with the warnings `w`. -/
def State.completeHomomorphic (s : State) (S : Snapshot) (rd : XReg) (v : Nat) (w : Warns) : State :=
  if ¬ BitlenOk s.cfg S.b then s.errorCompletion .bitlen Warns.none
  else if ¬ KeyOk S.k.n S.b then s.errorCompletion .key Warns.none
  else if strictRejects S w then s.errorCompletion .range w
  else s.completeX rd v w

section
variable {s : State} {S : Snapshot} (hS : s.eng = .busy S)
include hS

theorem exec_hadd_eq (rd c1 c2 : XReg) :
    exec (.hadd rd c1 c2) s = .next
      (s.completeHomomorphic S rd (S.x[c1] * S.x[c2] % (S.k.n * S.k.n)) (haddWarns S.x[c1] S.x[c2] S.k.n)) :=
  inFlight_busy hS _

/-- HMUL with R16's power for the modular exponentiation: the constant in full. -/
theorem exec_hmul_eq (rd c1 k : XReg) :
    exec (.hmul rd c1 k) s = .next
      (s.completeHomomorphic S rd (S.x[c1] ^ S.x[k] % (S.k.n * S.k.n)) (hmulWarns S.x[c1] S.x[k] S.k.n)) := by
  rw [← powmod_eq_pow_mod]
  exact inFlight_busy hS _

end

theorem strictRejects_iff (S : Snapshot) (w : Warns) : strictRejects S w = true ↔ S.strict = true ∧ w.any = true :=
  Bool.and_eq_true_iff

theorem haddWarns_any_iff (c1 c2 n : Nat) : (haddWarns c1 c2 n).any = true ↔ c1 ≥ n * n ∨ c2 ≥ n * n := by
  simp [haddWarns, Warns.any]

theorem hmulWarns_any_iff (c1 k n : Nat) : (hmulWarns c1 k n).any = true ↔ c1 ≥ n * n ∨ k ≥ n := by
  simp [hmulWarns, Warns.any]

/-- The shared completion check by check, `P` being what the command's warnings stand for. -/
theorem completeHomomorphic_eq (s : State) (S : Snapshot) (rd : XReg) (v : Nat) (w : Warns) {P : Prop} [Decidable P]
    (hP : w.any = true ↔ P) :
    s.completeHomomorphic S rd v w =
      if S.b < 2 ∨ s.cfg.nmax < S.b then Expected.ended s .bitlen false false false
      else if S.k.n = 0 ∨ S.k.n ≥ 2 ^ S.b then Expected.ended s .key false false false
      else if S.strict = true ∧ P then Expected.ended s .range w.wPt w.wCt w.wK
      else Expected.wrote s rd v w.wPt w.wCt w.wK :=
  have hstrict : strictRejects S w = true ↔ S.strict = true ∧ P := (strictRejects_iff S w).trans (and_congr_right' hP)
  ite_congr (propext not_bitlenOk_iff) (fun _ => rfl) fun _ => ite_congr (propext not_keyOk_iff) (fun _ => rfl)
    fun _ => ite_congr (propext hstrict) (fun _ => rfl) fun _ => rfl

/-- Settles O40: the word by its row of the table, the completion by the shared checks. -/
theorem haddMultipliesCiphertexts : Obligations.HaddMultipliesCiphertexts := by
  refine ⟨fun w => (matches_iff_decode w .hadd).mp, ?_⟩
  intro s S rd s1 s2 hS b n w
  rw [exec_hadd_eq hS, completeHomomorphic_eq s S rd _ _ (haddWarns_any_iff ..)]
  rfl

/-- Settles O41: the word by its row of the table, the completion by the shared checks. -/
theorem hmulRaisesTheCiphertext : Obligations.HmulRaisesTheCiphertext := by
  refine ⟨fun w => (matches_iff_decode w .hmul).mp, ?_⟩
  intro s S rd s1 s2 hS b n wCt wK
  rw [exec_hmul_eq hS, completeHomomorphic_eq s S rd _ _ (hmulWarns_any_iff ..)]
  rfl

/-! ### What the shared completion reads (R170) -/

/-- Of the snapshot the shared completion reads BITLEN, N and STRICT alone. -/
theorem sameOutcome_completeHomomorphic {i : Instr} {s s' : State} {S S' : Snapshot} {rd : XReg}
    (hd : destX i = some rd) (hbitlen : S'.bitlen = S.bitlen) (hstrict : S'.strict = S.strict) (hn : S'.k.n = S.k.n)
    (hcfg : s'.cfg = s.cfg) (v : Nat) (w : Warns) :
    SameOutcome i (s.completeHomomorphic S rd v w) (s'.completeHomomorphic S' rd v w) :=
  have hrejects : strictRejects S w = true ↔ strictRejects S' w = true := by
    rw [strictRejects_iff, strictRejects_iff, hstrict]
  .check (by rw [hcfg, Snapshot.b, Snapshot.b, hbitlen]) <| .check (by rw [hn, Snapshot.b, Snapshot.b, hbitlen]) <|
    .check hrejects (.completeX s s' hd v w)

/-- Settles O42: on equal X and N the two runs compute the same result and warnings, and the shared completion reads no
other key register; neither command is ENCRYPT, which alone draws. -/
theorem homomorphicOperatorsReadNoSecret : Obligations.HomomorphicOperatorsReadNoSecret := by
  intro s s' S S' i hi hS hS' hx hbitlen hstrict hn hcfg
  obtain ⟨rd, v, w, hd, ht, ht'⟩ : ∃ rd v w, destX i = some rd ∧
      exec i s = .next (s.completeHomomorphic S rd v w) ∧ exec i s' = .next (s'.completeHomomorphic S' rd v w) := by
    rcases hi with ⟨rd, a, c, rfl⟩ | ⟨rd, a, c, rfl⟩
    · exact ⟨rd, _, _, rfl, exec_hadd_eq hS rd a c, by rw [exec_hadd_eq hS', hx, hn]⟩
    · exact ⟨rd, _, _, rfl, exec_hmul_eq hS rd a c, by rw [exec_hmul_eq hS', hx, hn]⟩
  have hsame := sameOutcome_completeHomomorphic hd hbitlen hstrict hn hcfg v w
  obtain ⟨hentropy, hfree⟩ := exec_entropy ht (by rcases hi with ⟨_, _, _, rfl⟩ | ⟨_, _, _, rfl⟩ <;> exact nofun)
  exact ⟨_, _, ht, ht', hsame.errcode, hsame.wPt, hsame.wCt, hsame.wK, hentropy, hfree, hsame.result⟩

end Sys2Proof.Machine
end

section
/-! The statements of the family 60_exceptions.md: the engine's turn with no command to complete, what every error
completion leaves unchanged, and the strict policy's RANGE for each command. -/

namespace Sys2Proof.Machine

/-! ### The engine's turn with nothing to complete (R196, R200) -/

theorem engineStep_of_stopped {s : State} (h : s.eng = .idle ∨ s.inReset = true) : engineStep s = .next s := by
  unfold engineStep
  split
  · rfl
  next hr =>
    have hE : s.eng = .idle := h.resolve_right hr
    simp only [hE]

/-- Settles O7: the turn is the engine's, and its step does nothing. -/
theorem idleEngineChangesNothing : Obligations.IdleEngineChangesNothing := fun s hwf hturn hstopped =>
  (step_of_engineTurn hwf hturn).trans (engineStep_of_stopped (s := s.popTurn) hstopped)

/-! ### Error completions (R117, R185) -/

/-- An error completion: a completion that writes no X or K register, with the warnings its code admits (R182, R184). -/
structure ErrorCompleted (s t : State) : Prop extends Completed s t where
  x : t.x = s.x
  k : t.k = s.k
  warnings : t.WarningsExplained
  blind : t.errcode = .zeroBlind → t.status.wCt = false ∧ t.status.wK = false

/-- A command's completion with an error code; ENCRYPT's draw, where taken, is no register. -/
theorem Completes.errorCompleted {i : Instr} {s t : State} (h : Completes i s t) (herr : t.errcode ≠ .ok) :
    ErrorCompleted s t where
  toCompleted := h.completed
  x := by
    cases h with
    | error s0 e w hs => rcases hs with rfl | rfl <;> rfl
    | none | result | keys => exact absurd rfl herr
  k := by
    by_contra hk
    exact herr (h.k_changed hk).2
  warnings := h.warningsExplained
  blind := by
    cases h with
    | error s0 e w _ _ _ _ hblind => exact hblind
    | none | result | keys => exact nofun

/-- No command ends with ILLEGAL_CMD (R105). -/
theorem Completes.errcode_ne_illegalCmd {i : Instr} {s t : State} (h : Completes i s t) : t.errcode ≠ .illegalCmd := by
  cases h with
  | error s0 e w _ _ hill => exact hill
  | none | result | keys => exact nofun

theorem finish_illegalCmd_errorCompleted (s : State) : ErrorCompleted s (s.finish .illegalCmd Warns.none) where
  toCompleted := finish_completed s _ _
  x := rfl
  k := rfl
  warnings := finish_warningsExplained s nofun fun _ _ => rfl
  blind := nofun

/-- The engine's turn that ends with an error code is an error completion, of an illegal word exactly under ILLEGAL_CMD
(R105, R185). -/
theorem engineStep_errorCompleted {s t : State} {S : Snapshot} (hr : s.inReset = false) (hS : s.eng = .busy S)
    (h : engineStep s = .next t) (herr : t.errcode ≠ .ok) :
    ErrorCompleted s t ∧ (t.errcode = .illegalCmd ↔ ∃ r, decode S.cmd = .error r) := by
  cases hd : decode S.cmd with
  | ok i =>
    have hc : Completes i s t := exec_completes ((engineStep_legal hr hS hd).symm.trans h)
    exact ⟨hc.errorCompleted herr, iff_of_false hc.errcode_ne_illegalCmd nofun⟩
  | error r =>
    obtain rfl := Host.Outcome.next.inj ((engineStep_illegal hr hS hd).symm.trans h)
    exact ⟨finish_illegalCmd_errorCompleted s, iff_of_true rfl ⟨r, rfl⟩⟩

theorem engineStep_of_step {s t : State} (hturn : s.nextTurn = .engine) (h : step s = .next t) :
    engineStep s.popTurn = .next t := by
  obtain ⟨hwf, -⟩ := step_next_cases h
  exact (step_of_engineTurn hwf hturn).symm.trans h

/-- ERRCODE reads 0 for OK alone (R180). -/
theorem errcodeWord_eq_zero_iff (e : ErrCode) : errcodeWord e = 0#32 ↔ e = .ok := by
  cases e <;> decide

/-- Settles O22: the engine's turn is an error completion, after which `irq` is CTRL.IE and the engine is IDLE, so the
next write of CMD is the issue. -/
theorem errorCompletionWritesNoRegister : Obligations.ErrorCompletionWritesNoRegister := by
  intro s t S hturn hr hS hstep herr
  obtain ⟨hc, hillegal⟩ := engineStep_errorCompleted (s := s.popTurn) hr hS (engineStep_of_step hturn hstep) herr
  obtain ⟨hrange, hearly⟩ := hc.warnings
  have hirq : t.irq = s.ctrl.ie := by rw [State.irq, hc.ctrl, hc.done, Bool.and_true, popTurn_ctrl]
  have hbusy : (readTarget t .status).getLsbD 0 = false := by
    rw [readTarget, statusWord_getLsbD_busy, hc.idle, isBusy_idle]
  have hcode : readTarget t .errcode ≠ 0#32 := mt (errcodeWord_eq_zero_iff t.errcode).mp herr
  exact ⟨hc.x, hc.k, hc.bitlen, hc.ctrl, hc.ovr, hc.lastcmd, hc.idle, hc.done, hirq, hbusy, hcode, hillegal,
    fun he => by simpa only [Bool.or_eq_true, or_assoc] using hrange he, hc.blind, hearly herr,
    memWrite_cmd_idle hc.idle⟩

/-! ### The strict policy's rejection (R182) -/

section
variable {s : State} {S : Snapshot} (hb : BitlenOk s.cfg S.b) (hk : KeyOk S.k.n S.b)
include hb hk

/-- What HADD and HMUL share ends in RANGE, their two checks passed (R171, R173). -/
theorem completeHomomorphic_rejected {w : Warns} (hw : strictRejects S w = true) (rd : XReg) (v : Nat) :
    s.completeHomomorphic S rd v w = s.errorCompletion .range w := by
  rw [State.completeHomomorphic, if_neg (not_not.mpr hb), if_neg (not_not.mpr hk), if_pos hw]

variable (hS : s.eng = .busy S)
include hS

/-- ENCRYPT is rejected before its draw, so the entropy source is as it was (R152). -/
theorem exec_encrypt_rejected {m : XReg} (hw : strictRejects S (encryptWarns S.x[m] S.k.n) = true) (rd : XReg) :
    exec (.encrypt rd m) s = .next (s.errorCompletion .range (encryptWarns S.x[m] S.k.n)) := by
  rw [exec_encrypt_eq hS, if_neg (not_not.mpr hb), if_neg (not_not.mpr hk), if_pos hw]

theorem exec_decrypt_rejected {c : XReg} (hp : S.k.p2 ≠ 0) (hq : S.k.q2 ≠ 0)
    (hw : strictRejects S (decryptWarns S.x[c] S.k.n) = true) (rd : XReg) :
    exec (.decrypt rd c) s = .next (s.errorCompletion .range (decryptWarns S.x[c] S.k.n)) := by
  rw [exec_decrypt_eq hS, if_neg (not_not.mpr hb), if_neg (not_not.mpr hk), if_neg (not_or.mpr ⟨hp, hq⟩), if_pos hw]

end

theorem encryptWarns_of_le {m n : Nat} (h : n ≤ m) : encryptWarns m n = ⟨true, false, false⟩ := by
  rw [encryptWarns, decide_eq_true h]

theorem decryptWarns_of_le {c n : Nat} (h : n * n ≤ c) : decryptWarns c n = ⟨false, true, false⟩ := by
  rw [decryptWarns, decide_eq_true h]

theorem haddWarns_of_le {a c n : Nat} (h : n * n ≤ a ∨ n * n ≤ c) : haddWarns a c n = ⟨false, true, false⟩ := by
  rw [haddWarns, decide_eq_true h]

/-- Settles O38: under STRICT each warning condition is a rejection, and the flags are the command's warnings. -/
theorem strictPolicyRejectsWithRange : Obligations.StrictPolicyRejectsWithRange := by
  refine ⟨rfl, ?_⟩
  intro s S hS hstrict hb hnmax hn hkey n
  have hbitlen : BitlenOk s.cfg S.b := ⟨hb, hnmax⟩
  have hkeyOk : KeyOk S.k.n S.b := ⟨hn, hkey⟩
  refine ⟨fun rd m hm => ?_, fun rd c hp hq hc => ?_, fun rd a c hac => ?_, fun rd a k hak => ?_⟩
  · rw [exec_encrypt_rejected hbitlen hkeyOk hS ((strictRejects_encryptWarns_iff ..).mpr ⟨hstrict, hm⟩),
      encryptWarns_of_le hm]
    rfl
  · rw [exec_decrypt_rejected hbitlen hkeyOk hS hp hq ((strictRejects_decryptWarns_iff ..).mpr ⟨hstrict, hc⟩),
      decryptWarns_of_le hc]
    rfl
  · rw [exec_hadd_eq hS, completeHomomorphic_rejected hbitlen hkeyOk
      ((strictRejects_iff ..).mpr ⟨hstrict, (haddWarns_any_iff ..).mpr hac⟩), haddWarns_of_le hac]
    rfl
  · rw [exec_hmul_eq hS, completeHomomorphic_rejected hbitlen hkeyOk
      ((strictRejects_iff ..).mpr ⟨hstrict, (hmulWarns_any_iff ..).mpr hak⟩)]
    rfl

end Sys2Proof.Machine
end

section
/-! The statements of the family 70_reset_and_hazards.md: the reset pulse over a command in flight, and the host's
accesses while reset is asserted. -/

namespace Sys2Proof.Machine

/-! ### The reset pulse (R200, R201) -/

theorem nextTurn_cons {s : State} {turn : Turn} {rest : List Turn} (h : s.turns = turn :: rest) :
    s.nextTurn = turn := by
  simp only [State.nextTurn, h]

theorem step_of_assertReset {s : State} (hwf : s.cfg.wf = true) (hturn : s.nextTurn = .assertReset) :
    step s = .next s.popTurn.assertReset := by
  simp only [step, hwf, hturn, if_true]

theorem step_of_releaseReset {s : State} (hwf : s.cfg.wf = true) (hturn : s.nextTurn = .releaseReset) :
    step s = .next s.popTurn.releaseReset := by
  simp only [step, hwf, hturn, if_true]

/-- The engine's turn under an asserted reset is used and does nothing (R201; log 15). -/
theorem step_of_engineTurn_inReset {s : State} (hwf : s.cfg.wf = true) (hturn : s.nextTurn = .engine)
    (hr : s.inReset = true) : step s = .next s.popTurn :=
  (step_of_engineTurn hwf hturn).trans (engineStep_of_stopped (s := s.popTurn) (.inr hr))

/-- Of the engine the release of an asserted reset keeps nothing; the parameters and the agents around it stay (R200). -/
theorem releaseReset_eq {s : State} (hr : s.inReset = true) :
    s.releaseReset =
      { State.reset with
        cfg := s.cfg, host := s.host, turns := s.turns, responses := s.responses, entropy := s.entropy,
        freeIndex := s.freeIndex } :=
  if_pos hr

/-- Settles O2: the first edge stops the engine, so its turn does nothing, and the second writes the reset values. -/
theorem resetAbandonsTheCommandInFlight : Obligations.ResetAbandonsTheCommandInFlight := by
  intro s rest hwf hturns
  have hafter1 : s.popTurn.turns = .engine :: .releaseReset :: rest := congrArg List.tail hturns
  have hafter2 : s.popTurn.popTurn.turns = .releaseReset :: rest := congrArg List.tail hafter1
  have hafter3 : s.popTurn.popTurn.popTurn.turns = rest := congrArg List.tail hafter2
  have hassert : step s = .next s.popTurn.assertReset := step_of_assertReset hwf (nextTurn_cons hturns)
  have hengine : step s.popTurn.assertReset = .next s.popTurn.popTurn.assertReset :=
    step_of_engineTurn_inReset hwf (nextTurn_cons hafter1) rfl
  have hrelease : step s.popTurn.popTurn.assertReset = .next s.popTurn.popTurn.popTurn.assertReset.releaseReset :=
    step_of_releaseReset hwf (nextTurn_cons hafter2)
  refine ⟨s.popTurn.popTurn.popTurn.assertReset.releaseReset, ?_, resetTable_releaseReset rfl, ?_⟩
  · rw [run_succ hassert, run_succ hengine, run_succ hrelease]
    rfl
  · rw [← hafter3]
    exact releaseReset_eq rfl

/-! ### The host's accesses under an asserted reset (R200, U8, U9) -/

/-- What the platform answers to an access under an asserted reset: it is held off, or gets a bus error, which faults
the host or is ignored (logs 4, 5). -/
def State.answerInReset (s : State) (rest : List HostOp) (r : Response) : Host.Outcome State Fault Refusal :=
  if s.cfg.resetAccessBusError then (s.hostRest rest).busError r else .next s

theorem hostRead_inReset {s : State} (hr : s.inReset = true) {off : Nat} (hoff : off < 0x40000) (size : Nat)
    (rest : List HostOp) : hostRead s (s.cfg.base + off) size rest = s.answerInReset rest (.read 0#32 true) := by
  rw [hostRead, hostReadThen, admission_inReset hr hoff, State.answerInReset]
  cases s.cfg.resetAccessBusError <;> rfl

theorem hostWrite_inReset {s : State} (hr : s.inReset = true) {off : Nat} (hoff : off < 0x40000) (size : Nat)
    (v : Word) (rest : List HostOp) :
    hostWrite s (s.cfg.base + off) size v rest = s.answerInReset rest (.write true) := by
  rw [hostWrite, admission_inReset hr hoff, State.answerInReset]
  cases s.cfg.resetAccessBusError <;> rfl

/-- Settles O3: the admission under reset is the platform's alone, whatever the access. -/
theorem noAccessWhileResetIsAsserted : Obligations.NoAccessWhileResetIsAsserted := by
  intro s addr size v rest hwf hr hturn hbase htop answer
  obtain ⟨off, rfl⟩ := Nat.exists_eq_add_of_le hbase
  have hoff : off < 0x40000 := Nat.lt_of_add_lt_add_left htop
  refine ⟨fun hread => ?_, fun hwrite => ?_⟩
  · rw [step_of_host hwf hturn, hostStep, popTurn_host, hread]
    exact hostRead_inReset (s := s.popTurn) hr hoff size rest
  · rw [step_of_host hwf hturn, hostStep, popTurn_host, hwrite]
    exact hostWrite_inReset (s := s.popTurn) hr hoff size v rest

end Sys2Proof.Machine
end

section
/-! The spec's own derivations about the commands: CRTEXP as the direct power, LFUNC as the exact quotient, and ENCRYPT of
a plaintext beyond N. -/

namespace Sys2Proof.Machine

/-! ### CRTEXP as the direct power (R21, R128) -/

theorem mul_modEq_one_of_inv {a x m : Nat} (hm : 0 < m) (h : inv a m = some (x % m) ∨ m = 1) : a * x ≡ 1 [MOD m] := by
  by_cases hone : m = 1
  · exact hone ▸ Nat.modEq_one
  · have htwo : 2 ≤ m := by omega
    obtain ⟨-, hx⟩ := inv_some a htwo (h.resolve_right hone)
    calc a * x ≡ a * (x % m) [MOD m] := (Nat.mod_modEq x m).symm.mul_left a
      _ ≡ 1 [MOD m] := hx.trans (Nat.mod_eq_of_lt htwo).symm

/-- Settles O27: both checks pass, and with the inverse as its coefficient Garner's recombination is the direct power. -/
theorem crtexpIsDirectExponentiation : Obligations.CrtexpIsDirectExponentiation := by
  intro s S rd s1 s2 s3 s4 s5 s6 hS hp hq hcoprime hfit hinverse hexp
  rw [exec_crtexp_ok hS rd s1 s2 s3 s4 (Nat.one_le_iff_ne_zero.mp hp) (Nat.one_le_iff_ne_zero.mp hq) hfit, ← hexp,
    crtExp_eq_pow_mod _ _ _ hp hq hcoprime (mul_modEq_one_of_inv hq hinverse)]
  rfl

/-! ### LFUNC as the exact quotient (R161) -/

/-- L of a u with n dividing u - 1 is the quotient, when `nInv` inverts n modulo `2^b` and the quotient is below `2^b`. -/
theorem lFunction_eq_div {u n nInv b : Nat} (hu : 1 ≤ u) (hdvd : n ∣ u - 1) (hn : n * nInv ≡ 1 [MOD 2 ^ b])
    (hquot : (u - 1) / n < 2 ^ b) : lFunction u nInv b = (u - 1) / n := by
  have hsplit : u = 1 + (u - 1) / n * n := by rw [Nat.div_mul_cancel hdvd]; omega
  calc lFunction u nInv b = lFunction (1 + (u - 1) / n * n) nInv b := by rw [← hsplit]
    _ = (u - 1) / n := lFunction_one_add_mul hn hquot

/-- Settles O29: BITLEN is LFUNC's only check; u < N² bounds the quotient by N. -/
theorem lfuncIsTheExactQuotient : Obligations.LfuncIsTheExactQuotient := by
  intro s S rd u hS hb hnmax
  rw [exec_lfunc_ok hS ⟨hb, hnmax⟩]
  refine ⟨fun hodd hinv hu hdvd hbound => ?_, fun _ => ?_⟩
  · have hquot : (S.x[u] - 1) / S.k.n < 2 ^ S.b := hbound.elim id fun ⟨husq, hn⟩ =>
      (Nat.div_lt_of_lt_mul ((Nat.sub_le _ _).trans_lt husq)).trans hn
    have hpow : 2 ≤ 2 ^ S.b := Nat.le_self_pow (two_pos.trans_le hb).ne' 2
    obtain ⟨-, hnInv⟩ := inv_some _ hpow hinv
    rw [lFunction_eq_div hu hdvd (hnInv.trans (Nat.mod_eq_of_lt hpow).symm) hquot]
    rfl
  · rw [lFunction_eq_toNat]
    rfl

/-! ### A plaintext beyond N (R156) -/

/-- Modulo n² the message term depends on m modulo n alone. -/
theorem one_add_mul_modEq_sq (m n : Nat) : 1 + m * n ≡ 1 + m % n * n [MOD n * n] :=
  ((Nat.mod_modEq m n).symm.mul_right' n).add_left 1

theorem one_add_mul_mod_sq (m : Nat) {n : Nat} (hn : 2 ≤ n) : (1 + m * n) % (n * n) = 1 + m % n * n := by
  have hlt : m % n < n := Nat.mod_lt m (by omega)
  have hbelow : 1 + m % n * n < n * n := by
    calc 1 + m % n * n < (m % n + 1) * n := by rw [Nat.add_one_mul]; omega
      _ ≤ n * n := Nat.mul_le_mul_right n hlt
  exact Eq.trans (one_add_mul_modEq_sq m n) (Nat.mod_eq_of_lt hbelow)

/-- ENCRYPT's ciphertext is that of the plaintext modulo n, for every modulus. -/
theorem cipher_mod (r m n : Nat) : cipher r (m % n) n = cipher r m n :=
  (one_add_mul_modEq_sq m n).symm.mul_left _

/-- The code a lax ENCRYPT ends with depends on BITLEN, N and the draw, not on the plaintext (R155). -/
theorem encrypt_lax_errcode {s t : State} {S : Snapshot} {rd m : XReg} (hS : s.eng = .busy S) (hlax : S.strict = false)
    (h : exec (.encrypt rd m) s = .next t) :
    t.errcode =
      if ¬ BitlenOk s.cfg S.b then .bitlen
      else if ¬ KeyOk S.k.n S.b then .key
      else if s.draw S.b % S.k.n = 0 then .zeroBlind
      else .ok := by
  have hadmits : ¬ strictRejects S (encryptWarns S.x[m] S.k.n) = true := by
    rw [strictRejects_iff, hlax]
    exact fun ⟨hstrict, _⟩ => nomatch hstrict
  rw [exec_encrypt_eq hS, if_neg hadmits] at h
  obtain rfl := Host.Outcome.next.inj h
  simp only [apply_ite State.errcode]
  rfl

/-- Where `t` is a success, X[rd] holds `v`. -/
def State.WroteIfOk (t : State) (rd : XReg) (v : Nat) : Prop := t.errcode = .ok → t.x[rd] = v

theorem completeX_wroteIfOk (s : State) (rd : XReg) (v : Nat) (w : Warns) : (s.completeX rd v w).WroteIfOk rd v :=
  fun _ => Vector.getElem_set_self rd.isLt

/-- A failed check is no success. -/
theorem wroteIfOk_check {c : Prop} [Decidable c] {u t : State} {rd : XReg} {v : Nat} (hu : u.errcode ≠ .ok)
    (ht : t.WroteIfOk rd v) : (if c then u else t).WroteIfOk rd v := by
  split
  · exact fun hok => absurd hok hu
  · exact ht

/-- An ENCRYPT that ends OK wrote the ciphertext of its plaintext with its draw (R155). -/
theorem encrypt_wroteIfOk {s t : State} {S : Snapshot} {rd m : XReg} (hS : s.eng = .busy S)
    (h : exec (.encrypt rd m) s = .next t) : t.WroteIfOk rd (cipher (s.draw S.b % S.k.n) S.x[m] S.k.n) := by
  obtain rfl := Host.Outcome.next.inj ((exec_encrypt_eq hS rd m).symm.trans h)
  exact wroteIfOk_check nofun <| wroteIfOk_check nofun <| wroteIfOk_check nofun <| wroteIfOk_check nofun <|
    completeX_wroteIfOk _ _ _ _

/-- Settles O35: the two runs make the same checks on the same draw, and their ciphertexts agree by `cipher_mod`. -/
theorem outOfRangePlaintextWraps : Obligations.OutOfRangePlaintextWraps := by
  refine ⟨fun m n => one_add_mul_mod_sq m, ?_⟩
  intro s s' t t' S S' rd rd' s1 s1' hcfg hS hS' hbitlen hk hlax hlax' hdraw _ hm h h'
  have hb : S.b = S'.b := congrArg BitVec.toNat hbitlen
  have hdraws : s.draw S.b = s'.draw S'.b := hdraw.trans (congrArg s'.draw hb)
  have hcode : t.errcode = t'.errcode := by
    rw [encrypt_lax_errcode hS hlax h, encrypt_lax_errcode hS' hlax' h', hcfg, hdraws, hb, hk]
  refine ⟨hcode, fun hok => ?_⟩
  rw [encrypt_wroteIfOk hS h hok, encrypt_wroteIfOk hS' h' (hcode ▸ hok), hm, hdraws, hk, cipher_mod]

end Sys2Proof.Machine
end

section
/-! The spec's own derivations about ciphertexts: what the homomorphic operators make of them, and the round trip,
addition and scalar laws under a derived key. -/

namespace Sys2Proof.Machine

/-! ### Ciphertexts modulo N² (R150, R151) -/

/-- Modulo n², `c` is the ciphertext of `m` with blinding factor `r` (R150); `m` and `r` need not be reduced. -/
def IsCiphertext (n r m c : Nat) : Prop := c ≡ r ^ n * (1 + m * n) [MOD n * n]

theorem cipher_isCiphertext (n r m : Nat) : IsCiphertext n r m (cipher r m n) := by
  rw [IsCiphertext, cipher_eq_pow_mod]
  exact (Nat.mod_modEq _ _).trans ((Nat.mod_modEq _ _).mul_right _)

theorem one_add_mul_mul_modEq_sq (a b n : Nat) : (1 + a * n) * (1 + b * n) ≡ 1 + (a + b) * n [MOD n * n] := by
  have hexpand : (1 + a * n) * (1 + b * n) = 1 + (a + b) * n + n * n * (a * b) := by ring
  rw [hexpand]
  exact Nat.add_mul_mod_self_left _ _ _

theorem one_add_mul_pow_modEq_sq (m n k : Nat) : (1 + m * n) ^ k ≡ 1 + k * m * n [MOD n * n] := by
  rw [mul_assoc k]
  exact (one_add_pow_modEq_sq (m * n) k).of_dvd (mul_dvd_mul (dvd_mul_left n m) (dvd_mul_left n m))

/-- The n-th power modulo n² depends on the base modulo n alone. -/
theorem pow_mod_modEq_sq (r n : Nat) : (r % n) ^ n ≡ r ^ n [MOD n * n] := by
  have hdvd : (n : Int) ∣ r - (r % n : Nat) := Int.modEq_iff_dvd.mp (Int.natCast_modEq_iff.mpr (Nat.mod_modEq r n))
  refine Int.natCast_modEq_iff.mp (Int.modEq_iff_dvd.mpr ?_)
  simpa [sq] using dvd_sub_pow_of_dvd_sub hdvd 1

namespace IsCiphertext

variable {n r m c : Nat}

theorem mod_sq (h : IsCiphertext n r m c) : IsCiphertext n r m (c % (n * n)) := (Nat.mod_modEq _ _).trans h

/-- The product of two ciphertexts is one of the sum (R172). -/
theorem mul {r' m' c' : Nat} (h : IsCiphertext n r m c) (h' : IsCiphertext n r' m' c') :
    IsCiphertext n (r * r') (m + m') (c * c') :=
  calc c * c' ≡ r ^ n * (1 + m * n) * (r' ^ n * (1 + m' * n)) [MOD n * n] := Nat.ModEq.mul h h'
    _ = (r * r') ^ n * ((1 + m * n) * (1 + m' * n)) := by rw [mul_pow, mul_mul_mul_comm]
    _ ≡ (r * r') ^ n * (1 + (m + m') * n) [MOD n * n] := (one_add_mul_mul_modEq_sq m m' n).mul_left _

/-- A power of a ciphertext is one of the multiple (R175). -/
theorem pow (h : IsCiphertext n r m c) (k : Nat) : IsCiphertext n (r ^ k) (k * m) (c ^ k) :=
  calc c ^ k ≡ (r ^ n * (1 + m * n)) ^ k [MOD n * n] := Nat.ModEq.pow k h
    _ = (r ^ k) ^ n * (1 + m * n) ^ k := by rw [mul_pow, pow_right_comm]
    _ ≡ (r ^ k) ^ n * (1 + k * m * n) [MOD n * n] := (one_add_mul_pow_modEq_sq m n k).mul_left _

/-- Reduced modulo n², it is the ciphertext ENCRYPT writes for the reduced plaintext and blinding factor. -/
theorem mod_sq_eq_cipher (h : IsCiphertext n r m c) : c % (n * n) = cipher (r % n) (m % n) n := by
  have hreduced : IsCiphertext n r m (cipher (r % n) m n) :=
    (cipher_isCiphertext n (r % n) m).trans ((pow_mod_modEq_sq r n).mul_right _)
  have hcipher : cipher (r % n) m n % (n * n) = cipher (r % n) m n := Nat.mod_mod _ _
  rw [cipher_mod, ← hcipher]
  exact Nat.ModEq.trans h hreduced.symm

end IsCiphertext

/-! ### The key of a prime pair (R142, R167) -/

theorem totient_mul_self {p : Nat} (hp : p.Prime) : Nat.totient (p * p) = p * (p - 1) := by
  rw [Nat.totient_mul_of_prime_of_dvd hp dvd_rfl, Nat.totient_prime hp]

/-- Euler's theorem modulo p². -/
theorem pow_modEq_one_sq {p r e : Nat} (hp : p.Prime) (hr : Nat.Coprime r p) (he : p * (p - 1) ∣ e) :
    r ^ e ≡ 1 [MOD p * p] := by
  obtain ⟨d, rfl⟩ := he
  have heuler := (Nat.ModEq.pow_totient (hr.mul_right hr)).pow d
  rwa [totient_mul_self hp, ← pow_mul, one_pow] at heuler

/-- A blinding term vanishes under the power lambda: p·(p − 1) and q·(q − 1) divide n·lambda. -/
theorem blinding_pow_lcm_modEq_one {p q r : Nat} (hp : p.Prime) (hq : q.Prime) (hpq : Nat.Coprime p q)
    (hr : Nat.Coprime r (p * q)) : r ^ (p * q * Nat.lcm (p - 1) (q - 1)) ≡ 1 [MOD p * q * (p * q)] := by
  have hsquares : Nat.Coprime (p * p) (q * q) := (hpq.mul_right hpq).mul_left (hpq.mul_right hpq)
  rw [mul_mul_mul_comm, ← Nat.modEq_and_modEq_iff_modEq_mul hsquares]
  constructor
  · exact pow_modEq_one_sq hp hr.coprime_mul_right_right (mul_dvd_mul (dvd_mul_right p q) (Nat.dvd_lcm_left _ _))
  · exact pow_modEq_one_sq hq hr.coprime_mul_left_right (mul_dvd_mul (dvd_mul_left q p) (Nat.dvd_lcm_right _ _))

/-- What decryption needs of a key bank: the identities of R142, and that the power lambda removes the blinding. -/
structure DecryptionKey (kb : KeyBank) (b : Nat) : Prop where
  two_le : 2 ≤ kb.n
  n_lt : kb.n < 2 ^ b
  p2_pos : 0 < kb.p2
  q2_pos : 0 < kb.q2
  squares : kb.p2 * kb.q2 = kb.n * kb.n
  coprime : Nat.Coprime kb.p2 kb.q2
  p2invq2 : kb.p2 * kb.p2invq2 ≡ 1 [MOD kb.q2]
  nInv : kb.n * kb.nInv ≡ 1 [MOD 2 ^ b]
  mu : kb.lambda * kb.mu ≡ 1 [MOD kb.n]
  unblind : ∀ r, Nat.gcd r kb.n = 1 → r ^ (kb.n * kb.lambda) ≡ 1 [MOD kb.n * kb.n]

/-- KEYDERIVE of distinct odd primes writes such a key bank. -/
theorem decryptionKey_of_derived {c : Params} {b : Word} {p q : Nat} {kb : KeyBank} (hprimes : Expected.PrimePair p q)
    (h : Expected.Derived c b p q kb) : DecryptionKey kb b.toNat := by
  obtain ⟨-, hp2, hq2, -, -⟩ := deriveKey_of_derived h
  obtain ⟨hn, hnlt, hnInv, hpInv, -, -, -, hp, hq, hlambda, -, -, hpair⟩ := completedKeyHasItsIdentities c b p q kb h
  obtain ⟨-, -, hmu⟩ := hpair hprimes
  obtain ⟨hpPrime, hqPrime, hne, -, -⟩ := hprimes
  have htwo : 2 ≤ kb.n := hn ▸ hp2.trans (Nat.le_mul_of_pos_right p (by omega))
  have hqtwo : 2 ≤ kb.q2 := hq ▸ hq2.trans (Nat.le_mul_of_pos_right q (by omega))
  exact {
    two_le := htwo
    n_lt := hnlt
    p2_pos := hp ▸ Nat.mul_pos (by omega) (by omega)
    q2_pos := by omega
    squares := by rw [hp, hq, hn, mul_mul_mul_comm]
    coprime := coprime_of_mul_mod_eq_one hqtwo hpInv
    p2invq2 := hpInv.trans (Nat.mod_eq_of_lt hqtwo).symm
    nInv := hnInv.trans (Nat.mod_eq_of_lt (one_lt_two.trans (htwo.trans_lt hnlt))).symm
    mu := hmu.trans (Nat.mod_eq_of_lt htwo).symm
    unblind := fun r hr => by
      rw [hn, hlambda]
      exact blinding_pow_lcm_modEq_one hpPrime hqPrime ((Nat.coprime_primes hpPrime hqPrime).mpr hne) (hn ▸ hr) }

/-! ### Decryption (R165, R167) -/

section
variable {kb : KeyBank} {b r m ct : Nat} (hkey : DecryptionKey kb b) (hr : Nat.gcd r kb.n = 1)
  (hct : IsCiphertext kb.n r m ct)
include hkey hr hct

/-- The power lambda of a ciphertext is `1 + (lambda·m mod n)·n`. -/
theorem crtExp_lambda_of_isCiphertext :
    crtExp ct kb.lambda kb.lambda kb.p2invq2 kb.p2 kb.q2 = 1 + kb.lambda * m % kb.n * kb.n := by
  have hpow : ct ^ kb.lambda ≡ 1 + kb.lambda * m * kb.n [MOD kb.n * kb.n] :=
    calc ct ^ kb.lambda ≡ (r ^ kb.lambda) ^ kb.n * (1 + kb.lambda * m * kb.n) [MOD kb.n * kb.n] := hct.pow kb.lambda
      _ = r ^ (kb.n * kb.lambda) * (1 + kb.lambda * m * kb.n) := by rw [← pow_mul, mul_comm kb.lambda]
      _ ≡ 1 * (1 + kb.lambda * m * kb.n) [MOD kb.n * kb.n] := (hkey.unblind r hr).mul_right _
      _ = 1 + kb.lambda * m * kb.n := one_mul _
  rw [crtExp_eq_pow_mod _ _ _ hkey.p2_pos hkey.q2_pos hkey.coprime hkey.p2invq2, hkey.squares,
    ← one_add_mul_mod_sq _ hkey.two_le]
  exact hpow

theorem plain_of_isCiphertext : plain ct kb b = m % kb.n := by
  have hbelow : kb.lambda * m % kb.n < 2 ^ b := (Nat.mod_lt _ (two_pos.trans_le hkey.two_le)).trans hkey.n_lt
  rw [plain, crtExp_lambda_of_isCiphertext hkey hr hct, lFunction_one_add_mul hkey.nInv hbelow]
  calc kb.lambda * m % kb.n * kb.mu ≡ kb.lambda * m * kb.mu [MOD kb.n] := (Nat.mod_modEq _ _).mul_right _
    _ = kb.lambda * kb.mu * m := Nat.mul_right_comm _ _ _
    _ ≡ 1 * m [MOD kb.n] := hkey.mu.mul_right m
    _ = m := one_mul m

end

/-- Under a key of a prime pair every DECRYPT of a ciphertext below N² ends OK with the plaintext modulo N, without a
warning. -/
theorem decryptsTo_of_isCiphertext {c : Params} {b : Word} {kb : KeyBank} {r m ct : Nat} (hb : BitlenOk c b.toNat)
    (hkey : DecryptionKey kb b.toNat) (hr : Nat.gcd r kb.n = 1) (hct : IsCiphertext kb.n r m ct)
    (hlt : ct < kb.n * kb.n) : Expected.DecryptsTo c b kb ct (m % kb.n) := by
  rintro s S rd rc rfl hS rfl rfl rfl
  have hn : KeyOk S.k.n S.b := ⟨one_le_two.trans hkey.two_le, hkey.n_lt⟩
  rw [exec_decrypt_ok hS hb hn hkey.p2_pos.ne' hkey.q2_pos.ne' (strictRejects_eq_false fun _ => decryptWarns_eq_none hlt),
    decryptWarns_eq_none hlt, plain_of_isCiphertext hkey hr hct]
  rfl

/-! ### The three laws (R167, R172, R175) -/

theorem eq_cipher_of_encrypted {c : Params} {b : Word} {kb : KeyBank} {m r ct : Nat}
    (h : Expected.Encrypted c b kb m r ct) : ct = cipher r m kb.n := by
  obtain ⟨s, t, S, rd, rm, rfl, hS, rfl, rfl, rfl, rfl, hx, hok, rfl⟩ := h
  exact encrypt_wroteIfOk hS hx hok

/-- Settles O43: what ENCRYPT writes is a ciphertext below N². -/
theorem decryptionInvertsEncryption : Obligations.DecryptionInvertsEncryption := by
  intro c b p q kb m r ct hprimes hderived hencrypted hr
  obtain ⟨hb, -⟩ := deriveKey_of_derived hderived
  have hkey := decryptionKey_of_derived hprimes hderived
  obtain rfl := eq_cipher_of_encrypted hencrypted
  have hdecrypts : Expected.DecryptsTo c b kb (cipher r m kb.n) (m % kb.n) :=
    decryptsTo_of_isCiphertext hb hkey hr (cipher_isCiphertext kb.n r m) (cipher_lt r m (one_le_two.trans hkey.two_le))
  exact ⟨hdecrypts, fun hm => by rwa [Nat.mod_eq_of_lt hm] at hdecrypts⟩

/-- Settles O44: HADD writes the product of the ciphertexts modulo N², a ciphertext of the sum. -/
theorem addedCiphertextsDecryptToTheSum : Obligations.AddedCiphertextsDecryptToTheSum := by
  rintro c b p q kb m1 r1 c1 m2 r2 c2 s t S rd s1 s2 hprimes hderived henc1 henc2 hr1 hr2 rfl hS rfl rfl rfl rfl h
  obtain ⟨hb, -⟩ := deriveKey_of_derived hderived
  have hkey := decryptionKey_of_derived hprimes hderived
  have hn : 1 ≤ S.k.n := one_le_two.trans hkey.two_le
  have hc1 := eq_cipher_of_encrypted henc1
  have hc2 := eq_cipher_of_encrypted henc2
  have hsum : IsCiphertext S.k.n (r1 * r2) (m1 + m2) (S.x[s1] * S.x[s2]) :=
    hc1 ▸ hc2 ▸ (cipher_isCiphertext S.k.n r1 m1).mul (cipher_isCiphertext S.k.n r2 m2)
  have hr : Nat.Coprime (r1 * r2) S.k.n := Nat.Coprime.mul_left hr1 hr2
  have hlax : strictRejects S (haddWarns S.x[s1] S.x[s2] S.k.n) = false := strictRejects_eq_false fun _ =>
    haddWarns_eq_none (hc1 ▸ cipher_lt r1 m1 hn) (hc2 ▸ cipher_lt r2 m2 hn)
  obtain rfl := Host.Outcome.next.inj ((exec_hadd_ok hS hb ⟨hn, hkey.n_lt⟩ hlax).symm.trans h)
  rw [completeX_wroteIfOk s rd _ _ rfl]
  have hdecrypts := decryptsTo_of_isCiphertext hb hkey hr hsum.mod_sq (Nat.mod_lt _ (Nat.mul_pos hn hn))
  exact ⟨rfl, hdecrypts, (Nat.mod_modEq _ _).gcd_eq.trans hr, hsum.mod_sq_eq_cipher.trans (cipher_eq_pow_mod ..)⟩

/-- Settles O45: HMUL writes the power of the ciphertext modulo N², a ciphertext of the multiple. -/
theorem scaledCiphertextDecryptsToTheProduct : Obligations.ScaledCiphertextDecryptsToTheProduct := by
  rintro c b p q kb m r ct s t S rd s1 s2 hprimes hderived henc hr rfl hS rfl rfl rfl hstrict h
  obtain ⟨hb, -⟩ := deriveKey_of_derived hderived
  have hkey := decryptionKey_of_derived hprimes hderived
  have hn : 1 ≤ S.k.n := one_le_two.trans hkey.two_le
  have hct := eq_cipher_of_encrypted henc
  have hmultiple : IsCiphertext S.k.n (r ^ S.x[s2]) (S.x[s2] * m) (S.x[s1] ^ S.x[s2]) :=
    (hct ▸ cipher_isCiphertext S.k.n r m : IsCiphertext S.k.n r m S.x[s1]).pow S.x[s2]
  have hadmits : strictRejects S (hmulWarns S.x[s1] S.x[s2] S.k.n) = false := strictRejects_eq_false fun hs =>
    hmulWarns_eq_none (hct ▸ cipher_lt r m hn) (hstrict hs)
  obtain rfl := Host.Outcome.next.inj ((exec_hmul_ok hS hb ⟨hn, hkey.n_lt⟩ hadmits).symm.trans h)
  rw [completeX_wroteIfOk s rd _ _ rfl, powmod_eq_pow_mod]
  exact ⟨rfl, decryptsTo_of_isCiphertext hb hkey (Nat.Coprime.pow_left _ hr) hmultiple.mod_sq
    (Nat.mod_lt _ (Nat.mul_pos hn hn))⟩

end Sys2Proof.Machine
end
